-- ==== Sys2Proof/Word.lean ====
section
/-! DEFINITION. The widths of spec/00_scope.md R7 and R8 by name. Types only: everything that computes stands in
Sys2Proof/Machine/. -/
namespace Sys2Proof

/-- One bus word, command word or digest word (00_scope R7, R8). -/
abbrev Word := BitVec 32

/-- One byte of a host's byte string (20_memory R86). -/
abbrev Byte := BitVec 8

/-- A block, a key or DGLEN: a 64-bit register (00_scope R7). -/
abbrev Block := BitVec 64

/-- A round subkey, or an expanded half (00_scope R7). -/
abbrev Subkey := BitVec 48

/-- A key-schedule half (00_scope R7). -/
abbrev KeyHalf := BitVec 28

/-- A byte offset in the 4096-byte register window (30_encoding R127). -/
abbrev Offset := BitVec 12

end Sys2Proof
end

