-- ==== Sys2Proof/Config.lean ====
section
/-! DEFINITION. The configuration of spec/00_scope.md R6: the OPEN parameters as a record, their reference values,
the constants the source or the spec fixes, and the one free value, `Config.draw`. Which records are well-formed
(R9) is Sys2Proof/WellFormed.lean's. -/
namespace Sys2Proof

/-- The two readings of "bit positions 29..56" (41_key_schedule R231). -/
inductive KsExtract where
  | low56
  | high56
deriving DecidableEq, Repr

/-- The parameters of 00_scope R6 that the source leaves OPEN, before any check. Table entries are the source's
positions, 1 the most significant (R11). `coreBase` is the platform's: the core decodes only the offset (R80). -/
structure RawConfig where
  tableIP   : List Nat
  tableFP   : List Nat
  tableE    : List Nat
  tableP    : List Nat
  tablePC2  : List Nat
  sboxRow   : Vector (BitVec 4) 16
  ksExtract : KsExtract
  mxw       : Nat
  coreBase  : Nat
deriving DecidableEq, Repr

/-- `TABLE_IP`'s reference value (40_permutation R202). -/
def Config.desIP : List Nat :=
  [58, 50, 42, 34, 26, 18, 10, 2] ++ [60, 52, 44, 36, 28, 20, 12, 4] ++
  [62, 54, 46, 38, 30, 22, 14, 6] ++ [64, 56, 48, 40, 32, 24, 16, 8] ++
  [57, 49, 41, 33, 25, 17, 9, 1] ++ [59, 51, 43, 35, 27, 19, 11, 3] ++
  [61, 53, 45, 37, 29, 21, 13, 5] ++ [63, 55, 47, 39, 31, 23, 15, 7]

/-- `TABLE_FP`'s reference value (40_permutation R203). -/
def Config.desFP : List Nat :=
  [40, 8, 48, 16, 56, 24, 64, 32] ++ [39, 7, 47, 15, 55, 23, 63, 31] ++
  [38, 6, 46, 14, 54, 22, 62, 30] ++ [37, 5, 45, 13, 53, 21, 61, 29] ++
  [36, 4, 44, 12, 52, 20, 60, 28] ++ [35, 3, 43, 11, 51, 19, 59, 27] ++
  [34, 2, 42, 10, 50, 18, 58, 26] ++ [33, 1, 41, 9, 49, 17, 57, 25]

/-- `TABLE_E`'s reference value (40_permutation R204). -/
def Config.desE : List Nat :=
  [32, 1, 2, 3, 4, 5] ++ [4, 5, 6, 7, 8, 9] ++ [8, 9, 10, 11, 12, 13] ++ [12, 13, 14, 15, 16, 17] ++
  [16, 17, 18, 19, 20, 21] ++ [20, 21, 22, 23, 24, 25] ++ [24, 25, 26, 27, 28, 29] ++ [28, 29, 30, 31, 32, 1]

/-- `TABLE_P`'s reference value (40_permutation R205). -/
def Config.desP : List Nat :=
  [16, 7, 20, 21, 29, 12, 28, 17] ++ [1, 15, 23, 26, 5, 18, 31, 10] ++
  [2, 8, 24, 14, 32, 27, 3, 9] ++ [19, 13, 30, 6, 22, 11, 4, 25]

/-- `TABLE_PC2`'s reference value (40_permutation R206). -/
def Config.desPC2 : List Nat :=
  [14, 17, 11, 24, 1, 5] ++ [3, 28, 15, 6, 21, 10] ++ [23, 19, 12, 4, 26, 8] ++ [16, 7, 27, 20, 13, 2] ++
  [41, 52, 31, 37, 47, 55] ++ [30, 40, 51, 45, 33, 48] ++ [44, 49, 39, 56, 34, 53] ++ [46, 42, 50, 36, 29, 32]

/-- `SBOX_ROW`'s reference value, DES S-box 1 row 0 (42_feistel R260). -/
def Config.desS1Row0 : Vector (BitVec 4) 16 :=
  #v[14, 4, 13, 1, 2, 15, 11, 8, 3, 10, 6, 12, 5, 9, 0, 7]

/-- The reference configuration (00_scope R6). `CORE_BASE` has no value in the spec: 0 here is the model's
(DESIGN CHOICE, unsafe only for a claim that reads it; log 5), and nothing the core does reads it. -/
def RawConfig.reference : RawConfig where
  tableIP   := Config.desIP
  tableFP   := Config.desFP
  tableE    := Config.desE
  tableP    := Config.desP
  tablePC2  := Config.desPC2
  sboxRow   := Config.desS1Row0
  ksExtract := .low56
  mxw       := 1024
  coreBase  := 0

/-- `SHIFTS`, fixed by the source (41_key_schedule R230). -/
def Config.shifts : List Nat := [1, 1, 2, 2, 2, 2, 2, 2, 1, 2, 2, 2, 2, 2, 2, 1]

/-- `DG_IV` (43_digest R301). -/
def Config.dgIV : Vector Word 5 :=
  #v[0x67452301, 0xEFCDAB89, 0x98BADCFE, 0x10325476, 0xC3D2E1F0]

/-- `draw()` (00_scope R14): the value of the n-th read of a result word while BUSY = 1 (20_memory R88). It has no
body: no proof can see a value of it, and a claim about it holds for every value (log 3). -/
opaque Config.draw : Nat → Word

end Sys2Proof
end

