-- ==== Sys2Proof/Syntax.lean ====
section
/-! DEFINITION. The sixteen commands of spec/30_encoding.md R124, one constructor per row of spec/opcode_table.json.
The fields are those R121 gives a meaning: N of DGFINAL and SB of MODEXP and MODMUL. -/
namespace Sys2Proof

/-- A command. Each field's type is its width in the command word (R120), so every term is an instruction that
some legal word encodes. -/
inductive Instr where
  /-- Do nothing and complete (45_control R380). -/
  | nop
  /-- Initial permutation (40_permutation R210). -/
  | pip
  /-- Final permutation (R211). -/
  | pfp
  /-- Expansion of the low half (R212). -/
  | pexp
  /-- Round permutation of the low half (R213). -/
  | pperm
  /-- Round-key compression of the low 56 bits (R214). -/
  | ppc2
  /-- Substitution (42_feistel R266). -/
  | sbox
  /-- Round function (R267). -/
  | roundf
  /-- Derive the SubkeySet (41_key_schedule R233). -/
  | ksgen
  /-- Encrypt one block (42_feistel R268). -/
  | enc
  /-- Decrypt one block (R269). -/
  | dec
  /-- Start a new message (43_digest R306). -/
  | dginit
  /-- Absorb one 512-bit block (R307). -/
  | dgblock
  /-- Absorb the last `n` bytes and pad (R308); `n` is the field N, an unsigned byte count 0..63 (R121). -/
  | dgfinal (n : BitVec 6)
  /-- Modular exponentiation (44_modexp R341); `sb` makes the base two's complement (R340). -/
  | modexp (sb : Bool)
  /-- Modular multiplication (R342). -/
  | modmul (sb : Bool)
deriving DecidableEq, Repr

end Sys2Proof
end

