-- ==== Sys2Proof/WellFormed.lean ====
section
/-! DEFINITION. What the spec asks to be checked before it gives a meaning: the configuration (00_scope R9, 40_permutation
R207), once, at construction (70_reset R453); and a bus access (20_memory R82). A command needs no check of its own:
the width of each of its fields is its type (Syntax.lean), and a word that is no command is Decode.lean's to reject. -/
namespace Sys2Proof

/-- R207 items 1 and 2: the five lengths. -/
def RawConfig.lengthsOk (c : RawConfig) : Bool :=
  c.tableIP.length == 64 && c.tableFP.length == 64 && c.tableE.length == 48 &&
  c.tableP.length == 32 && c.tablePC2.length == 48

/-- R207 item 3: every entry of every table is at least 1. -/
def RawConfig.entriesOk (c : RawConfig) : Bool :=
  (c.tableIP ++ c.tableFP ++ c.tableE ++ c.tableP ++ c.tablePC2).all fun p => decide (1 ≤ p)

/-- R207 item 4: every position 1..64 stands in `TABLE_IP` (which has 64 entries, item 1). -/
def RawConfig.ipPermutes (c : RawConfig) : Bool :=
  (List.range 64).all fun k => c.tableIP.contains (k + 1)

/-- R207 item 5, on the tables: output position i + 1 of `TABLE_FP` after `TABLE_IP` is input position i + 1. -/
def RawConfig.fpInvertsIP (c : RawConfig) : Bool :=
  (List.range 64).all fun i => c.tableIP.getD (c.tableFP.getD i 0 - 1) 0 == i + 1

/-- R6, R9: the range of `MXW`. -/
def RawConfig.mxwOk (c : RawConfig) : Bool :=
  c.mxw % 32 == 0 && decide (160 ≤ c.mxw) && decide (c.mxw ≤ 4096)

/-- R9: a configuration is well-formed only if it meets R207 and `MXW` meets its range. -/
def RawConfig.wf (c : RawConfig) : Bool :=
  c.lengthsOk && c.entriesOk && c.ipPermutes && c.fpInvertsIP && c.mxwOk

/-- A configuration the check accepted. An ill-formed one cannot be built, so no step gives it a meaning
(R9; R453: "once, at construction"; log 4). -/
structure Config where
  raw : RawConfig
  ok  : raw.wf = true
deriving DecidableEq, Repr

/-- The check of R453: a configuration, or its refusal. -/
def Config.build? (raw : RawConfig) : Option Config :=
  if h : raw.wf = true then some ⟨raw, h⟩ else none

/-- The reference configuration (R6). -/
def Config.reference : Config := ⟨RawConfig.reference, by decide +kernel⟩

/-- How many words an MXW-bit register has (10_state R35). -/
def Config.words (c : Config) : Nat := c.raw.mxw / 32

/-- The offset a bus address names, if it lies in the window (20_memory R80: an access outside it does not reach
the core). The platform's part of an access: the core itself is given the offset. -/
def Config.offsetOf? (c : Config) (addr : Nat) : Option Offset :=
  if c.raw.coreBase ≤ addr ∧ addr < c.raw.coreBase + 4096 then some (BitVec.ofNat 12 (addr - c.raw.coreBase)) else none

/-- R82: an access the interface gives a meaning is a 32-bit one (`size` counts bytes) at a multiple of 4. -/
def accessOk (off : Offset) (size : Nat) : Bool := size == 4 && off.toNat % 4 == 0

end Sys2Proof
end

