-- ==== Sys2Proof/Decode.lean ====
section
/-! DEFINITION. The command word of spec/30_encoding.md: its fields (R120), the decoder (R124 to R126), which is total and
names what it rejects, and the encoder, written from the same table. A command is one whole 32-bit word: the bus
carries only words, so no byte order enters (20_memory R86). -/
namespace Sys2Proof

/-- OP, bits 7:0 (R120). -/
def opField (w : Word) : BitVec 8 := w.extractLsb' 0 8

/-- N, bits 13:8. -/
def nField (w : Word) : BitVec 6 := w.extractLsb' 8 6

/-- RSV1, bits 15:14. -/
def rsv1Field (w : Word) : BitVec 2 := w.extractLsb' 14 2

/-- SB, bit 16. -/
def sbField (w : Word) : Bool := w.getLsbD 16

/-- RSV2, bits 31:17. -/
def rsv2Field (w : Word) : BitVec 15 := w.extractLsb' 17 15

/-- Why a word selects no command: R126's four classes. -/
inductive DecodeError where
  /-- The opcode is not in R124. -/
  | unlistedOpcode (op : BitVec 8)
  /-- N is nonzero outside DGFINAL. -/
  | nonzeroN
  /-- SB is nonzero outside MODEXP and MODMUL. -/
  | nonzeroSB
  /-- RSV1 or RSV2 is nonzero. -/
  | nonzeroReserved
deriving DecidableEq, Repr

/-- A row with no field: N and SB must be 0 (R120). -/
def decodeFixed (w : Word) (i : Instr) : Except DecodeError Instr :=
  if nField w ≠ 0 then .error .nonzeroN
  else if sbField w then .error .nonzeroSB
  else .ok i

/-- DGFINAL's row: N is its field, SB must be 0. -/
def decodeN (w : Word) (f : BitVec 6 → Instr) : Except DecodeError Instr :=
  if sbField w then .error .nonzeroSB else .ok (f (nField w))

/-- MODEXP's and MODMUL's rows: SB is the field, N must be 0. -/
def decodeSB (w : Word) (f : Bool → Instr) : Except DecodeError Instr :=
  if nField w ≠ 0 then .error .nonzeroN else .ok (f (sbField w))

/-- The command a word selects, or why it is illegal (R124 to R126). -/
def decode (w : Word) : Except DecodeError Instr :=
  if rsv1Field w ≠ 0 ∨ rsv2Field w ≠ 0 then .error .nonzeroReserved
  else
    match (opField w).toNat with
    | 0x00 => decodeFixed w .nop
    | 0x10 => decodeFixed w .pip
    | 0x11 => decodeFixed w .pfp
    | 0x12 => decodeFixed w .pexp
    | 0x13 => decodeFixed w .pperm
    | 0x14 => decodeFixed w .ppc2
    | 0x18 => decodeFixed w .sbox
    | 0x19 => decodeFixed w .roundf
    | 0x1A => decodeFixed w .ksgen
    | 0x1C => decodeFixed w .enc
    | 0x1D => decodeFixed w .dec
    | 0x20 => decodeFixed w .dginit
    | 0x21 => decodeFixed w .dgblock
    | 0x22 => decodeN w .dgfinal
    | 0x30 => decodeSB w .modexp
    | 0x31 => decodeSB w .modmul
    | _ => .error (.unlistedOpcode (opField w))

/-- A word is legal when it selects a command (10_state R43, 45_control R384). -/
def legal (w : Word) : Bool :=
  match decode w with
  | .ok _ => true
  | .error _ => false

/-- OP of each command (R124). -/
def opcodeOf : Instr → BitVec 8
  | .nop => 0x00
  | .pip => 0x10
  | .pfp => 0x11
  | .pexp => 0x12
  | .pperm => 0x13
  | .ppc2 => 0x14
  | .sbox => 0x18
  | .roundf => 0x19
  | .ksgen => 0x1A
  | .enc => 0x1C
  | .dec => 0x1D
  | .dginit => 0x20
  | .dgblock => 0x21
  | .dgfinal _ => 0x22
  | .modexp _ => 0x30
  | .modmul _ => 0x31

/-- N of each command: DGFINAL's, else 0 (R120). -/
def nOf : Instr → BitVec 6
  | .dgfinal n => n
  | _ => 0

/-- SB of each command: MODEXP's and MODMUL's, else 0 (R120). -/
def sbOf : Instr → Bool
  | .modexp sb => sb
  | .modmul sb => sb
  | _ => false

/-- The word of a command: RSV2 ‖ SB ‖ RSV1 ‖ N ‖ OP, the reserved fields 0 (R120). -/
def encode (i : Instr) : Word :=
  0#15 ++ BitVec.ofBool (sbOf i) ++ 0#2 ++ nOf i ++ opcodeOf i

/-- The host's question: the command in an instruction of `nbits` bits whose bits are `w`, every bit above `nbits`
being 0. A command is one 32-bit word (R120), so a value that needs more bits is none. -/
def decodeTableWord (nbits w : Nat) : Option Instr :=
  let v := w % 2 ^ nbits
  if v < 2 ^ 32 then (decode (BitVec.ofNat 32 v)).toOption else none

end Sys2Proof
end

