-- ==== Sys2Proof/Machine/Bits.lean ====
section
/-! DEFINITION. Bit fields, rotation and word order: the notation of spec/00_scope.md R10 and R12, and the fixed splits of
10_state R35 and 20_memory R86. -/
namespace Sys2Proof.Machine

/-- `rotl_w(v, n)` for 0 ≤ n < w (00_scope R12). -/
def rotl {w : Nat} (v : BitVec w) (n : Nat) : BitVec w := (v <<< n) ||| (v >>> (w - n))

/-- `R_HI = R[63:32]` (10_state R35). -/
def hi32 (r : Block) : Word := r.extractLsb' 32 32

/-- `R_LO = R[31:0]` (10_state R35). -/
def lo32 (r : Block) : Word := r.extractLsb' 0 32

/-- `a ‖ b`, the 64-bit value of two words (00_scope R12). -/
def join64 (hi lo : Word) : Block := hi ++ lo

/-- `zext_32(SK[i][47:32])` (10_state R35). -/
def skHi (k : Subkey) : Word := (k.extractLsb' 32 16).setWidth 32

/-- `SK[i][31:0]` (10_state R35). -/
def skLo (k : Subkey) : Word := k.extractLsb' 0 32

/-- `int(R) = Σ_j int(R.word[j]) · 2^(32j)`, word 0 least significant (10_state R35). -/
def natOfWords : List Word → Nat
  | [] => 0
  | w :: ws => w.toNat + 2 ^ 32 * natOfWords ws

/-- The `n` words of `v`, word 0 least significant: the words R with `int(R) = v` when `v < 2^(32n)`
(10_state R35). -/
def wordsOfNat : Nat → Nat → List Word
  | 0, _ => []
  | n + 1, v => BitVec.ofNat 32 v :: wordsOfNat n (v / 2 ^ 32)

/-- The big-endian value of a list of bytes (20_memory R86), as a natural number. -/
def natOfBytes (bs : List Byte) : Nat := bs.foldl (fun acc b => 256 * acc + b.toNat) 0

/-- Byte `k` of a 64-bit value, byte 0 most significant (20_memory R86). -/
def byteOfBlock (b : Block) (k : Nat) : Byte := b.extractLsb' (56 - 8 * k) 8

/-- The eight bytes of a 64-bit value, most significant first (20_memory R86). -/
def bytesOfBlock (b : Block) : List Byte := (List.range 8).map (byteOfBlock b)

/-- `b[4j] ‖ b[4j+1] ‖ b[4j+2] ‖ b[4j+3]`: word `j` of a byte string, bytes past its end being 0
(43_digest R305, 30_encoding R129). -/
def wordOfBytes (bs : List Byte) (j : Nat) : Word :=
  bs.getD (4 * j) 0 ++ bs.getD (4 * j + 1) 0 ++ bs.getD (4 * j + 2) 0 ++ bs.getD (4 * j + 3) 0

end Sys2Proof.Machine
end

