-- ==== Sys2Proof/Machine/State.lean ====
section
/-! DEFINITION. The state of HI2K-CORE, a record of the items of spec/10_state.md R30 and nothing else, and the machine round it:
the configuration, the steps to come and what the host has read. ID and PARAM are constants and BUSY and irq are functions
of the state (R36, R37, R39, R41): accessors, here and in Flags.lean, and no field. Reset is R44. -/
namespace Sys2Proof.Machine

/-- One step of the host, the engine or the environment (45_control R386). `size` counts the bytes of a bus access,
so that an access R82 does not admit can be written down and refused. -/
inductive Event where
  /-- `HostWrite(off, v)`. -/
  | write (off : Offset) (size : Nat) (v : Word)
  /-- `HostRead(off)`. -/
  | read (off : Offset) (size : Nat)
  /-- The engine's turn: `EngineStep` where it is enabled; a turn passed where it is not (log 2). -/
  | engine
  /-- `HardReset`. -/
  | hardReset
deriving DecidableEq, Repr

/-- No fault stops this core: it "has no trap" (60_exceptions R400), so there is no constructor (log 9). -/
inductive Fault
deriving DecidableEq, Repr

/-- Why a step has no meaning. -/
inductive Refusal where
  /-- `exec`'s arm of an instruction without a meaning yet. Safe. -/
  | notModelled (mnemonic : String)
  /-- A sub-word, wide or misaligned bus access, which R82 tells a model to refuse (`applyEvent`). Safe. -/
  | unadmittedAccess
  /-- An engine step whose PEND holds an illegal word: R43 excludes it, and no step of the model reaches it from a
  state of the invariant (`engineStep`; log 10). Safe. -/
  | illegalPend
deriving DecidableEq, Repr

/-- The state of the core: one field for each item of R30 that has storage, and nothing else. ID and PARAM are constants.
An MXW-bit register is its MXW/32 words, word 0 first (10_state R35). -/
structure CoreState where
  /-- CTRL.IE (R38). -/
  ie     : Bool
  /-- STATUS.DONE (R39). -/
  done   : Bool
  /-- STATUS.ERR (R39). -/
  err    : Bool
  /-- STATUS.ECODE (R39). -/
  ecode  : BitVec 4
  /-- The last command word issued (R40). -/
  cmd    : Word
  /-- R33. -/
  key    : Block
  /-- R33. -/
  din    : Block
  /-- R34. -/
  dout   : Block
  /-- The SubkeySet, `SK[0]` round 0's (R34). -/
  sk     : Vector Subkey 16
  /-- The digest's running state words (R34). -/
  h      : Vector Word 5
  /-- Bits absorbed so far, modulo 2^64 (R34). -/
  dglen  : Block
  /-- The message block (R33). -/
  msg    : Vector Word 16
  /-- R33. -/
  opa    : List Word
  /-- R33. -/
  opb    : List Word
  /-- R33. -/
  mod    : List Word
  /-- R34. -/
  res    : List Word
  /-- The pending command: empty or a legal word (R43). -/
  pend   : Option Word
deriving DecidableEq, Repr

/-- The machine the host's interface runs: the core's state, the projection `core`, and round it what one step of it takes
beside the state (log 1). -/
structure State extends core : CoreState where
  /-- The parameters of the step relation (00_scope R6): no state, and changed by no step (70_reset R453; log 4). -/
  cfg    : Config
  /-- The steps still to come, in the order the interleaving gives them (R91; log 2). -/
  script : List Event
  /-- What the host's reads returned so far, oldest first (70_reset R461; log 1). -/
  reads  : List (Offset × Word)
  /-- How many values `draw()` has given (log 3). -/
  draws  : Nat
deriving DecidableEq, Repr

/-- STATUS.BUSY (R39): "1 while PEND is non-empty". -/
def State.busy (s : State) : Bool := s.pend.isSome

/-- R44 for a configuration: every register at its reset value. -/
def CoreState.resetOf (c : Config) : CoreState where
  ie     := false
  done   := false
  err    := false
  ecode  := 0
  cmd    := 0
  key    := 0
  din    := 0
  dout   := 0
  sk     := Vector.replicate 16 0
  h      := Config.dgIV
  dglen  := 0
  msg    := Vector.replicate 16 0
  opa    := List.replicate c.words 0
  opb    := List.replicate c.words 0
  mod    := List.replicate c.words 0
  res    := List.replicate c.words 0
  pend   := none

/-- The core after reset in a configuration, with no step to come and nothing read (log 8). -/
def State.resetOf (c : Config) : State where
  core   := CoreState.resetOf c
  cfg    := c
  script := []
  reads  := []
  draws  := 0

/-- The machine right after reset, in the reference configuration (R44, 00_scope R6; log 5). -/
def State.reset : State := State.resetOf Config.reference

end Sys2Proof.Machine
end

