-- ==== Sys2Proof/Machine/Operands.lean ====
section
/-! DEFINITION. What the commands read: every operand form the spec gives (40_permutation R210 to R214, 42_feistel R266 and
R267, 41_key_schedule R231, 20_memory R86, 44_modexp R340). Reads see the values at the start of the step (00_scope R13). -/
namespace Sys2Proof.Machine

/-- `DIN[31:0]`: the operand of PEXP, PPERM and ROUNDF. -/
def State.dinLow32 (s : State) : Word := s.din.setWidth 32

/-- `DIN[47:0]`: the operand of SBOX. -/
def State.dinLow48 (s : State) : Subkey := s.din.setWidth 48

/-- `DIN[55:0]`: the operand of PPC2. -/
def State.dinLow56 (s : State) : BitVec 56 := s.din.setWidth 56

/-- `KEY[47:0]`: ROUNDF's subkey. -/
def State.keyLow48 (s : State) : Subkey := s.key.setWidth 48

/-- `MSGbyte(k) = MSG[k div 4][31−8(k mod 4) : 24−8(k mod 4)]` (20_memory R86). -/
def msgByte (msg : Vector Word 16) (k : Nat) : Byte :=
  (msg.toList.getD (k / 4) 0).extractLsb' (24 - 8 * (k % 4)) 8

/-- `int(R)` of an MXW-bit register (10_state R35). -/
def uintOf (r : List Word) : Nat := natOfWords r

/-- `sint_MXW(R) = int(R) − R[MXW−1]·2^MXW` (00_scope R12). -/
def sintOf (mxw : Nat) (r : List Word) : Int :=
  if (natOfWords r).testBit (mxw - 1) then (natOfWords r : Int) - (2 ^ mxw : Nat) else (natOfWords r : Int)

/-- A of R340: OPA as two's complement when SB is 1, else unsigned. -/
def State.operandA (s : State) (sb : Bool) : Int :=
  if sb then sintOf s.cfg.raw.mxw s.opa else (uintOf s.opa : Int)

/-- B of R340, always unsigned. -/
def State.operandB (s : State) : Nat := uintOf s.opb

/-- M of R340, always unsigned. -/
def State.operandM (s : State) : Nat := uintOf s.mod

/-- `a mod m` for m > 0, the non-negative remainder (00_scope R12), as a natural number. -/
def modInt (a : Int) (m : Nat) : Nat := (a % (m : Int)).toNat

end Sys2Proof.Machine
end

