-- ==== Sys2Proof/Machine/Flags.lean ====
section
/-! DEFINITION. STATUS, CTRL and irq: the only flags (10_state R42). DONE is set by a completion, ERR and ECODE by `raise`
(60_exceptions R401), and a write to STATUS clears them (45_control R382). -/
namespace Sys2Proof.Machine

/-- The errors of 60_exceptions R402. -/
inductive ErrCode where
  | illegalCmd
  | modZero
  | overrun
deriving DecidableEq, Repr

/-- The code of an error (R402). -/
def ErrCode.code : ErrCode → BitVec 4
  | .illegalCmd => 1
  | .modZero => 2
  | .overrun => 3

/-- `raise E`: ERR ← 1, ECODE ← the code, which overwrites an earlier one; nothing else (R401). -/
def raise (e : ErrCode) (s : State) : State := { s with err := true, ecode := e.code }

/-- `STATUS.DONE ← 1` (45_control R385). -/
def setDone (s : State) : State := { s with done := true }

/-- `ClearStatus(v)` (45_control R382). -/
def clearStatus (v : Word) (s : State) : State :=
  { s with
    done := if v.getLsbD 1 then false else s.done
    err := if v.getLsbD 2 then false else s.err
    ecode := if v.getLsbD 2 then 0 else s.ecode }

/-- STATUS as read: ECODE at 7:4, ERR at 2, DONE at 1, BUSY at 0, every other bit 0 (10_state R39, 20_memory R88). -/
def State.statusWord (s : State) : Word :=
  0#24 ++ s.ecode ++ 0#1 ++ BitVec.ofBool s.err ++ BitVec.ofBool s.done ++ BitVec.ofBool s.busy

/-- CTRL as read: IE at 0; SRST and the reserved bits read 0 (10_state R38). -/
def State.ctrlWord (s : State) : Word := 0#31 ++ BitVec.ofBool s.ie

/-- The level of the interrupt output (60_exceptions R409, 10_state R41). -/
def State.irq (s : State) : Bool := s.ie && (s.done || s.err)

/-- The constant of ID, "HI20" (10_state R36). -/
def idWord : Word := 0x48493230

/-- KSX (10_state R37). -/
def ksx : KsExtract → BitVec 1
  | .low56 => 0
  | .high56 => 1

/-- PARAM: MXW at 12:0, KSX at 13, the rest 0 (10_state R37). -/
def Config.paramWord (c : Config) : Word :=
  0#18 ++ ksx c.raw.ksExtract ++ BitVec.ofNat 13 c.raw.mxw

end Sys2Proof.Machine
end

