-- ==== Sys2Proof/Machine/Window.lean ====
section
/-! DEFINITION. The register window (spec/20_memory.md R81): the register each offset names, and back; the word each
register reads as, and the write of an operand word. -/
namespace Sys2Proof.Machine

/-- The registers of R81 by name. An offset that is reserved, a word of a wide register at j ≥ MXW/32 among them
(R83), is `reserved`. -/
inductive Reg where
  | id | param | ctrl | status | cmd
  | keyHi | keyLo | dinHi | dinLo
  | doutHi | doutLo
  | skHi (i : Fin 16) | skLo (i : Fin 16)
  | h (j : Fin 5)
  | dglenHi | dglenLo
  | msg (j : Fin 16)
  | opa (j : Fin 128) | opb (j : Fin 128) | mod (j : Fin 128) | res (j : Fin 128)
  | reserved
deriving DecidableEq, Repr

/-- A word slot of a wide register: the register where j < MXW/32, else reserved (R81). -/
def wideSlot (c : Config) (f : Fin 128 → Reg) (j : Fin 128) : Reg :=
  if j.val < c.words then f j else .reserved

/-- The register at an admitted offset below 0x200, where no parameter enters (R81). -/
def regLow (a : Nat) : Reg :=
  if a = 0x000 then .id
  else if a = 0x004 then .param
  else if a = 0x008 then .ctrl
  else if a = 0x00C then .status
  else if a = 0x010 then .cmd
  else if a < 0x020 then .reserved
  else if a = 0x020 then .keyHi
  else if a = 0x024 then .keyLo
  else if a = 0x028 then .dinHi
  else if a = 0x02C then .dinLo
  else if a = 0x030 then .doutHi
  else if a = 0x034 then .doutLo
  else if a < 0x040 then .reserved
  else if a < 0x0C0 then
    if a % 8 = 0 then .skHi (Fin.ofNat 16 ((a - 0x040) / 8)) else .skLo (Fin.ofNat 16 ((a - 0x044) / 8))
  else if a < 0x0D4 then .h (Fin.ofNat 5 ((a - 0x0C0) / 4))
  else if a = 0x0D8 then .dglenHi
  else if a = 0x0DC then .dglenLo
  else if a < 0x100 then .reserved
  else if a < 0x140 then .msg (Fin.ofNat 16 ((a - 0x100) / 4))
  else .reserved

/-- The register at an admitted offset (R81). -/
def regAt (c : Config) (off : Offset) : Reg :=
  let a := off.toNat
  if a < 0x200 then regLow a
  else if a < 0x400 then wideSlot c .opa (Fin.ofNat 128 ((a - 0x200) / 4))
  else if a < 0x600 then wideSlot c .opb (Fin.ofNat 128 ((a - 0x400) / 4))
  else if a < 0x800 then wideSlot c .mod (Fin.ofNat 128 ((a - 0x600) / 4))
  else if a < 0xA00 then wideSlot c .res (Fin.ofNat 128 ((a - 0x800) / 4))
  else .reserved

/-- The offset of a register (R81, 30_encoding R128: `offset(reg)`). `reserved` stands for many offsets; the one
given is the first of them, 0x014. -/
def offsetOf : Reg → Offset
  | .id => 0x000
  | .param => 0x004
  | .ctrl => 0x008
  | .status => 0x00C
  | .cmd => 0x010
  | .keyHi => 0x020
  | .keyLo => 0x024
  | .dinHi => 0x028
  | .dinLo => 0x02C
  | .doutHi => 0x030
  | .doutLo => 0x034
  | .skHi i => BitVec.ofNat 12 (0x040 + 8 * i.val)
  | .skLo i => BitVec.ofNat 12 (0x044 + 8 * i.val)
  | .h j => BitVec.ofNat 12 (0x0C0 + 4 * j.val)
  | .dglenHi => 0x0D8
  | .dglenLo => 0x0DC
  | .msg j => BitVec.ofNat 12 (0x100 + 4 * j.val)
  | .opa j => BitVec.ofNat 12 (0x200 + 4 * j.val)
  | .opb j => BitVec.ofNat 12 (0x400 + 4 * j.val)
  | .mod j => BitVec.ofNat 12 (0x600 + 4 * j.val)
  | .res j => BitVec.ofNat 12 (0x800 + 4 * j.val)
  | .reserved => 0x014

/-- The operand words: the host writes them and commands only read them (10_state R33; 20_memory R87's list). -/
def Reg.isOperand : Reg → Bool
  | .keyHi | .keyLo | .dinHi | .dinLo | .msg _ | .opa _ | .opb _ | .mod _ => true
  | _ => false

/-- The result words: commands write them and the host only reads them (10_state R34; 20_memory R88's list). -/
def Reg.isResult : Reg → Bool
  | .doutHi | .doutLo | .skHi _ | .skLo _ | .h _ | .dglenHi | .dglenLo | .res _ => true
  | _ => false

/-- The word a register holds: what a read of it returns where R88 gives no draw. -/
def State.regWord (s : State) : Reg → Word
  | .id => idWord
  | .param => Config.paramWord s.cfg
  | .ctrl => s.ctrlWord
  | .status => s.statusWord
  | .cmd => s.cmd
  | .keyHi => hi32 s.key
  | .keyLo => lo32 s.key
  | .dinHi => hi32 s.din
  | .dinLo => lo32 s.din
  | .doutHi => hi32 s.dout
  | .doutLo => lo32 s.dout
  | .skHi i => skHi s.sk[i]
  | .skLo i => skLo s.sk[i]
  | .h j => s.h[j]
  | .dglenHi => hi32 s.dglen
  | .dglenLo => lo32 s.dglen
  | .msg j => s.msg[j]
  | .opa j => s.opa.getD j 0
  | .opb j => s.opb.getD j 0
  | .mod j => s.mod.getD j 0
  | .res j => s.res.getD j 0
  | .reserved => 0

/-- `W ← v` for an operand word W (R87); no other register is written so. -/
def State.setOperandWord (s : State) (v : Word) : Reg → State
  | .keyHi => { s with key := join64 v (lo32 s.key) }
  | .keyLo => { s with key := join64 (hi32 s.key) v }
  | .dinHi => { s with din := join64 v (lo32 s.din) }
  | .dinLo => { s with din := join64 (hi32 s.din) v }
  | .msg j => { s with msg := s.msg.set j v }
  | .opa j => { s with opa := s.opa.set j v }
  | .opb j => { s with opb := s.opb.set j v }
  | .mod j => { s with mod := s.mod.set j v }
  | _ => s

end Sys2Proof.Machine
end

