-- ==== Sys2Proof/Machine/Ops.lean ====
section
/-! DEFINITION. The operations the commands and the bus share: completion (spec/45_control.md R385), with and without error;
issue (R384); reset (R381, 70_reset R450); the bus write and read (20_memory R87, R88). This core takes no exception and
has no return from one (60_exceptions R400, R411): an error is `raise`, in Flags.lean, and ends in a next state. -/
namespace Sys2Proof.Machine

/-- How a step of the machine ends. -/
abbrev Result := Host.Outcome State Fault Refusal

/-- The end of a command whose results `s` holds: DONE ← 1, PEND ← empty (R385). -/
def complete (s : State) : Result := .next { setDone s with pend := none }

/-- The end of a command that raised an error: ERR and ECODE, PEND ← empty, DONE as it was (R385, 60_exceptions R401). -/
def completeError (e : ErrCode) (s : State) : Result := .next { raise e s with pend := none }

/-- A reset, hard or soft: every register at its value in 10_state R44, PEND discarded. The configuration is not state
(70_reset R450), and the steps to come, what the host has read and the count of draws are not the core's. -/
def resetCore (s : State) : State :=
  { s with core := CoreState.resetOf s.cfg }

/-- A write to CTRL: IE ← v[0]; a soft reset where v[1] = 1, which wins (45_control R381). -/
def writeCtrl (v : Word) (s : State) : State :=
  if v.getLsbD 1 then resetCore s else { s with ie := v.getLsbD 0 }

/-- `Issue(v)` (45_control R384): OVERRUN is checked before legality (60_exceptions R407). -/
def issue (v : Word) (s : State) : State :=
  if s.busy then raise .overrun s
  else if legal v then { s with cmd := v, pend := some v }
  else raise .illegalCmd s

/-- `BusWrite(off, v)` for an admitted offset (20_memory R87). -/
def busWrite (off : Offset) (v : Word) (s : State) : State :=
  match regAt s.cfg off with
  | .ctrl => writeCtrl v s
  | .status => clearStatus v s
  | .cmd => issue v s
  | r => if r.isOperand then (if s.busy then raise .overrun s else s.setOperandWord v r) else s

/-- The value of `BusRead(off)` (20_memory R88): a draw for a result word while PEND is not empty, else the word the
register holds. -/
def busReadValue (off : Offset) (s : State) : Word :=
  let r := regAt s.cfg off
  if r.isResult && s.busy then Config.draw s.draws else s.regWord r

/-- The state after `BusRead(off)`: no register changes (R88); the host has the value, and a draw is used up so that
the next one is another. -/
def busRead (off : Offset) (s : State) : State :=
  { s with
    reads := s.reads ++ [(off, busReadValue off s)]
    draws := if (regAt s.cfg off).isResult && s.busy then s.draws + 1 else s.draws }

end Sys2Proof.Machine
end

