-- ==== Sys2Proof/Machine/Control.lean ====
section
/-! DEFINITION. The control command (spec/45_control.md R380). -/
namespace Sys2Proof.Machine

/-- NOP (R380): no register is written. -/
def execNop (s : State) : Result := complete s

end Sys2Proof.Machine
end

