-- ==== Sys2Proof/Machine/Digest.lean ====
section
/-! DEFINITION. The digest pipeline (spec/43_digest.md): the schedule (R302), the rounds (R303, R304), the padding (R308) and the
commands DGINIT, DGBLOCK and DGFINAL. -/
namespace Sys2Proof.Machine

/-- The next word of the schedule: `rotl_32(w[j−3] ⊕ w[j−8] ⊕ w[j−14] ⊕ w[j−16], 1)`, j being the length so far
(R302). -/
def scheduleWord (w : List Word) : Word :=
  let j := w.length
  rotl (w.getD (j - 3) 0 ^^^ w.getD (j - 8) 0 ^^^ w.getD (j - 14) 0 ^^^ w.getD (j - 16) 0) 1

/-- The schedule extended by `n` words (R302). -/
def extendSchedule : Nat → List Word → List Word
  | 0, w => w
  | n + 1, w => extendSchedule n (w ++ [scheduleWord w])

/-- `f_t(b, c, d)` (R303). -/
def roundFn (t : Nat) (b c d : Word) : Word :=
  if t < 20 then (b &&& c) ||| (~~~b &&& d)
  else if t < 40 then b ^^^ c ^^^ d
  else if t < 60 then (b &&& c) ||| (b &&& d) ||| (c &&& d)
  else b ^^^ c ^^^ d

/-- `K_t` (R303). -/
def roundConst (t : Nat) : Word :=
  if t < 20 then 0x5A827999 else if t < 40 then 0x6ED9EBA1 else if t < 60 then 0x8F1BBCDC else 0xCA62C1D6

/-- The five working registers (R304), which live inside one command only (10_state R43). -/
structure Working where
  a : Word
  b : Word
  c : Word
  d : Word
  e : Word
deriving DecidableEq, Repr

/-- One round `t` with schedule word `w` (R304). Every addition wraps (10_state R42). -/
def digestRound (t : Nat) (w : Word) (x : Working) : Working :=
  { a := rotl x.a 5 + roundFn t x.b x.c x.d + x.e + roundConst t + w
    b := x.a
    c := rotl x.b 30
    d := x.c
    e := x.d }

/-- The rounds from `t` on, one for each schedule word (R304). -/
def digestRounds : Nat → List Word → Working → Working
  | _, [], x => x
  | t, w :: ws, x => digestRounds (t + 1) ws (digestRound t w x)

/-- The working registers seeded from the running state words (R304, 90_conflicts C4). -/
def workingOf (h : Vector Word 5) : Working := ⟨h[0], h[1], h[2], h[3], h[4]⟩

/-- `compress(H, w)` (R304) for the 16 words of a block. -/
def compress (h : Vector Word 5) (w : List Word) : Vector Word 5 :=
  let x := digestRounds 0 (extendSchedule 64 w) (workingOf h)
  #v[h[0] + x.a, h[1] + x.b, h[2] + x.c, h[3] + x.d, h[4] + x.e]

/-- `words(B)`: the 16 big-endian words of a 64-byte block (R305). -/
def blockWords (b : List Byte) : List Word := (List.range 16).map (wordOfBytes b)

/-- Bytes 0..n−1 of MSG, then 0x80, then zero bytes up to `len` bytes in all (R308: `B` before the length field). -/
def paddedBytes (msg : Vector Word 16) (n len : Nat) : List Byte :=
  (List.range len).map fun k => if k < n then msgByte msg k else if k = n then 0x80 else 0

/-- `L = (DGLEN + 8·n) mod 2^64` (R308). -/
def totalBits (dglen : Block) (n : BitVec 6) : Block := dglen + BitVec.ofNat 64 (8 * n.toNat)

/-- H after DGFINAL n: one compression where n ≤ 55, else two (R308). -/
def finalHash (h : Vector Word 5) (msg : Vector Word 16) (n : BitVec 6) (l : Block) : Vector Word 5 :=
  if n.toNat ≤ 55 then
    compress h (blockWords (paddedBytes msg n.toNat 56 ++ bytesOfBlock l))
  else
    compress (compress h (blockWords (paddedBytes msg n.toNat 64)))
      (blockWords (List.replicate 56 0 ++ bytesOfBlock l))

/-- `H ← h; DGLEN ← l`. -/
def State.setDigest (s : State) (h : Vector Word 5) (l : Block) : State := { s with h := h, dglen := l }

/-- DGINIT (R306). -/
def execDginit (s : State) : Result := complete (s.setDigest Config.dgIV 0)

/-- DGBLOCK (R307). -/
def execDgblock (s : State) : Result :=
  complete (s.setDigest (compress s.h s.msg.toList) (s.dglen + 512))

/-- DGFINAL n (R308). -/
def execDgfinal (n : BitVec 6) (s : State) : Result :=
  let l := totalBits s.dglen n
  complete (s.setDigest (finalHash s.h s.msg n l) l)

end Sys2Proof.Machine
end

