-- ==== Sys2Proof/Machine/Permutation.lean ====
section
/-! DEFINITION. The bit-permutation engine (spec/40_permutation.md): `permute` (R201) and the five commands that apply it
(R210 to R214). -/
namespace Sys2Proof.Machine

/-- The bit at position `p` of a w-bit field, position 1 the most significant (00_scope R11); a position past the
width reads as 0 (R201). Position 0 is in no well-formed table (R207 item 3). -/
def bitAtPosition {w : Nat} (x : BitVec w) (p : Nat) : Bool :=
  if 1 ≤ p ∧ p ≤ w then x.getLsbD (w - p) else false

/-- `permute(x, T, w)` (R201): output bit i from the most significant end is the bit at position `T[i]` of the input
field, which is `x`'s own w bits; `n` is the length of `T`, the width of the output. -/
def permute {w : Nat} (n : Nat) (x : BitVec w) (t : List Nat) : BitVec n :=
  BitVec.ofNat n (t.foldl (fun acc p => 2 * acc + (bitAtPosition x p).toNat) 0)

/-- `DOUT ← v`. -/
def State.setDout (s : State) (v : Block) : State := { s with dout := v }

/-- PIP (R210). -/
def execPip (s : State) : Result :=
  complete (s.setDout (permute 64 s.din s.cfg.raw.tableIP))

/-- PFP (R211). -/
def execPfp (s : State) : Result :=
  complete (s.setDout (permute 64 s.din s.cfg.raw.tableFP))

/-- PEXP (R212). -/
def execPexp (s : State) : Result :=
  complete (s.setDout ((permute 48 s.dinLow32 s.cfg.raw.tableE).setWidth 64))

/-- PPERM (R213). -/
def execPperm (s : State) : Result :=
  complete (s.setDout ((permute 32 s.dinLow32 s.cfg.raw.tableP).setWidth 64))

/-- PPC2 (R214). -/
def execPpc2 (s : State) : Result :=
  complete (s.setDout ((permute 48 s.dinLow56 s.cfg.raw.tablePC2).setWidth 64))

end Sys2Proof.Machine
end

