-- ==== Sys2Proof/Machine/KeySchedule.lean ====
section
/-! DEFINITION. The key-schedule engine (spec/41_key_schedule.md): the halves (R231), `subkeys` (R232) and KSGEN (R233). -/
namespace Sys2Proof.Machine

/-- C0 and D0 of a key, under either reading of "29..56" (R231, 90_conflicts C1). -/
def keyHalves (k : KsExtract) (key : Block) : KeyHalf × KeyHalf :=
  match k with
  | .low56 => (key.extractLsb' 28 28, key.extractLsb' 0 28)
  | .high56 => (key.extractLsb' 36 28, key.extractLsb' 8 28)

/-- The subkeys of the rounds whose shifts are listed, from the halves the rounds before left: the rotations
accumulate, and C is the more significant half (R232). -/
def subkeyList (pc2 : List Nat) : List Nat → KeyHalf → KeyHalf → List Subkey
  | [], _, _ => []
  | n :: ns, c, d => permute 48 (rotl c n ++ rotl d n) pc2 :: subkeyList pc2 ns (rotl c n) (rotl d n)

/-- One subkey for each shift. -/
theorem subkeyList_length (pc2 ns : List Nat) (c d : KeyHalf) : (subkeyList pc2 ns c d).length = ns.length := by
  induction ns generalizing c d with
  | nil => rfl
  | cons n ns ih => simp [subkeyList, ih]

/-- `subkeys(key)`, round 0 first (R232). -/
def subkeys (cfg : Config) (key : Block) : Vector Subkey 16 :=
  let halves := keyHalves cfg.raw.ksExtract key
  ⟨(subkeyList cfg.raw.tablePC2 Config.shifts halves.1 halves.2).toArray, by simp [subkeyList_length, Config.shifts]⟩

/-- `SK[0..15] ← k`. -/
def State.setSk (s : State) (k : Vector Subkey 16) : State := { s with sk := k }

/-- KSGEN (R233). -/
def execKsgen (s : State) : Result := complete (s.setSk (subkeys s.cfg s.key))

end Sys2Proof.Machine
end

