-- ==== Sys2Proof/Machine/Feistel.lean ====
section
/-! DEFINITION. The Feistel cipher core (spec/42_feistel.md): `S` (R260, R261), `F` (R262), the rounds (R263),
`processBlock` (R264) and the commands SBOX, ROUNDF, ENC and DEC (R266 to R269). -/
namespace Sys2Proof.Machine

/-- Group g of the input, six bits, group 0 the most significant (R261). -/
def sboxGroup (x : Subkey) (g : Nat) : BitVec 6 := x.extractLsb' (42 - 6 * g) 6

/-- The row, the outer two bits: "computed but" the table has one row, so nothing reads it (R260, R261). -/
def sboxRowOf (six : BitVec 6) : BitVec 2 := six.extractLsb' 5 1 ++ six.extractLsb' 0 1

/-- The column, the middle four bits (R261). -/
def sboxColOf (six : BitVec 6) : BitVec 4 := six.extractLsb' 1 4

/-- The entry a group selects in the single row: its column alone decides (R260, R261). -/
def sboxEntry (row : Vector (BitVec 4) 16) (six : BitVec 6) : BitVec 4 :=
  row[(sboxColOf six).toNat]'(sboxColOf six).isLt

/-- `S(x)` (R261): eight nibbles, group 0's the most significant. -/
def sboxAll (row : Vector (BitVec 4) 16) (x : Subkey) : Word :=
  sboxEntry row (sboxGroup x 0) ++ sboxEntry row (sboxGroup x 1) ++ sboxEntry row (sboxGroup x 2) ++
  sboxEntry row (sboxGroup x 3) ++ sboxEntry row (sboxGroup x 4) ++ sboxEntry row (sboxGroup x 5) ++
  sboxEntry row (sboxGroup x 6) ++ sboxEntry row (sboxGroup x 7)

/-- `F(r, k)` (R262). -/
def roundF (cfg : Config) (r : Word) (k : Subkey) : Word :=
  permute 32 (sboxAll cfg.raw.sboxRow (permute 48 r cfg.raw.tableE ^^^ k)) cfg.raw.tableP

/-- One round: `(L, R)` to `(R, L ⊕ F(R, k))` (R263). -/
def feistelRound (cfg : Config) (lr : Word × Word) (k : Subkey) : Word × Word :=
  (lr.2, lr.1 ^^^ roundF cfg lr.2 k)

/-- The two directions of R264. -/
inductive Direction where
  | encrypt
  | decrypt
deriving DecidableEq, Repr

/-- The subkeys in the order the rounds take them: K[i], or K[15 − i] (R264). -/
def roundKeys (k : Vector Subkey 16) : Direction → List Subkey
  | .encrypt => k.toList
  | .decrypt => k.toList.reverse

/-- `processBlock(b, K, dir)` (R264); the halves are swapped before the final permutation. -/
def processBlock (cfg : Config) (b : Block) (k : Vector Subkey 16) (dir : Direction) : Block :=
  let x := permute 64 b cfg.raw.tableIP
  let lr := (roundKeys k dir).foldl (feistelRound cfg) (hi32 x, lo32 x)
  permute 64 (join64 lr.2 lr.1) cfg.raw.tableFP

/-- SBOX (R266). -/
def execSbox (s : State) : Result :=
  complete (s.setDout ((sboxAll s.cfg.raw.sboxRow s.dinLow48).setWidth 64))

/-- ROUNDF (R267). -/
def execRoundf (s : State) : Result :=
  complete (s.setDout ((roundF s.cfg s.dinLow32 s.keyLow48).setWidth 64))

/-- ENC (R268). -/
def execEnc (s : State) : Result :=
  let k := subkeys s.cfg s.key
  complete ((s.setSk k).setDout (processBlock s.cfg s.din k .encrypt))

/-- DEC (R269): SK holds the subkeys in encryption order after it too. -/
def execDec (s : State) : Result :=
  let k := subkeys s.cfg s.key
  complete ((s.setSk k).setDout (processBlock s.cfg s.din k .decrypt))

end Sys2Proof.Machine
end

