-- ==== Sys2Proof/Machine/Modular.lean ====
section
/-! DEFINITION. The modular unit (spec/44_modexp.md): MODEXP (R341) and MODMUL (R342) over exact integers (R344). -/
namespace Sys2Proof.Machine

/-- `b^e mod m` by square-and-multiply (R341: "Uses square-and-multiply"), for an exponent of at most `bits` bits. The
order of the operations cannot be observed (R341); that the value is the exact `b^e mod m` is a statement of its own
(log 11). -/
def powModBits : Nat → Nat → Nat → Nat → Nat
  | 0, _, _, m => 1 % m
  | bits + 1, b, e, m =>
    let rest := powModBits bits (b * b % m) (e / 2) m
    if e % 2 = 1 then b * rest % m else rest

/-- `b^e mod m`. -/
def powMod (b e m : Nat) : Nat := powModBits (e.log2 + 1) b e m

/-- `RES ← zext_MXW(v)` (10_state R35). -/
def State.setRes (s : State) (v : Nat) : State := { s with res := wordsOfNat s.cfg.words v }

/-- MODEXP (R341): MOD_ZERO where M = 0 (R343), else the base is reduced first, a negative one too. -/
def execModexp (sb : Bool) (s : State) : Result :=
  if s.operandM = 0 then completeError .modZero s
  else complete (s.setRes (powMod (modInt (s.operandA sb) s.operandM) s.operandB s.operandM))

/-- MODMUL (R342): MOD_ZERO where M = 0, else the exact product of the reduced operands, reduced. -/
def execModmul (sb : Bool) (s : State) : Result :=
  if s.operandM = 0 then completeError .modZero s
  else complete (s.setRes (modInt (s.operandA sb) s.operandM * (s.operandB % s.operandM) % s.operandM))

end Sys2Proof.Machine
end

