-- ==== Sys2Proof/Machine/Dispatch.lean ====
section
/-! DEFINITION. One arm per command: `exec i s` is the engine's completion of `i` (spec/45_control.md R385). -/
namespace Sys2Proof.Machine

def exec (i : Instr) (s : State) : Host.Outcome State Fault Refusal :=
  match i with
  | .nop => Sys2Proof.Machine.execNop s
  | .pip => Sys2Proof.Machine.execPip s
  | .pfp => Sys2Proof.Machine.execPfp s
  | .pexp => Sys2Proof.Machine.execPexp s
  | .pperm => Sys2Proof.Machine.execPperm s
  | .ppc2 => Sys2Proof.Machine.execPpc2 s
  | .sbox => Sys2Proof.Machine.execSbox s
  | .roundf => Sys2Proof.Machine.execRoundf s
  | .ksgen => Sys2Proof.Machine.execKsgen s
  | .enc => Sys2Proof.Machine.execEnc s
  | .dec => Sys2Proof.Machine.execDec s
  | .dginit => Sys2Proof.Machine.execDginit s
  | .dgblock => Sys2Proof.Machine.execDgblock s
  | .dgfinal n => Sys2Proof.Machine.execDgfinal n s
  | .modexp sb => Sys2Proof.Machine.execModexp sb s
  | .modmul sb => Sys2Proof.Machine.execModmul sb s

end Sys2Proof.Machine
end

