-- ==== Sys2Proof/Machine/Engine.lean ====
section
/-! DEFINITION. The steps of spec/45_control.md R386: the engine's completion of the pending command, a host access, a
hardware reset; and a sequence of them. -/
namespace Sys2Proof.Machine

/-- `EngineStep` (R385): the command PEND selects, run on the state as it is now. Where PEND is empty the step is not
enabled (R386) and the turn passes (log 2). -/
def engineStep (s : State) : Result :=
  match s.pend with
  | none => .next s
  | some w =>
    match decode w with
    | .ok i => exec i s
    | .error _ => .refused .illegalPend

/-- One step of R386. An access R82 does not admit is refused. -/
def applyEvent (e : Event) (s : State) : Result :=
  match e with
  | .write off size v => if accessOk off size then .next (busWrite off v s) else .refused .unadmittedAccess
  | .read off size => if accessOk off size then .next (busRead off s) else .refused .unadmittedAccess
  | .engine => engineStep s
  | .hardReset => .next (resetCore s)

/-- Steps in order, up to the first that has no meaning. -/
def runEvents : List Event → State → Result
  | [], s => .next s
  | e :: es, s =>
    match applyEvent e s with
    | .next t => runEvents es t
    | .fault r => .fault r
    | .refused r => .refused r

/-- The step relation of R386 on the core's state alone, the configuration its parameter (00_scope R6, 10_state R30): from
`x` the step `e` leads to `y` in some machine round `x`. -/
def CoreStep (c : Config) (e : Event) (x y : CoreState) : Prop :=
  ∃ s t : State, s.cfg = c ∧ s.core = x ∧ applyEvent e s = .next t ∧ t.core = y

end Sys2Proof.Machine
end

