-- ==== Sys2Proof/Machine/Step.lean ====
section
/-! DEFINITION. The step: the next of the steps to come (spec/45_control.md R386, in the order R91 gives them), and, where none is
left, the engine's, by weak fairness (70_reset R459, R461: "one more EngineStep is owed"); an idle core with no step to
come rests (60_exceptions R417). -/
namespace Sys2Proof.Machine

/-- One step of the machine (log 2). -/
def step (s : State) : Host.Outcome State Fault Refusal :=
  match s.script with
  | [] => engineStep s
  | e :: es => applyEvent e { s with script := es }

/-- `s` with the command word `w` where the engine takes its next command: in PEND, and in CMD, which holds the word
issued last (R384), with no other step before the engine's (log 12). -/
def State.withFetchWord (s : State) (nbits w : Nat) : State :=
  let v := BitVec.ofNat 32 (w % 2 ^ nbits)
  { s with cmd := v, pend := some v, script := [] }

end Sys2Proof.Machine
end

