-- ==== Sys2Proof/Machine/HostProgram.lean ====
section
/-! DEFINITION. Host programs and host procedures: the statements of spec/30_encoding.md R128 and R129, run one bus access at a
time with the engine's turns between them, and the procedures that bind host software (42_feistel R270 to R272, 43_digest
R310, 44_modexp R345), each a sequence of the calls of 45_control R387. A host procedure is no part of the core (00_scope
R4). -/
namespace Sys2Proof.Machine

/-- The 64-bit registers a host names whole (R129). -/
inductive Reg64 where
  | key
  | din
  | dout
  | dglen
  | sk (i : Fin 16)
deriving DecidableEq, Repr

/-- The `_HI` word of a 64-bit register. -/
def Reg64.hi : Reg64 → Reg
  | .key => .keyHi
  | .din => .dinHi
  | .dout => .doutHi
  | .dglen => .dglenHi
  | .sk i => .skHi i

/-- The `_LO` word of a 64-bit register. -/
def Reg64.lo : Reg64 → Reg
  | .key => .keyLo
  | .din => .dinLo
  | .dout => .doutLo
  | .dglen => .dglenLo
  | .sk i => .skLo i

/-- The MXW-bit registers (R129). -/
inductive BigReg where
  | opa
  | opb
  | mod
  | res
deriving DecidableEq, Repr

/-- The offset of word `j` (20_memory R81). -/
def BigReg.wordOffset (r : BigReg) (j : Nat) : Offset :=
  match r with
  | .opa => BitVec.ofNat 12 (0x200 + 4 * j)
  | .opb => BitVec.ofNat 12 (0x400 + 4 * j)
  | .mod => BitVec.ofNat 12 (0x600 + 4 * j)
  | .res => BitVec.ofNat 12 (0x800 + 4 * j)

/-- A statement of a host program. `WR` and `RD` take the offset of a register name (`offsetOf`) or a hexadecimal
offset (R128); the rest are R129's. -/
inductive Stmt where
  | wr (off : Offset) (imm : Word)
  | rd (off : Offset)
  | cmd (i : Instr)
  | wait
  | wr64 (r : Reg64) (imm : Block)
  | rd64 (r : Reg64)
  | wrbig (r : BigReg) (imm : Nat)
  | rdbig (r : BigReg)
  | wrmsg (bytes : List Byte)
  | clr
deriving DecidableEq, Repr

/-- The bounds R128 and R129 put on a statement's operands. -/
def Stmt.wf (c : Config) : Stmt → Bool
  | .wr off _ => accessOk off 4
  | .rd off => accessOk off 4
  | .wr64 r _ => r == .key || r == .din
  | .wrbig r imm => r != .res && decide (imm < 2 ^ c.raw.mxw)
  | .wrmsg bytes => decide (bytes.length ≤ 64)
  | _ => true

/-- `BusWrite` of one word. -/
def busW (off : Offset) (v : Word) : Event := .write off 4 v

/-- `BusRead` of one word. -/
def busR (off : Offset) : Event := .read off 4

/-- The `WR`s of a statement's expansion (R128, R129). -/
def Stmt.writes (c : Config) : Stmt → List (Offset × Word)
  | .wr off imm => [(off, imm)]
  | .cmd i => [(offsetOf .cmd, encode i)]
  | .wr64 r imm => [(offsetOf r.hi, hi32 imm), (offsetOf r.lo, lo32 imm)]
  | .wrbig r imm => (List.range c.words).map fun j => (r.wordOffset j, BitVec.ofNat 32 (imm / 2 ^ (32 * j)))
  | .wrmsg bytes => (List.range 16).map fun j => (offsetOf (.msg (Fin.ofNat 16 j)), wordOfBytes bytes j)
  | .clr => [(offsetOf .status, 0x00000006)]
  | _ => []

/-- The `RD`s of a statement's expansion (R128, R129), but for `WAIT`'s, whose number the run decides. -/
def Stmt.reads (c : Config) : Stmt → List Offset
  | .rd off => [off]
  | .rd64 r => [offsetOf r.hi, offsetOf r.lo]
  | .rdbig r => (List.range c.words).map fun j => r.wordOffset j
  | _ => []

/-- How a host procedure fails. -/
inductive HostError where
  /-- 60_exceptions R418, 42_feistel R272. -/
  | invalidKey
  /-- 60_exceptions R418, 42_feistel R271. -/
  | invalidCiphertext
  /-- A statement breaks the bounds of 30_encoding R128, R129: a value of 2^MXW or more in WRBIG, say. -/
  | illFormed
  /-- A text with a character that is not ASCII: a host model refuses it (93_implementation_defined §1). -/
  | notAscii
  /-- STATUS.ERR was 1 after the wait, with this ECODE (45_control R387). -/
  | core (code : BitVec 4)
  /-- A `WAIT` that loops for ever: weak fairness excludes it (70_reset R461), and no `WAIT` here ends so (log 13). -/
  | unfair
  /-- A step of the core has no meaning. -/
  | refused
deriving DecidableEq, Repr

/-! ## A run (70_reset R461): accesses of the host with the engine's turns between them -/

/-- A host program in progress. -/
structure HostRun where
  state : State
  /-- For each access to come, whether the engine has its turn before it. Past the end of the list it has: the weak
  fairness of 45_control R386 (log 13). -/
  turns : List Bool
  /-- The steps made so far, oldest first. -/
  trace : List Event
deriving DecidableEq, Repr

/-- One step of R386. -/
def HostRun.apply (e : Event) (r : HostRun) : Except HostError HostRun :=
  match applyEvent e r.state with
  | .next t => .ok { r with state := t, trace := r.trace ++ [e] }
  | .fault _ => .error .refused
  | .refused _ => .error .refused

/-- The engine's turn before an access, where it has one. -/
def HostRun.turn (r : HostRun) : Except HostError HostRun :=
  match r.turns with
  | [] => r.apply .engine
  | true :: bs => HostRun.apply .engine { r with turns := bs }
  | false :: bs => .ok { r with turns := bs }

/-- `WR`. -/
def HostRun.write (off : Offset) (v : Word) (r : HostRun) : Except HostError HostRun := do
  let q ← r.turn
  q.apply (busW off v)

/-- `RD`, and the word it returns. -/
def HostRun.read (off : Offset) (r : HostRun) : Except HostError (HostRun × Word) := do
  let q ← r.turn
  let t ← q.apply (busR off)
  return (t, busReadValue off q.state)

/-- `WR`s in order. -/
def HostRun.writeAll : List (Offset × Word) → HostRun → Except HostError HostRun
  | [], r => .ok r
  | (off, v) :: ws, r => do
    let q ← r.write off v
    q.writeAll ws

/-- `RD`s in order, and the words they return, each as it stood at its own read. -/
def HostRun.readAll : List Offset → HostRun → Except HostError (HostRun × List Word)
  | [], r => .ok (r, [])
  | off :: offs, r => do
    let (q, w) ← r.read off
    let (t, ws) ← q.readAll offs
    return (t, w :: ws)

/-- `loop: RD STATUS; if bit 0 of the value is 1, go to loop` (R129), at most n times round. -/
def HostRun.waitLoop : Nat → HostRun → Except HostError (HostRun × Word)
  | 0, _ => .error .unfair
  | n + 1, r => do
    let (q, v) ← r.read (offsetOf .status)
    if v.getLsbD 0 then q.waitLoop n else return (q, v)

/-- `WAIT`, and the value of STATUS that ended it. The engine has its turn before the read that follows the last entry
of `turns`, so that read ends the loop at the latest. -/
def HostRun.wait (r : HostRun) : Except HostError (HostRun × Word) := r.waitLoop (r.turns.length + 1)

/-- A statement, and the words its `RD`s returned; of a `WAIT`, the last. -/
def Stmt.run (st : Stmt) (r : HostRun) : Except HostError (HostRun × List Word) :=
  if st = .wait then do
    let (q, v) ← r.wait
    return (q, [v])
  else do
    let q ← r.writeAll (st.writes r.state.cfg)
    q.readAll (st.reads r.state.cfg)

/-- Statements in order, and the words each returned. -/
def runStmts : List Stmt → HostRun → Except HostError (HostRun × List (List Word))
  | [], r => .ok (r, [])
  | st :: p, r => do
    let (q, ws) ← st.run r
    let (t, vs) ← runStmts p q
    return (t, ws :: vs)

/-- A host program: one with a statement outside its bounds is refused whole. -/
def runProgram (p : List Stmt) (r : HostRun) : Except HostError (HostRun × List (List Word)) :=
  if p.all (Stmt.wf r.state.cfg) then runStmts p r else .error .illFormed

/-- A run to its end (70_reset R461): where PEND is not empty after the last statement, the engine's step that is owed. -/
def runToEnd (p : List Stmt) (turns : List Bool) (s : State) : Except HostError (HostRun × List (List Word)) := do
  let (q, vs) ← runProgram p ⟨s, turns, []⟩
  let t ← q.apply .engine
  return (t, vs)

/-- The value of an `RD64`'s two words (R129). -/
def rd64Value : List Word → Block
  | [hi, lo] => join64 hi lo
  | _ => 0

/-- The value of an `RDBIG`'s words: `Σ word[j]·2^(32j)` (R129). -/
def rdbigValue (ws : List Word) : Nat := natOfWords ws

/-! ## Host procedures -/

/-- A call of the source as 45_control R387 writes it: the operands, the command, the wait, the check of STATUS.ERR.
STATUS is cleared first (70_reset R456), before the operands, so that an OVERRUN of one of them is seen too (log 17). -/
def hostCall (operands : List Stmt) (i : Instr) (r : HostRun) : Except HostError HostRun := do
  let (q, _) ← runProgram (.clr :: operands ++ [.cmd i]) r
  let (t, v) ← q.wait
  if v.getLsbD 2 then .error (.core (v.extractLsb' 4 4)) else return t

/-- The bytes of a text: one byte per ASCII character; another text is refused (42_feistel R272, 91 N10). -/
def bytesOfText (text : String) : Except HostError (List Byte) :=
  text.toList.mapM fun ch => if ch.toNat < 128 then .ok (BitVec.ofNat 8 ch.toNat) else .error .notAscii

/-- Key normalisation of bytes (42_feistel R272): the first eight, zero bytes where there are fewer; an empty key is
InvalidKey. -/
def normaliseKey (k : List Byte) : Except HostError Block :=
  if k = [] then .error .invalidKey else .ok (join64 (wordOfBytes (k.take 8) 0) (wordOfBytes (k.take 8) 1))

/-- Key normalisation of a key string (R272). -/
def keyOfText (text : String) : Except HostError Block := do
  let k ← bytesOfText text
  normaliseKey k

/-- `WR64 KEY; WR64 DIN; CMD; WAIT; RD64 DOUT` (R270, R387). -/
def cipherBlock (i : Instr) (key b : Block) (r : HostRun) : Except HostError (HostRun × Block) := do
  let q ← hostCall [.wr64 .key key, .wr64 .din b] i r
  let (t, ws) ← Stmt.run (.rd64 .dout) q
  return (t, rd64Value ws)

/-- Blocks in order, each independent of the others (R270: "no chaining"). -/
def cipherBlocks (i : Instr) (key : Block) : List Block → HostRun → Except HostError (HostRun × List Byte)
  | [], r => .ok (r, [])
  | b :: bs, r => do
    let (q, o) ← cipherBlock i key b r
    let (t, os) ← cipherBlocks i key bs q
    return (t, bytesOfBlock o ++ os)

/-- The pad of R270: n bytes of value n, n = 8 − (len mod 8). -/
def padPayload (p : List Byte) : List Byte :=
  p ++ List.replicate (8 - p.length % 8) (BitVec.ofNat 8 (8 - p.length % 8))

/-- The eight-byte blocks of a byte string, byte 0 most significant (20_memory R86); bytes past the last whole block
are dropped. -/
def blocksOf : List Byte → List Block
  | b0 :: b1 :: b2 :: b3 :: b4 :: b5 :: b6 :: b7 :: rest =>
    (b0 ++ b1 ++ b2 ++ b3 ++ b4 ++ b5 ++ b6 ++ b7 : BitVec 64) :: blocksOf rest
  | _ => []

/-- Encode (R270). -/
def encodePayload (key : Block) (payload : List Byte) (r : HostRun) : Except HostError (HostRun × List Byte) :=
  cipherBlocks .enc key (blocksOf (padPayload payload)) r

/-- The end of Decode (R271): only the last byte is read; an unfit one leaves the bytes as they are. -/
def stripPad (out : List Byte) : List Byte :=
  match out.getLast? with
  | none => out
  | some n => if 1 ≤ n.toNat ∧ n.toNat ≤ 8 then out.take (out.length - n.toNat) else out

/-- Decode (R271). -/
def decodePayload (key : Block) (ct : List Byte) (r : HostRun) : Except HostError (HostRun × List Byte) :=
  if ct.length % 8 ≠ 0 then .error .invalidCiphertext
  else do
    let (q, out) ← cipherBlocks .dec key (blocksOf ct) r
    return (q, stripPad out)

/-- The whole blocks of 43_digest R310, `n` of them. -/
def absorbBlocks : Nat → List Byte → HostRun → Except HostError HostRun
  | 0, _, r => .ok r
  | n + 1, m, r => do
    let q ← hostCall [.wrmsg (m.take 64)] .dgblock r
    absorbBlocks n (m.drop 64) q

/-- The digest of a byte string (R310): the value is `H[0] ‖ … ‖ H[4]` (R309). -/
def hostDigest (m : List Byte) (r : HostRun) : Except HostError (HostRun × Nat) := do
  let q1 ← hostCall [] .dginit r
  let q2 ← absorbBlocks (m.length / 64) m q1
  let tail := m.drop (64 * (m.length / 64))
  let q3 ← hostCall [.wrmsg tail] (.dgfinal (BitVec.ofNat 6 (m.length % 64))) q2
  let (q4, hs) ← q3.readAll ((List.finRange 5).map fun j => offsetOf (.h j))
  return (q4, hs.foldl (fun acc w => 2 ^ 32 * acc + w.toNat) 0)

/-- One command of the modular unit: OPA, OPB and, where it is to change, MOD written, and RES read back (44_modexp
R345). -/
def modularOp (i : Instr) (a b : Nat) (m : Option Nat) (r : HostRun) : Except HostError (HostRun × Nat) := do
  let wrMod := match m with
    | some v => [Stmt.wrbig .mod v]
    | none => []
  let q ← hostCall ([.wrbig .opa a, .wrbig .opb b] ++ wrMod) i r
  let (t, ws) ← Stmt.run (.rdbig .res) q
  return (t, rdbigValue ws)

/-- The verdicts of Verify. -/
inductive Verdict where
  | accept
  | reject
deriving DecidableEq, Repr

/-- What Verify writes to OPA for `y`: `y` itself where WRBIG takes it, and `y mod p`, of the same powers modulo `p`, where it
is negative or has more than MXW bits. DESIGN CHOICE (log 19). -/
def verifyBase (c : Config) (p y : Int) : Nat := if 0 ≤ y ∧ y.toNat < 2 ^ c.raw.mxw then y.toNat else (y % p).toNat

/-- Verify (R345), its arguments "unbounded integers held by the host". A signature out of range is a verdict, not an error;
a key outside `p > 2, 1 < g < p` is InvalidKey (60_exceptions R418). Neither uses the core. The range comes first, as in the
procedure's text (log 18). -/
def verify (msg : List Byte) (r sg p g y : Int) (run : HostRun) : Except HostError (HostRun × Verdict) :=
  if r ≤ 0 ∨ r ≥ p ∨ sg < 0 ∨ sg ≥ p - 1 then .ok (run, .reject)
  else if ¬ (2 < p ∧ 1 < g ∧ g < p) then .error .invalidKey
  else do
    let (q1, dg) ← hostDigest msg run
    let (q2, h0) ← modularOp (.modexp false) dg 1 (some (p - 1).toNat) q1
    let h := if h0 = 0 then 1 else h0
    let (q3, lhs) ← modularOp (.modexp false) g.toNat h (some p.toNat) q2
    let (q4, t1) ← modularOp (.modexp false) (verifyBase run.state.cfg p y) r.toNat none q3
    let (q5, t2) ← modularOp (.modexp false) r.toNat sg.toNat none q4
    let (q6, rhs) ← modularOp (.modmul false) t1 t2 none q5
    return (q6, if lhs = rhs then .accept else .reject)

end Sys2Proof.Machine
end

