-- ==== Sys2Proof/Safety.lean ====
section
/-! DEFINITION. The terms the claims use: the invariant of the state, the end of a run, and what an access may change. -/
namespace Sys2Proof.Machine

/-- What holds of every state the rules give a meaning: the wide registers have MXW/32 words (spec/10_state.md R35); CMD
holds a legal word (R40), and a pending command is the one CMD holds (45_control R384); ECODE is one of the codes of
60_exceptions R402 while ERR is 1 and 0 while it is 0 (10_state R39). -/
structure State.Inv (s : State) : Prop where
  opaLen  : s.opa.length = s.cfg.words
  opbLen  : s.opb.length = s.cfg.words
  modLen  : s.mod.length = s.cfg.words
  resLen  : s.res.length = s.cfg.words
  cmdOk   : legal s.cmd = true
  pendOk  : ∀ w, s.pend = some w → w = s.cmd
  codeOk  : if s.err then s.ecode = 1 ∨ s.ecode = 2 ∨ s.ecode = 3 else s.ecode = 0

/-- The end of a run (70_reset R461): no step of the host to come, and PEND empty. -/
def State.ended (s : State) : Prop := s.script = [] ∧ s.pend = none

/-- A step of the host that leaves the core running: a read, or a write other than a soft reset
(45_control R381). -/
def Event.hostNoReset (c : Config) : Event → Bool
  | .write off _ v => !(regAt c off == .ctrl && v.getLsbD 1)
  | .read _ _ => true
  | .engine => false
  | .hardReset => false

/-- An access 20_memory R82 admits; the engine's turn and a reset always are. -/
def Event.admitted : Event → Bool
  | .write off size _ => accessOk off size
  | .read off size => accessOk off size
  | .engine => true
  | .hardReset => true

/-- The result registers of 10_state R34 agree. -/
def State.sameResults (s t : State) : Prop :=
  t.dout = s.dout ∧ t.sk = s.sk ∧ t.h = s.h ∧ t.dglen = s.dglen ∧ t.res = s.res

/-- The operand registers of 10_state R33 agree. -/
def State.sameOperands (s t : State) : Prop :=
  t.key = s.key ∧ t.din = s.din ∧ t.msg = s.msg ∧ t.opa = s.opa ∧ t.opb = s.opb ∧ t.mod = s.mod

/-- The statements of a host program that write operand registers and nothing else (30_encoding R129). -/
def Stmt.writesOperands : Stmt → Bool
  | .wr64 _ _ | .wrbig _ _ | .wrmsg _ => true
  | _ => false

/-- The accesses of a statement other than `WAIT`, in order (30_encoding R128, R129). -/
def Stmt.accesses (c : Config) (st : Stmt) : List Event :=
  (st.writes c).map (fun w => busW w.1 w.2) ++ (st.reads c).map busR

end Sys2Proof.Machine
end

