-- ==== Sys2Proof/Certificates/Slice0/Obligations.lean ====
section
/-! DEFINITION. The statements for the provers. The first part writes the spec's formulas down again, bit by bit or as
recurrences, without the model's functions (namespace Claim); the second states what the commands, the bus and the step do
in those terms. -/

namespace Sys2Proof.Claim
open Sys2Proof Sys2Proof.Machine

/-- spec/40_permutation.md R201: output bit i from the most significant end is the input bit at position `T[i]`, counted
from 1 at the most significant end of the w-bit field; a position past the width gives 0. -/
def IsPermuted {w n : Nat} (x : BitVec w) (t : List Nat) (y : BitVec n) : Prop :=
  ∀ i, i < n → y.getLsbD (n - 1 - i) =
    if 1 ≤ t.getD i 0 ∧ t.getD i 0 ≤ w then x.getLsbD (w - t.getD i 0) else false

/-- 42_feistel R261: group g is bits 47−6g to 42−6g; its middle four bits index the row; nibble g is bits 31−4g to
28−4g. -/
def IsSubstituted (row : Vector (BitVec 4) 16) (x : Subkey) (y : Word) : Prop :=
  ∀ g, g < 8 → y.extractLsb' (28 - 4 * g) 4 = row.toList.getD (x.extractLsb' (43 - 6 * g) 4).toNat 0

/-- 42_feistel R262: `F(r, k) = permute(S(permute(r, TABLE_E, 32) ⊕ k), TABLE_P, 32)`. -/
def IsRoundF (c : Config) (r : Word) (k : Subkey) (f : Word) : Prop :=
  ∃ (e : Subkey) (y : Word), IsPermuted r c.raw.tableE e ∧ IsSubstituted c.raw.sboxRow (e ^^^ k) y ∧
    IsPermuted y c.raw.tableP f

/-- 41_key_schedule R230. -/
def shiftTable : List Nat := [1, 1, 2, 2, 2, 2, 2, 2, 1, 2, 2, 2, 2, 2, 2, 1]

/-- 41_key_schedule R231. -/
def IsHalves (k : KsExtract) (key : Block) (c d : KeyHalf) : Prop :=
  match k with
  | .low56 => c = key.extractLsb' 28 28 ∧ d = key.extractLsb' 0 28
  | .high56 => c = key.extractLsb' 36 28 ∧ d = key.extractLsb' 8 28

/-- 41_key_schedule R232: each round rotates the halves the round before left, and its subkey is `C ‖ D` through
TABLE_PC2. -/
def IsSubkeys (cfg : Config) (key : Block) (sk : Vector Subkey 16) : Prop :=
  ∃ c d : Nat → KeyHalf, IsHalves cfg.raw.ksExtract key (c 0) (d 0) ∧
    ∀ i : Fin 16, c (i + 1) = (c i).rotateLeft (shiftTable.getD i 0) ∧
      d (i + 1) = (d i).rotateLeft (shiftTable.getD i 0) ∧
      IsPermuted (c (i + 1) ++ d (i + 1)) cfg.raw.tablePC2 sk[i]

/-- 42_feistel R263 and R264, for the subkeys in the order the rounds take them. -/
def IsProcessed (cfg : Config) (b : Block) (k : Fin 16 → Subkey) (out : Block) : Prop :=
  ∃ (x y : Block) (l r : Nat → Word), IsPermuted b cfg.raw.tableIP x ∧
    l 0 = x.extractLsb' 32 32 ∧ r 0 = x.extractLsb' 0 32 ∧
    (∀ i : Fin 16, l (i + 1) = r i ∧ ∃ f, IsRoundF cfg (r i) (k i) f ∧ r (i + 1) = l i ^^^ f) ∧
    y.extractLsb' 32 32 = r 16 ∧ y.extractLsb' 0 32 = l 16 ∧ IsPermuted y cfg.raw.tableFP out

/-- 43_digest R303, the round functions. -/
def roundFunction (t : Nat) (b c d : Word) : Word :=
  match t / 20 with
  | 0 => (b &&& c) ||| (~~~b &&& d)
  | 1 => b ^^^ c ^^^ d
  | 2 => (b &&& c) ||| (b &&& d) ||| (c &&& d)
  | _ => b ^^^ c ^^^ d

/-- 43_digest R303, the constants. -/
def roundConstant (t : Nat) : Word :=
  match t / 20 with
  | 0 => 0x5A827999
  | 1 => 0x6ED9EBA1
  | 2 => 0x8F1BBCDC
  | _ => 0xCA62C1D6

/-- 43_digest R302 and R304: the schedule and the working registers as sequences. -/
def IsCompressed (h : Vector Word 5) (m : Nat → Word) (h' : Vector Word 5) : Prop :=
  ∃ w a b c d e : Nat → Word,
    (∀ j, j < 16 → w j = m j) ∧
    (∀ j, 16 ≤ j → j < 80 → w j = (w (j - 3) ^^^ w (j - 8) ^^^ w (j - 14) ^^^ w (j - 16)).rotateLeft 1) ∧
    (a 0 = h[0] ∧ b 0 = h[1] ∧ c 0 = h[2] ∧ d 0 = h[3] ∧ e 0 = h[4]) ∧
    (∀ t, t < 80 →
      a (t + 1) = (a t).rotateLeft 5 + roundFunction t (b t) (c t) (d t) + e t + roundConstant t + w t ∧
      b (t + 1) = a t ∧ c (t + 1) = (b t).rotateLeft 30 ∧ d (t + 1) = c t ∧ e (t + 1) = d t) ∧
    h' = #v[h[0] + a 80, h[1] + b 80, h[2] + c 80, h[3] + d 80, h[4] + e 80]

/-- 20_memory R86: byte k of the message block. -/
def messageByte (msg : Vector Word 16) (k : Nat) : Byte :=
  ((msg.toList.getD (k / 4) 0) >>> (24 - 8 * (k % 4))).setWidth 8

/-- 43_digest R305: word j of a block of bytes. -/
def blockWord (b : Nat → Byte) (j : Nat) : Word := b (4 * j) ++ b (4 * j + 1) ++ b (4 * j + 2) ++ b (4 * j + 3)

/-- Byte i of the length, most significant first (43_digest R308). -/
def lengthByte (l : Block) (i : Nat) : Byte := (l >>> (56 - 8 * i)).setWidth 8

/-- 43_digest R308: the block of a tail of n ≤ 55 bytes. -/
def onlyBlock (msg : Vector Word 16) (n : Nat) (l : Block) (k : Nat) : Byte :=
  if k < n then messageByte msg k else if k = n then 0x80 else if k < 56 then 0 else lengthByte l (k - 56)

/-- 43_digest R308: the first block of a tail of n ≥ 56 bytes. -/
def firstBlock (msg : Vector Word 16) (n : Nat) (k : Nat) : Byte :=
  if k < n then messageByte msg k else if k = n then 0x80 else 0

/-- 43_digest R308: the second block of a tail of n ≥ 56 bytes. -/
def secondBlock (l : Block) (k : Nat) : Byte := if k < 56 then 0 else lengthByte l (k - 56)

/-- 44_modexp R340: A. -/
def baseValue (s : State) (sb : Bool) : Int :=
  if sb = true ∧ 2 ^ (s.cfg.raw.mxw - 1) ≤ natOfWords s.opa then
    (natOfWords s.opa : Int) - (2 ^ s.cfg.raw.mxw : Nat)
  else (natOfWords s.opa : Int)

/-- 20_memory R81, R87: the offsets of the operand words. -/
def operandOffset (c : Config) (a : Nat) : Prop :=
  a = 0x020 ∨ a = 0x024 ∨ a = 0x028 ∨ a = 0x02C ∨ (0x100 ≤ a ∧ a < 0x140) ∨
  (0x200 ≤ a ∧ a < 0x200 + 4 * c.words) ∨ (0x400 ≤ a ∧ a < 0x400 + 4 * c.words) ∨
  (0x600 ≤ a ∧ a < 0x600 + 4 * c.words)

/-- 20_memory R81, R83: the reserved offsets. -/
def reservedOffset (c : Config) (a : Nat) : Prop :=
  (0x014 ≤ a ∧ a < 0x020) ∨ (0x038 ≤ a ∧ a < 0x040) ∨ (0x0D4 ≤ a ∧ a < 0x0D8) ∨ (0x0E0 ≤ a ∧ a < 0x100) ∨
  (0x140 ≤ a ∧ a < 0x200) ∨ (0x200 + 4 * c.words ≤ a ∧ a < 0x400) ∨ (0x400 + 4 * c.words ≤ a ∧ a < 0x600) ∨
  (0x600 + 4 * c.words ≤ a ∧ a < 0x800) ∨ (0x800 + 4 * c.words ≤ a ∧ a < 0x1000)

/-- 20_memory R84: ID, PARAM and the result words DOUT, SK, H, DGLEN and RES, which a host only reads. -/
def readOnlyOffset (c : Config) (a : Nat) : Prop :=
  a = 0x000 ∨ a = 0x004 ∨ a = 0x030 ∨ a = 0x034 ∨ (0x040 ≤ a ∧ a < 0x0D4) ∨ a = 0x0D8 ∨ a = 0x0DC ∨
  (0x800 ≤ a ∧ a < 0x800 + 4 * c.words)

/-- 40_permutation R207 and the range of MXW (00_scope R6). -/
def RawConfigMeetsR207 (c : RawConfig) : Prop :=
  c.tableIP.length = 64 ∧ c.tableFP.length = 64 ∧
  c.tableE.length = 48 ∧ c.tableP.length = 32 ∧ c.tablePC2.length = 48 ∧
  (∀ t ∈ [c.tableIP, c.tableFP, c.tableE, c.tableP, c.tablePC2], ∀ p ∈ t, 1 ≤ p) ∧
  c.tableIP.Perm (List.range' 1 64) ∧
  (∀ x y z : Block, IsPermuted x c.tableIP y → IsPermuted y c.tableFP z → z = x) ∧
  (32 ∣ c.mxw ∧ 160 ≤ c.mxw ∧ c.mxw ≤ 4096)

end Sys2Proof.Claim

open Sys2Proof Sys2Proof.Machine Sys2Proof.Claim

/-! ## Commands: result, frame and completion -/

/-- 45_control R380: NOP writes no register; on completion DONE is 1 and PEND empty, and nothing else differs. Its word is
legal: a write of it to CMD issues it or, while busy, raises OVERRUN. -/
def Obligations.NopOnlySetsDone : Prop :=
  decode 0x00000000 = .ok .nop ∧
  ∀ s : State, exec .nop s = .next { s with done := true, pend := none } ∧
    (s.pend = none → applyEvent (.write 0x010 4 0x00000000) s = .next { s with cmd := 0, pend := some 0 }) ∧
    (s.pend ≠ none → applyEvent (.write 0x010 4 0x00000000) s = .next { s with err := true, ecode := 3 })

/-- 40_permutation R210 and R211: PIP and PFP answer a next state that differs in DOUT, DONE and PEND alone, and every bit
of DOUT is the bit of DIN the table names. -/
def Obligations.PipAndPfpMoveBitsByTable : Prop :=
  decode 0x00000010 = .ok .pip ∧ decode 0x00000011 = .ok .pfp ∧
  ∀ s : State,
    (∃ d : Block, exec .pip s = .next { s with dout := d, done := true, pend := none } ∧
      IsPermuted s.din s.cfg.raw.tableIP d) ∧
    (∃ d : Block, exec .pfp s = .next { s with dout := d, done := true, pend := none } ∧
      IsPermuted s.din s.cfg.raw.tableFP d)

/-- 40_permutation R212 to R214: PEXP, PPERM and PPC2 read the low 32, 32 and 56 bits of DIN and write 48, 32 and 48 bits
of DOUT, the bits above being 0. -/
def Obligations.NarrowPermutationsMoveBitsByTable : Prop :=
  decode 0x00000012 = .ok .pexp ∧ decode 0x00000013 = .ok .pperm ∧ decode 0x00000014 = .ok .ppc2 ∧
  ∀ s : State,
    (∃ d : BitVec 48, exec .pexp s = .next { s with dout := d.setWidth 64, done := true, pend := none } ∧
      IsPermuted (s.din.extractLsb' 0 32) s.cfg.raw.tableE d) ∧
    (∃ d : BitVec 32, exec .pperm s = .next { s with dout := d.setWidth 64, done := true, pend := none } ∧
      IsPermuted (s.din.extractLsb' 0 32) s.cfg.raw.tableP d) ∧
    (∃ d : BitVec 48, exec .ppc2 s = .next { s with dout := d.setWidth 64, done := true, pend := none } ∧
      IsPermuted (s.din.extractLsb' 0 56) s.cfg.raw.tablePC2 d)

/-- 40_permutation R211, marked derived there: PFP undoes PIP and PIP undoes PFP, in every well-formed configuration. -/
def Obligations.PipAndPfpUndoEachOther : Prop :=
  ∀ s t u v w : State, exec .pip s = .next t → exec .pfp { t with din := t.dout } = .next u →
    exec .pfp s = .next v → exec .pip { v with din := v.dout } = .next w →
    u.dout = s.din ∧ w.dout = s.din

/-- 42_feistel R261 and R266: each nibble of DOUT[31:0] is the entry of the single row that the middle four bits of its
group select; DOUT[63:32] is 0. -/
def Obligations.SboxSubstitutesEachGroup : Prop :=
  decode 0x00000018 = .ok .sbox ∧
  ∀ s : State, ∃ y : Word, exec .sbox s = .next { s with dout := y.setWidth 64, done := true, pend := none } ∧
    IsSubstituted s.cfg.raw.sboxRow (s.din.extractLsb' 0 48) y

/-- 42_feistel R261, marked derived there: inputs that agree on the middle bits of the groups give the same output. -/
def Obligations.SboxIgnoresGroupEdgeBits : Prop :=
  ∀ s t s' t' : State, s.cfg = t.cfg → s.din &&& 0x79E79E79E79E = t.din &&& 0x79E79E79E79E →
    exec .sbox s = .next s' → exec .sbox t = .next t' → s'.dout = t'.dout

/-- 42_feistel R262 and R267: ROUNDF is F of DIN[31:0] and KEY[47:0]. -/
def Obligations.RoundfIsTheRoundFunction : Prop :=
  decode 0x00000019 = .ok .roundf ∧
  ∀ s : State, ∃ f : Word, exec .roundf s = .next { s with dout := f.setWidth 64, done := true, pend := none } ∧
    IsRoundF s.cfg (s.din.extractLsb' 0 32) (s.key.extractLsb' 0 48) f

/-- 41_key_schedule R230 to R233: KSGEN writes SK alone, by the recurrence of the halves under either reading of the key. -/
def Obligations.KsgenDerivesTheSubkeys : Prop :=
  decode 0x0000001A = .ok .ksgen ∧
  ∀ s : State, ∃ k : Vector Subkey 16, exec .ksgen s = .next { s with sk := k, done := true, pend := none } ∧
    IsSubkeys s.cfg s.key k

/-- 41_key_schedule R231, R234 and 42_feistel R268: the key byte the reading leaves out reaches no subkey and no block. -/
def Obligations.UnusedKeyByteReachesNothing : Prop :=
  ∀ (s : State) (key : Block) (i : Instr),
    (match s.cfg.raw.ksExtract with
      | .low56 => key.extractLsb' 0 56 = s.key.extractLsb' 0 56
      | .high56 => key.extractLsb' 8 56 = s.key.extractLsb' 8 56) →
    i = .ksgen ∨ i = .enc ∨ i = .dec →
    ∃ t : State, exec i s = .next t ∧ exec i { s with key := key } = .next { t with key := key }

/-- 42_feistel R263, R264 and R268: ENC writes SK and DOUT alone; DOUT is the sixteen rounds in encryption order. -/
def Obligations.EncRunsSixteenRounds : Prop :=
  decode 0x0000001C = .ok .enc ∧
  ∀ s : State, ∃ (k : Vector Subkey 16) (d : Block),
    exec .enc s = .next { s with sk := k, dout := d, done := true, pend := none } ∧
    IsSubkeys s.cfg s.key k ∧ IsProcessed s.cfg s.din (fun i => k[i]) d

/-- 42_feistel R264 and R269: DEC takes the subkeys in reverse order and leaves SK in encryption order. -/
def Obligations.DecRunsTheRoundsReversed : Prop :=
  decode 0x0000001D = .ok .dec ∧
  ∀ s : State, ∃ (k : Vector Subkey 16) (d : Block),
    exec .dec s = .next { s with sk := k, dout := d, done := true, pend := none } ∧
    IsSubkeys s.cfg s.key k ∧ IsProcessed s.cfg s.din (fun i => k[15 - i.val]) d

/-- 42_feistel R265, marked derived there: DEC after ENC, and ENC after DEC, give the block back, in every well-formed
configuration and under every key. -/
def Obligations.DecryptionUndoesEncryption : Prop :=
  ∀ s : State, ∃ t u v w : State,
    exec .enc s = .next t ∧ exec .dec { t with din := t.dout } = .next u ∧ u.dout = s.din ∧
    exec .dec s = .next v ∧ exec .enc { v with din := v.dout } = .next w ∧ w.dout = s.din

/-- 43_digest R301 and R306: DGINIT loads the initial values and clears DGLEN; MSG is not cleared. -/
def Obligations.DginitLoadsTheInitialValues : Prop :=
  decode 0x00000020 = .ok .dginit ∧
  ∀ s : State, exec .dginit s = .next { s with
    h := #v[0x67452301, 0xEFCDAB89, 0x98BADCFE, 0x10325476, 0xC3D2E1F0], dglen := 0, done := true, pend := none }

/-- 43_digest R302 to R304 and R307: DGBLOCK compresses MSG into H and adds 512 to DGLEN, modulo 2^64. -/
def Obligations.DgblockCompressesTheBlock : Prop :=
  decode 0x00000021 = .ok .dgblock ∧
  ∀ s : State, ∃ (h : Vector Word 5) (l : Block),
    exec .dgblock s = .next { s with h := h, dglen := l, done := true, pend := none } ∧
    IsCompressed s.h (fun j => s.msg.toList.getD j 0) h ∧ l.toNat = (s.dglen.toNat + 512) % 2 ^ 64

/-- 43_digest R305, R308 and R311: DGFINAL n pads n bytes of MSG and compresses one block where n ≤ 55, else two. -/
def Obligations.DgfinalPadsAndCompresses : Prop :=
  ∀ (n : BitVec 6) (s : State), decode (0x00000022 ||| (n.setWidth 32 <<< 8)) = .ok (.dgfinal n) ∧
    ∃ (h : Vector Word 5) (l : Block),
      exec (.dgfinal n) s = .next { s with h := h, dglen := l, done := true, pend := none } ∧
      l.toNat = (s.dglen.toNat + 8 * n.toNat) % 2 ^ 64 ∧
      (n.toNat ≤ 55 → IsCompressed s.h (blockWord (onlyBlock s.msg n.toNat l)) h) ∧
      (56 ≤ n.toNat → ∃ h1 : Vector Word 5, IsCompressed s.h (blockWord (firstBlock s.msg n.toNat)) h1 ∧
        IsCompressed h1 (blockWord (secondBlock l)) h)

/-- 44_modexp R341: MODEXP writes RES alone, with the exact power, or, with the modulus 0, raises MOD_ZERO. The premise is
the invariant, under which the modulus fits in MXW bits. -/
def Obligations.ModexpIsTheExactPower : Prop :=
  decode 0x00000030 = .ok (.modexp false) ∧ decode 0x00010030 = .ok (.modexp true) ∧
  ∀ (sb : Bool) (s : State), s.Inv →
    (natOfWords s.mod = 0 → exec (.modexp sb) s = .next { s with err := true, ecode := 2, pend := none }) ∧
    (natOfWords s.mod ≠ 0 → ∃ r : List Word,
      exec (.modexp sb) s = .next { s with res := r, done := true, pend := none } ∧
      r.length = s.cfg.words ∧
      (natOfWords r : Int) =
        (baseValue s sb % (natOfWords s.mod : Int)) ^ natOfWords s.opb % (natOfWords s.mod : Int))

/-- 44_modexp R342: MODMUL writes RES alone, with the exact product reduced, or, with the modulus 0, raises MOD_ZERO. -/
def Obligations.ModmulIsTheExactProduct : Prop :=
  decode 0x00000031 = .ok (.modmul false) ∧ decode 0x00010031 = .ok (.modmul true) ∧
  ∀ (sb : Bool) (s : State), s.Inv →
    (natOfWords s.mod = 0 → exec (.modmul sb) s = .next { s with err := true, ecode := 2, pend := none }) ∧
    (natOfWords s.mod ≠ 0 → ∃ r : List Word,
      exec (.modmul sb) s = .next { s with res := r, done := true, pend := none } ∧
      r.length = s.cfg.words ∧
      (natOfWords r : Int) =
        ((baseValue s sb % (natOfWords s.mod : Int)) * ((natOfWords s.opb : Int) % (natOfWords s.mod : Int))) %
          (natOfWords s.mod : Int))

/-- 44_modexp R343: in every state with the modulus 0 both commands set ERR and ECODE 2, empty PEND, and leave RES, DONE and
every other register. -/
def Obligations.ModulusZeroRaisesModZero : Prop :=
  ∀ (sb : Bool) (s : State), natOfWords s.mod = 0 →
    exec (.modexp sb) s = .next { s with err := true, ecode := 2, pend := none } ∧
    exec (.modmul sb) s = .next { s with err := true, ecode := 2, pend := none }

/-! ## Configuration -/

/-- 00_scope R9 and 40_permutation R207: the check at construction accepts exactly the configurations R207 and the range of
MXW admit, the reference configuration among them. -/
def Obligations.ConfigurationCheckIsExact : Prop :=
  (∀ c : RawConfig, (∃ g : Config, Config.build? c = some g ∧ g.raw = c) ↔ RawConfigMeetsR207 c) ∧
  RawConfigMeetsR207 RawConfig.reference

/-- 70_reset R453: no step changes the configuration. -/
def Obligations.ConfigurationNeverChanges : Prop :=
  ∀ s t : State, step s = .next t → t.cfg = s.cfg

/-! ## Encoding -/

/-- 30_encoding R120 and R124: each command has one word and each legal word one command. -/
def Obligations.DecodeAndEncodeAgree : Prop :=
  ∀ (i : Instr) (w : Word), decode w = .ok i ↔ w = encode i

/-- 30_encoding R125: a word selects a command exactly when it matches the row's mask and value, with the fields of R121; a
word that matches no row is illegal. At most one row matches a word, since `decode` gives one command. -/
def Obligations.DecodeIsMaskAndMatch : Prop :=
  ∀ w : Word,
    let fixed := [(Instr.nop, (0x00000000 : Word)), (.pip, 0x00000010), (.pfp, 0x00000011), (.pexp, 0x00000012),
      (.pperm, 0x00000013), (.ppc2, 0x00000014), (.sbox, 0x00000018), (.roundf, 0x00000019), (.ksgen, 0x0000001A),
      (.enc, 0x0000001C), (.dec, 0x0000001D), (.dginit, 0x00000020), (.dgblock, 0x00000021)]
    (∀ row ∈ fixed, decode w = .ok row.1 ↔ w &&& 0xFFFFFFFF = row.2) ∧
    (∀ n, decode w = .ok (.dgfinal n) ↔ w &&& 0xFFFFC0FF = 0x00000022 ∧ n = w.extractLsb' 8 6) ∧
    (∀ sb, decode w = .ok (.modexp sb) ↔ w &&& 0xFFFEFFFF = 0x00000030 ∧ sb = w.getLsbD 16) ∧
    (∀ sb, decode w = .ok (.modmul sb) ↔ w &&& 0xFFFEFFFF = 0x00000031 ∧ sb = w.getLsbD 16) ∧
    (legal w = false ↔ (∀ row ∈ fixed, w &&& 0xFFFFFFFF ≠ row.2) ∧ w &&& 0xFFFFC0FF ≠ 0x00000022 ∧
      w &&& 0xFFFEFFFF ≠ 0x00000030 ∧ w &&& 0xFFFEFFFF ≠ 0x00000031)

/-- 30_encoding R126: an unlisted opcode, a nonzero N outside DGFINAL, a nonzero SB outside MODEXP and MODMUL, and a nonzero
reserved field are each illegal. -/
def Obligations.IllegalWordsAreRejected : Prop :=
  ∀ w : Word,
    (w.extractLsb' 0 8 ∉ ([0x00, 0x10, 0x11, 0x12, 0x13, 0x14, 0x18, 0x19, 0x1A, 0x1C, 0x1D, 0x20, 0x21, 0x22, 0x30, 0x31]
      : List (BitVec 8)) → legal w = false) ∧
    (w.extractLsb' 8 6 ≠ 0 → w.extractLsb' 0 8 ≠ 0x22 → legal w = false) ∧
    (w.getLsbD 16 = true → w.extractLsb' 0 8 ≠ 0x30 → w.extractLsb' 0 8 ≠ 0x31 → legal w = false) ∧
    (w.extractLsb' 14 2 ≠ 0 ∨ w.extractLsb' 17 15 ≠ 0 → legal w = false)

/-- Words written out from 30_encoding R124 decode to their commands, with their fields, and words 95_test_vectors lists as
illegal do not. -/
def Obligations.SampleWordsDecode : Prop :=
  decode 0x00000322 = .ok (.dgfinal 3) ∧ decode 0x00003F22 = .ok (.dgfinal 63) ∧
  decode 0x00010030 = .ok (.modexp true) ∧ decode 0x00000031 = .ok (.modmul false) ∧
  decode 0x0000001C = .ok .enc ∧ decode 0x00000013 = .ok .pperm ∧ decode 0x00000021 = .ok .dgblock ∧
  legal 0x00004022 = false ∧ legal 0x00020030 = false ∧ legal 0x00010010 = false ∧ legal 0x00000110 = false ∧
  legal 0x00000015 = false ∧ legal 0x80000000 = false

/-! ## Reset, control and status -/

/-- 10_state R44 and 70_reset R450: a hardware reset and a soft reset are each one step and give the same state, every
register at its reset value, PEND discarded; the configuration does not change. -/
def Obligations.ResetGivesTheResetState : Prop :=
  ∀ (s : State) (v : Word), v.getLsbD 1 = true → ∃ t : State,
    applyEvent .hardReset s = .next t ∧ applyEvent (.write 0x008 4 v) s = .next t ∧
    t.ie = false ∧ t.done = false ∧ t.err = false ∧ t.ecode = 0 ∧ t.busy = false ∧ t.irq = false ∧ t.cmd = 0 ∧
    t.pend = none ∧ t.key = 0 ∧ t.din = 0 ∧ t.dout = 0 ∧ (∀ i : Fin 16, t.sk[i] = 0) ∧
    t.h = #v[0x67452301, 0xEFCDAB89, 0x98BADCFE, 0x10325476, 0xC3D2E1F0] ∧ t.dglen = 0 ∧
    (∀ j : Fin 16, t.msg[j] = 0) ∧
    (∀ r ∈ [t.opa, t.opb, t.mod, t.res], r.length = s.cfg.words ∧ ∀ w ∈ r, w = 0) ∧
    t.cfg = s.cfg ∧ busReadValue 0x000 t = 0x48493230 ∧ busReadValue 0x004 t = busReadValue 0x004 s

/-- The model's choice (logs 5 and 8): `State.reset` is the state a reset leaves in the reference configuration, whose MXW is
1024, with no step to come, nothing read and no draw made; a reset leaves those three fields alone. -/
def Obligations.ResetStateIsWhatAResetLeaves : Prop :=
  Config.reference.words = 32 ∧ State.reset.cfg = Config.reference ∧ State.reset.script = [] ∧ State.reset.reads = [] ∧
  State.reset.draws = 0 ∧
  ∀ s : State, applyEvent .hardReset s = .next
    { State.resetOf s.cfg with script := s.script, reads := s.reads, draws := s.draws } ∧
    (s.cfg = Config.reference → applyEvent .hardReset s = .next
      { State.reset with script := s.script, reads := s.reads, draws := s.draws })

/-- 45_control R381: a write to CTRL with bit 1 clear changes IE only, and CTRL then reads IE in bit 0 and 0 elsewhere; with
bit 1 set it is a reset, which wins over IE and abandons a pending command without DONE. -/
def Obligations.CtrlWriteSetsIeOrResets : Prop :=
  ∀ (s : State) (v : Word),
    (v.getLsbD 1 = false → applyEvent (.write 0x008 4 v) s = .next { s with ie := v.getLsbD 0 } ∧
      (busReadValue 0x008 { s with ie := v.getLsbD 0 }).toNat = v.toNat % 2) ∧
    (v.getLsbD 1 = true → ∃ t : State, applyEvent (.write 0x008 4 v) s = .next t ∧ applyEvent .hardReset s = .next t ∧
      t.ie = false ∧ t.pend = none ∧ t.done = false)

/-- 45_control R382: writing 1 to STATUS bit 1 clears DONE and to bit 2 clears ERR and ECODE; every other bit of the value
is ignored, and nothing else changes. -/
def Obligations.StatusWriteClearsByOnes : Prop :=
  ∀ (s : State) (v : Word), ∃ t : State, applyEvent (.write 0x00C 4 v) s = .next t ∧
    t = { s with done := t.done, err := t.err, ecode := t.ecode } ∧
    (t.done = true ↔ s.done = true ∧ v.getLsbD 1 = false) ∧
    (t.err = true ↔ s.err = true ∧ v.getLsbD 2 = false) ∧
    (v.getLsbD 2 = true → t.ecode = 0) ∧ (v.getLsbD 2 = false → t.ecode = s.ecode)

/-- 45_control R384, 60_exceptions R403 and R407: a write to CMD raises OVERRUN while busy, whatever the word; else it
raises ILLEGAL_CMD for an illegal word; else it issues. Nothing else changes. -/
def Obligations.CmdWriteIssuesOrRaises : Prop :=
  ∀ (s : State) (v : Word),
    (s.pend ≠ none → applyEvent (.write 0x010 4 v) s = .next { s with err := true, ecode := 3 }) ∧
    (s.pend = none → (∀ i, decode v ≠ .ok i) →
      applyEvent (.write 0x010 4 v) s = .next { s with err := true, ecode := 1 }) ∧
    (∀ i, s.pend = none → decode v = .ok i →
      applyEvent (.write 0x010 4 v) s = .next { s with cmd := v, pend := some v })

/-- 60_exceptions R409 and 10_state R41: the level of irq; clearing DONE and ERR or masking takes it down, masking clears
neither, and unmasking with either still set raises it at once. -/
def Obligations.IrqFollowsItsFormula : Prop :=
  ∀ s : State, (s.irq = true ↔ s.ie = true ∧ (s.done = true ∨ s.err = true)) ∧
    ∃ t u w : State, applyEvent (.write 0x00C 4 0x00000006) s = .next t ∧ t.irq = false ∧
      applyEvent (.write 0x008 4 0x00000000) s = .next u ∧ u.irq = false ∧ u.done = s.done ∧ u.err = s.err ∧
      applyEvent (.write 0x008 4 0x00000001) u = .next w ∧ (w.irq = true ↔ s.done = true ∨ s.err = true)

/-- 70_reset R456: DONE stays set through every step but a write to STATUS and a reset; issue does not clear it, nor ERR. -/
def Obligations.StickyFlagsStaySet : Prop :=
  ∀ (s t : State) (e : Event), applyEvent e s = .next t → e ≠ .hardReset →
    (∀ off size v, e = .write off size v → off ≠ 0x00C ∧ (off = 0x008 → v.getLsbD 1 = false)) →
    (s.done = true → t.done = true) ∧ (s.err = true → t.err = true)

/-! ## The register window -/

/-- 20_memory R82: a sub-word, wide or misaligned access is refused and every other one has an effect. -/
def Obligations.OnlyAlignedWordAccessesHaveAMeaning : Prop :=
  ∀ (s : State) (off : Offset) (size : Nat) (v : Word),
    (size ≠ 4 ∨ off.toNat % 4 ≠ 0 →
      applyEvent (.write off size v) s = .refused .unadmittedAccess ∧
      applyEvent (.read off size) s = .refused .unadmittedAccess) ∧
    (size = 4 → off.toNat % 4 = 0 →
      (∃ t, applyEvent (.write off size v) s = .next t) ∧ (∃ t, applyEvent (.read off size) s = .next t))

/-- 20_memory R81 and R88, 10_state R36 to R40: what a read of each offset of the window returns. That a busy read of a
result word is the free value `Config.draw` at the count `draws` is the model's choice (log 3). -/
def Obligations.WindowReadsEachRegister : Prop :=
  ∀ s : State,
    let rd := fun a : Nat => busReadValue (BitVec.ofNat 12 a) s
    let res := fun w : Word => if s.pend = none then w else Config.draw s.draws
    rd 0x000 = 0x48493230 ∧
    (rd 0x004).toNat = s.cfg.raw.mxw + (if s.cfg.raw.ksExtract = .high56 then 2 ^ 13 else 0) ∧
    (rd 0x008).toNat = s.ie.toNat ∧
    (rd 0x00C).toNat = (if s.pend = none then 0 else 1) + 2 * s.done.toNat + 4 * s.err.toNat + 16 * s.ecode.toNat ∧
    rd 0x010 = s.cmd ∧
    rd 0x020 = s.key.extractLsb' 32 32 ∧ rd 0x024 = s.key.extractLsb' 0 32 ∧
    rd 0x028 = s.din.extractLsb' 32 32 ∧ rd 0x02C = s.din.extractLsb' 0 32 ∧
    rd 0x030 = res (s.dout.extractLsb' 32 32) ∧ rd 0x034 = res (s.dout.extractLsb' 0 32) ∧
    (∀ i : Fin 16, rd (0x040 + 8 * i) = res ((s.sk[i].extractLsb' 32 16).setWidth 32) ∧
      rd (0x044 + 8 * i) = res (s.sk[i].extractLsb' 0 32)) ∧
    (∀ j : Fin 5, rd (0x0C0 + 4 * j) = res s.h[j]) ∧
    rd 0x0D8 = res (s.dglen.extractLsb' 32 32) ∧ rd 0x0DC = res (s.dglen.extractLsb' 0 32) ∧
    (∀ j : Fin 16, rd (0x100 + 4 * j) = s.msg[j]) ∧
    (∀ j, j < s.cfg.words →
      rd (0x200 + 4 * j) = s.opa.getD j 0 ∧ rd (0x400 + 4 * j) = s.opb.getD j 0 ∧
      rd (0x600 + 4 * j) = s.mod.getD j 0 ∧ rd (0x800 + 4 * j) = res (s.res.getD j 0)) ∧
    (∀ a, reservedOffset s.cfg a → a % 4 = 0 → rd a = 0)

/-- 20_memory R88 and R90: a read changes no register; the host gets the value, and a draw is used at most once. The fields
`reads` and `draws` that record this are the model's choice (logs 1 and 3). -/
def Obligations.ReadsChangeNoRegister : Prop :=
  ∀ (s : State) (off : Offset), off.toNat % 4 = 0 → ∃ n : Nat,
    applyEvent (.read off 4) s = .next { s with reads := s.reads ++ [(off, busReadValue off s)], draws := n } ∧
    (n = s.draws ∨ s.pend ≠ none ∧ n = s.draws + 1 ∧ busReadValue off s = Config.draw s.draws) ∧
    (s.pend ≠ none → readOnlyOffset s.cfg off.toNat → off.toNat ≠ 0x000 → off.toNat ≠ 0x004 → n = s.draws + 1)

/-- 20_memory R87, for an operand word while idle: the word lands, reads back, and every other word of the window reads as
before; no flag, result register or other field changes. The premise is the invariant: the wide registers have their
words. -/
def Obligations.OperandWriteLandsInItsWordOnly : Prop :=
  ∀ (s : State) (off : Offset) (v : Word), s.Inv → s.pend = none → off.toNat % 4 = 0 →
    operandOffset s.cfg off.toNat → ∃ t : State,
      applyEvent (.write off 4 v) s = .next t ∧ busReadValue off t = v ∧
      (∀ a : Offset, a.toNat % 4 = 0 → a ≠ off → busReadValue a t = busReadValue a s) ∧
      t = { s with key := t.key, din := t.din, msg := t.msg, opa := t.opa, opb := t.opb, mod := t.mod }

/-- 60_exceptions R405: a write to CMD or to an operand word while a command is pending raises OVERRUN and is lost; a write to
CTRL, STATUS, a read-only or a reserved offset never does, the last two changing nothing. -/
def Obligations.BusyOperandWriteRaisesOverrun : Prop :=
  ∀ (s : State) (off : Offset) (v : Word), s.pend ≠ none → off.toNat % 4 = 0 →
    (operandOffset s.cfg off.toNat ∨ off = 0x010 →
      applyEvent (.write off 4 v) s = .next { s with err := true, ecode := 3 }) ∧
    (readOnlyOffset s.cfg off.toNat ∨ reservedOffset s.cfg off.toNat → applyEvent (.write off 4 v) s = .next s) ∧
    (off = 0x008 ∨ off = 0x00C → ∃ t, applyEvent (.write off 4 v) s = .next t ∧
      (t.err = true → s.err = true ∧ t.ecode = s.ecode))

/-- 20_memory R83 and R84: a write to a read-only or a reserved offset, busy or idle, has no effect at all; a reserved offset,
a word of a wide register at j ≥ MXW/32 among them, reads 0. -/
def Obligations.ReadOnlyAndReservedIgnoreWrites : Prop :=
  ∀ (s : State) (off : Offset) (v : Word), off.toNat % 4 = 0 →
    (readOnlyOffset s.cfg off.toNat ∨ reservedOffset s.cfg off.toNat → applyEvent (.write off 4 v) s = .next s) ∧
    (reservedOffset s.cfg off.toNat → busReadValue off s = 0)

/-! ## The step and the whole machine -/

/-- 45_control R385 and R386: when PEND holds the word of command i and the engine moves next (its turn heads the steps to come,
or none is left), the step is `exec i`; so it is for a word placed by `withFetchWord`. -/
def Obligations.StepRunsThePendingCommand : Prop :=
  ∀ (s : State) (w : Word) (i : Instr), decode w = .ok i →
    (s.pend = some w → ∀ es, s.script = .engine :: es → step s = exec i { s with script := es }) ∧
    (s.pend = some w → s.script = [] → step s = exec i s) ∧
    step (s.withFetchWord 32 w.toNat) = exec i { s with cmd := w, pend := some w, script := [] } ∧
    decodeTableWord 32 w.toNat = some i

/-- 45_control R386: the step is the first of the steps to come; with none left and nothing pending the core rests. -/
def Obligations.StepFollowsTheScript : Prop :=
  ∀ s : State,
    (∀ e es, s.script = e :: es → step s = applyEvent e { s with script := es }) ∧
    (s.ended → step s = .next s) ∧
    (s.pend = none → applyEvent .engine s = .next s)

/-- The invariant holds at reset. -/
def Obligations.ResetMeetsTheInvariant : Prop :=
  State.reset.Inv ∧ ∀ c : Config, (State.resetOf c).Inv

/-- Every step keeps the invariant: the wide registers keep MXW/32 words, CMD stays a legal word and a pending command is
the one it holds, and ECODE is a code of R402 while ERR is 1 and 0 while it is 0. -/
def Obligations.EveryStepKeepsTheInvariant : Prop :=
  ∀ s t : State, s.Inv → step s = .next t → t.Inv

/-- 70_reset R462: in a state of the invariant whose next step is an admitted access, an engine turn or a reset, the step
answers a next state: nothing the host does but a refused access is without a meaning. -/
def Obligations.AdmittedStepsAnswer : Prop :=
  ∀ s : State, s.Inv → (∀ e es, s.script = e :: es → e.admitted = true) → ∃ t, step s = .next t

/-- 45_control R385 and R387, 60_exceptions R405: whatever admitted accesses the host makes while a command is pending, short
of a soft reset, the command's results, the operands and CMD come out as if the engine had moved at once. -/
def Obligations.PendingCommandCannotBeDisturbed : Prop :=
  ∀ (s : State) (w : Word) (i : Instr) (es : List Event), s.pend = some w → decode w = .ok i →
    (∀ e ∈ es, e.admitted = true ∧ e.hostNoReset s.cfg = true) →
    ∃ u t1 t2 : State, runEvents es s = .next u ∧ engineStep s = .next t1 ∧ engineStep u = .next t2 ∧
      t1.sameResults t2 ∧ t1.sameOperands t2 ∧ t2.cmd = t1.cmd ∧ t2.pend = none ∧ u.pend = some w

/-- 20_memory R89 and 45_control R387: only an engine step or a reset writes a result register. -/
def Obligations.HostAccessesWriteNoResult : Prop :=
  ∀ (s t : State) (e : Event), e.hostNoReset s.cfg = true → applyEvent e s = .next t → s.sameResults t

/-- 10_state R33: commands only read the operand registers; a completion leaves CTRL and CMD too. -/
def Obligations.CommandsWriteNoOperand : Prop :=
  ∀ (i : Instr) (s : State), ∃ t : State, exec i s = .next t ∧ s.sameOperands t ∧ t.ie = s.ie ∧ t.cmd = s.cmd ∧
    t.pend = none ∧ t.script = s.script ∧ t.reads = s.reads ∧ t.draws = s.draws

/-- 60_exceptions R406 and 45_control R385: a completion either sets DONE and leaves ERR and ECODE, or is MODEXP or MODMUL with
the modulus 0, sets ERR and ECODE 2, and leaves DONE and every result register. -/
def Obligations.OnlyModZeroRaisesAtCompletion : Prop :=
  ∀ (i : Instr) (s : State), ∃ t : State, exec i s = .next t ∧
    ((t.done = true ∧ t.err = s.err ∧ t.ecode = s.ecode) ∨
     ((∃ sb, i = .modexp sb ∨ i = .modmul sb) ∧ natOfWords s.mod = 0 ∧
      t = { s with err := true, ecode := 2, pend := none }))

/-- 60_exceptions R408, marked derived there: a step that turns ERR on changes nothing but ERR, ECODE and, at a completion,
PEND. -/
def Obligations.ErrorsArePrecise : Prop :=
  ∀ (s t : State) (e : Event), applyEvent e s = .next t → s.err = false → t.err = true →
    (∃ off v, e = .write off 4 v ∧ (t.ecode = 1 ∨ t.ecode = 3) ∧ t = { s with err := true, ecode := t.ecode }) ∨
    (e = .engine ∧ t = { s with err := true, ecode := 2, pend := none })

/-- 70_reset R459 and R461: from a state of the invariant, once the host's admitted steps are made one more step ends the
run: no step is to come and nothing is pending. That the engine moves when no step is left is the model's form of weak
fairness (log 2). -/
def Obligations.EveryRunEnds : Prop :=
  ∀ s : State, s.Inv → (∀ e ∈ s.script, e.admitted = true) →
    ∃ t : State, Host.Core.run Sys2Proof.core (s.script.length + 1) s = .next t ∧ t.ended

/-! ## Host procedures -/

/-- 45_control R387: from an idle core, issuing a command and letting the engine move is the command's own rule on the
operands as they stand. -/
def Obligations.IssueThenEngineIsTheCommand : Prop :=
  ∀ (i : Instr) (s : State), s.pend = none →
    runEvents [.write 0x010 4 (encode i), .engine] s = exec i { s with cmd := encode i, pend := some (encode i) }

/-- 42_feistel R270 and R271, the round trip marked derived there: decoding what encoding gave returns the payload, for every
payload and key, in every well-formed configuration, wherever the engine has its turns (`r.turns`, log 13). Each block is a
call of 45_control R387 with STATUS cleared first (log 17). -/
def Obligations.BlockCodecRoundTrip : Prop :=
  ∀ (key : Block) (p : List Byte) (r : HostRun), r.state.pend = none →
    ∃ (q t : HostRun) (ct : List Byte), encodePayload key p r = .ok (q, ct) ∧
      ct.length = p.length + (8 - p.length % 8) ∧ decodePayload key ct q = .ok (t, p)

/-- 44_modexp R345: a signature out of range is rejected by verdict, without an error and without the core. That this holds
under a key outside `p > 2, 1 < g < p` too is the model's reading of the order of the two checks (log 18). -/
def Obligations.VerifyRejectsOutOfRange : Prop :=
  ∀ (msg : List Byte) (r sg p g y : Int) (run : HostRun),
    r ≤ 0 ∨ p ≤ r ∨ sg < 0 ∨ p - 1 ≤ sg → verify msg r sg p g y run = .ok (run, .reject)

/-- 44_modexp R345 and 60_exceptions R418: a signature in range under a key outside `p > 2, 1 < g < p` is InvalidKey, before
the core is used. The premise puts the signature in range, so the order of the two checks (log 18) has no part in it. -/
def Obligations.VerifyRefusesAKeyOutOfDomain : Prop :=
  ∀ (msg : List Byte) (r sg p g y : Int) (run : HostRun),
    0 < r ∧ r < p ∧ 0 ≤ sg ∧ sg < p - 1 → p ≤ 2 ∨ g ≤ 1 ∨ p ≤ g →
      verify msg r sg p g y run = .error .invalidKey

/-- 42_feistel R272 and 93_implementation_defined §1: an ASCII key string gives KEY one byte a character, the first most
significant, cut to eight and filled with zero bytes; an empty one is InvalidKey and another text is refused. -/
def Obligations.KeyTextIsNormalised : Prop :=
  keyOfText "" = .error .invalidKey ∧
  ∀ text : String,
    ((∃ ch ∈ text.toList, 128 ≤ ch.toNat) → keyOfText text = .error .notAscii) ∧
    ((∀ ch ∈ text.toList, ch.toNat < 128) → text.toList ≠ [] → ∃ key : Block, keyOfText text = .ok key ∧
      ∀ i, i < 8 → (key.extractLsb' (56 - 8 * i) 8).toNat = (text.toList.map Char.toNat).getD i 0)

/-! ## The core's state and the machine round it -/

/-- 10_state R30 and 00_scope R6: what a step does to the core's state depends on that state, the step and the configuration
alone, whatever the model holds beside them (log 1); a read changes nothing of it. -/
def Obligations.CoreStateAloneDecidesTheCore : Prop :=
  (∀ (e : Event) (s t : State), applyEvent e s = .next t →
    CoreStep s.cfg e s.core t.core ∧ ∀ y, CoreStep s.cfg e s.core y → y = t.core) ∧
  (∀ (off : Offset) (size : Nat) (s t : State), applyEvent (.read off size) s = .next t → t.core = s.core)

/-! ## Host programs -/

/-- 30_encoding R129 and 70_reset R461: in a state of the invariant, wherever the engine has its turns, `WAIT` reads STATUS
until a value has bit 0 clear, every value before it having bit 0 set; the pending command has then completed, and nothing
else has happened to the core. -/
def Obligations.WaitReadsUntilIdle : Prop :=
  ∀ r : HostRun, r.state.Inv → ∃ (q : HostRun) (v : Word) (ws : List Word) (t : State), r.wait = .ok (q, v) ∧
    q.state.reads = r.state.reads ++ ws.map (fun w => ((0x00C : Offset), w)) ++ [(0x00C, v)] ∧
    (∀ w ∈ ws, w.getLsbD 0 = true) ∧ v.getLsbD 0 = false ∧ q.state.pend = none ∧
    engineStep r.state = .next t ∧ q.state.core = t.core

/-- 30_encoding R128 and R129, 70_reset R461: a program that runs is its steps in order, host accesses with engine steps
between them; without a `WAIT` the host's are the expansions of its statements, and the words its `RD`s return are the ones
read, each at its own read. -/
def Obligations.HostProgramIsAnInterleaving : Prop :=
  ∀ (p : List Stmt) (r q : HostRun) (vs : List (List Word)), runProgram p r = .ok (q, vs) →
    ∃ es : List Event, q.trace = r.trace ++ es ∧ runEvents es r.state = .next q.state ∧
      (Stmt.wait ∉ p →
        es.filter (fun e => e != .engine) = p.flatMap (Stmt.accesses r.state.cfg) ∧
        q.state.reads.map Prod.snd = r.state.reads.map Prod.snd ++ vs.flatten)

/-- 45_control R387: from an idle core, a call that writes operands, issues a command, waits and checks STATUS.ERR does what
the command's rule does on the operands written, wherever the engine has its turns; an error of the command is the call's
error. STATUS is cleared before the operands (log 17). -/
def Obligations.HostCallIsTheCommand : Prop :=
  ∀ (operands : List Stmt) (i : Instr) (r : HostRun), r.state.Inv → r.state.pend = none →
    operands.all (Stmt.wf r.state.cfg) = true → operands.all Stmt.writesOperands = true → ∃ s t : State,
      runEvents ((.clr :: operands).flatMap (Stmt.accesses r.state.cfg)) r.state = .next s ∧
      exec i { s with cmd := encode i, pend := some (encode i) } = .next t ∧
      (t.err = false → ∃ q, hostCall operands i r = .ok q ∧ q.state.core = t.core) ∧
      (t.err = true → hostCall operands i r = .error (.core t.ecode))

/-- 45_control R387, from any state of the invariant, busy ones too: a call that answers, answers as if a command pending
before it had completed first and the call had been made then; ERR is 0 and DONE 1 after it. Where that did not happen it
is an error, never a stale result. -/
def Obligations.HostCallNeverHidesAnError : Prop :=
  ∀ (operands : List Stmt) (i : Instr) (r q : HostRun), r.state.Inv → operands.all Stmt.writesOperands = true →
    hostCall operands i r = .ok q →
      q.state.err = false ∧ q.state.done = true ∧ q.state.pend = none ∧ q.state.cmd = encode i ∧
      ∃ u s t : State, engineStep r.state = .next u ∧
        runEvents ((.clr :: operands).flatMap (Stmt.accesses r.state.cfg)) u = .next s ∧
        exec i { s with cmd := encode i, pend := some (encode i) } = .next t ∧ q.state.core = t.core

/-- 44_modexp R345: from an idle core, for a signature in range under a key in its domain that fits MOD, Verify accepts exactly
if `g^h mod p = (y^r · r^s) mod p` over the integers, h being the digest modulo p − 1, or 1 where that is 0, wherever the
engine has its turns. A `y` WRBIG does not take, a negative one say, is reduced first, which is the model's choice (log 19). -/
def Obligations.VerifyDecidesTheCriterion : Prop :=
  ∀ (msg : List Byte) (r sg p g y : Int) (run : HostRun), run.state.Inv → run.state.pend = none →
    0 < r ∧ r < p ∧ 0 ≤ sg ∧ sg < p - 1 → 2 < p ∧ 1 < g ∧ g < p → p < ((2 ^ run.state.cfg.raw.mxw : Nat) : Int) →
    ∃ (d q : HostRun) (dg h : Nat), hostDigest msg run = .ok (d, dg) ∧
      (h : Int) = (if (dg : Int) % (p - 1) = 0 then 1 else (dg : Int) % (p - 1)) ∧
      verify msg r sg p g y run =
        .ok (q, if g ^ h % p = y ^ r.toNat * r ^ sg.toNat % p then .accept else .reject)
end

