-- ==== Sys2Proof/Laws/Bits.lean ====
section
/-! SUPPORT. The words of a wide register and the split of a 64-bit one, each operation's lemmas once. -/
namespace Sys2Proof.Machine

@[simp] theorem wordsOfNat_length (n v : Nat) : (wordsOfNat n v).length = n := by
  induction n generalizing v with
  | zero => rfl
  | succ n ih => simp [wordsOfNat, ih]

/-- The words of `v` have the value of `v`, cut to their number. -/
theorem natOfWords_wordsOfNat (n v : Nat) : natOfWords (wordsOfNat n v) = v % 2 ^ (32 * n) := by
  induction n generalizing v with
  | zero => simp [wordsOfNat, natOfWords, Nat.mod_one]
  | succ n ih =>
    have h : 2 ^ (32 * (n + 1)) = 2 ^ 32 * 2 ^ (32 * n) := by rw [← pow_add]; congr 1; omega
    rw [wordsOfNat, natOfWords, ih, h, Nat.mod_mul, BitVec.toNat_ofNat]

/-- A register of n words holds a value below 2^(32n). -/
theorem natOfWords_lt (ws : List Word) : natOfWords ws < 2 ^ (32 * ws.length) := by
  induction ws with
  | nil => simp [natOfWords]
  | cons w ws ih =>
    have h : 2 ^ (32 * (ws.length + 1)) = 2 ^ 32 * 2 ^ (32 * ws.length) := by rw [← pow_add]; congr 1; omega
    have hw := w.isLt
    simp only [natOfWords, List.length_cons, h]
    have : 2 ^ 32 * natOfWords ws + 2 ^ 32 ≤ 2 ^ 32 * 2 ^ (32 * ws.length) := by
      rw [← Nat.mul_succ]; exact Nat.mul_le_mul_left _ ih
    omega

@[simp] theorem natOfWords_replicate_zero (n : Nat) : natOfWords (List.replicate n 0#32) = 0 := by
  induction n with
  | zero => rfl
  | succ n ih => simp [List.replicate_succ, natOfWords, ih]

theorem join64_getLsbD (a b : Word) (i : Nat) :
    (join64 a b).getLsbD i = if i < 32 then b.getLsbD i else a.getLsbD (i - 32) :=
  BitVec.getLsbD_append (x := a) (y := b)

theorem hi32_getLsbD (r : Block) (i : Nat) : (hi32 r).getLsbD i = (decide (i < 32) && r.getLsbD (32 + i)) :=
  BitVec.getLsbD_extractLsb' ..

theorem lo32_getLsbD (r : Block) (i : Nat) : (lo32 r).getLsbD i = (decide (i < 32) && r.getLsbD i) := by
  rw [lo32, BitVec.getLsbD_extractLsb', Nat.zero_add]

@[simp] theorem hi32_join64 (a b : Word) : hi32 (join64 a b) = a := by
  refine BitVec.eq_of_getLsbD_eq fun i hi => ?_
  simp only [hi32_getLsbD, join64_getLsbD, hi]; simp

@[simp] theorem lo32_join64 (a b : Word) : lo32 (join64 a b) = b := by
  refine BitVec.eq_of_getLsbD_eq fun i hi => ?_
  simp only [lo32_getLsbD, join64_getLsbD, hi]; simp

@[simp] theorem join64_hi32_lo32 (r : Block) : join64 (hi32 r) (lo32 r) = r := by
  refine BitVec.eq_of_getLsbD_eq fun i hi => ?_
  simp only [hi32_getLsbD, lo32_getLsbD, join64_getLsbD]
  split
  · simp [*]
  · have h1 : i - 32 < 32 := by omega
    have h2 : 32 + (i - 32) = i := by omega
    simp [h1, h2]

end Sys2Proof.Machine
end

