-- ==== Sys2Proof/Laws/Window.lean ====
section
/-! SUPPORT. The register window: `regAt` and `offsetOf` undo each other, and a word written is the word read while every
other register reads as before. -/
namespace Sys2Proof.Machine

/-- A register of the window: a wide register's word j exists where j < MXW/32 (spec/20_memory.md R81). -/
def Reg.present (c : Config) : Reg → Bool
  | .opa j | .opb j | .mod j | .res j => decide (j.val < c.words)
  | _ => true

theorem wideSlot_of_lt (c : Config) (f : Fin 128 → Reg) (j : Fin 128) (h : j.val < c.words) : wideSlot c f j = f j := by
  simp [wideSlot, h]

/-- Below 0x200 the map is a closed table. -/
theorem offsetOf_regLow : ∀ k : Fin 128, regLow (4 * k.val) ≠ .reserved →
    offsetOf (regLow (4 * k.val)) = BitVec.ofNat 12 (4 * k.val) := by decide +kernel

theorem regLow_offsetOf :
    (∀ i : Fin 16, regLow (0x040 + 8 * i.val) = .skHi i) ∧ (∀ i : Fin 16, regLow (0x044 + 8 * i.val) = .skLo i) ∧
    (∀ j : Fin 5, regLow (0x0C0 + 4 * j.val) = .h j) ∧ (∀ j : Fin 16, regLow (0x100 + 4 * j.val) = .msg j) := by
  decide +kernel

theorem regAt_low (c : Config) (n : Nat) (h : n < 0x200) : regAt c (BitVec.ofNat 12 n) = regLow n := by
  have e : (BitVec.ofNat 12 n).toNat = n := by simp; omega
  simp only [regAt, e, h, if_true]

/-- A slot of a wide window. -/
theorem regAt_wide (c : Config) (j : Fin 128) :
    regAt c (BitVec.ofNat 12 (0x200 + 4 * j.val)) = wideSlot c .opa j ∧
    regAt c (BitVec.ofNat 12 (0x400 + 4 * j.val)) = wideSlot c .opb j ∧
    regAt c (BitVec.ofNat 12 (0x600 + 4 * j.val)) = wideSlot c .mod j ∧
    regAt c (BitVec.ofNat 12 (0x800 + 4 * j.val)) = wideSlot c .res j := by
  have hj := j.isLt
  have e : ∀ b, b ≤ 0x800 → (BitVec.ofNat 12 (b + 4 * j.val)).toNat = b + 4 * j.val := by intro b hb; simp; omega
  have k : ∀ b, Fin.ofNat 128 ((b + 4 * j.val - b) / 4) = j := by intro b; ext; simp [Fin.ofNat]
  refine ⟨?_, ?_, ?_, ?_⟩
  · simp only [regAt, e 0x200 (by omega), k, if_neg (show ¬ 0x200 + 4 * j.val < 0x200 by omega),
      if_pos (show 0x200 + 4 * j.val < 0x400 by omega)]
  · simp only [regAt, e 0x400 (by omega), k, if_neg (show ¬ 0x400 + 4 * j.val < 0x200 by omega),
      if_neg (show ¬ 0x400 + 4 * j.val < 0x400 by omega), if_pos (show 0x400 + 4 * j.val < 0x600 by omega)]
  · simp only [regAt, e 0x600 (by omega), k, if_neg (show ¬ 0x600 + 4 * j.val < 0x200 by omega),
      if_neg (show ¬ 0x600 + 4 * j.val < 0x400 by omega), if_neg (show ¬ 0x600 + 4 * j.val < 0x600 by omega),
      if_pos (show 0x600 + 4 * j.val < 0x800 by omega)]
  · simp only [regAt, e 0x800 (by omega), k, if_neg (show ¬ 0x800 + 4 * j.val < 0x200 by omega),
      if_neg (show ¬ 0x800 + 4 * j.val < 0x400 by omega), if_neg (show ¬ 0x800 + 4 * j.val < 0x600 by omega),
      if_neg (show ¬ 0x800 + 4 * j.val < 0x800 by omega), if_pos (show 0x800 + 4 * j.val < 0xA00 by omega)]

/-- The offset of a register names it. -/
theorem regAt_offsetOf (c : Config) (r : Reg) (h : r.present c = true) : regAt c (offsetOf r) = r := by
  cases r <;> try rfl
  all_goals
    rename_i j
    have hj := j.isLt
    simp only [offsetOf]
    simp only [Reg.present, decide_eq_true_eq] at h
  case skHi => rw [regAt_low c _ (by omega)]; exact regLow_offsetOf.1 j
  case skLo => rw [regAt_low c _ (by omega)]; exact regLow_offsetOf.2.1 j
  case h => rw [regAt_low c _ (by omega)]; exact regLow_offsetOf.2.2.1 j
  case msg => rw [regAt_low c _ (by omega)]; exact regLow_offsetOf.2.2.2 j
  case opa => rw [(regAt_wide c j).1]; exact wideSlot_of_lt c _ j h
  case opb => rw [(regAt_wide c j).2.1]; exact wideSlot_of_lt c _ j h
  case mod => rw [(regAt_wide c j).2.2.1]; exact wideSlot_of_lt c _ j h
  case res => rw [(regAt_wide c j).2.2.2]; exact wideSlot_of_lt c _ j h

/-- A register `wideSlot` gives is the one asked for. -/
theorem offsetOf_wideSlot (c : Config) (f : Fin 128 → Reg) (j : Fin 128) (h : wideSlot c f j ≠ .reserved) :
    wideSlot c f j = f j := by
  by_cases hj : j.val < c.words
  · exact wideSlot_of_lt c f j hj
  · exact absurd (by simp [wideSlot, hj]) h

/-- An admitted offset that names a register is that register's offset. -/
theorem offsetOf_regAt (c : Config) (off : Offset) (ha : off.toNat % 4 = 0) (hr : regAt c off ≠ .reserved) :
    offsetOf (regAt c off) = off := by
  have hlt := off.isLt
  have e : ∀ b, b % 4 = 0 → b ≤ off.toNat → off.toNat < b + 0x200 →
      BitVec.ofNat 12 (b + 4 * (Fin.ofNat 128 ((off.toNat - b) / 4)).val) = off := by
    intro b h0 h1 h2
    have : b + 4 * (Fin.ofNat 128 ((off.toNat - b) / 4)).val = off.toNat := by simp only [Fin.ofNat]; omega
    rw [this]; simp
  by_cases h0 : off.toNat < 0x200
  · obtain ⟨k, hk⟩ : ∃ k : Fin 128, 4 * k.val = off.toNat := ⟨⟨off.toNat / 4, by omega⟩, by simp only; omega⟩
    have ho : off = BitVec.ofNat 12 (4 * k.val) := by simp [hk]
    rw [ho, regAt_low c _ (by omega)] at hr ⊢
    exact offsetOf_regLow k hr
  · unfold regAt at hr ⊢
    simp only [h0, if_false] at hr ⊢
    split at hr
    · rw [if_pos ‹_›, offsetOf_wideSlot _ _ _ hr]; exact e 0x200 (by omega) (by omega) (by omega)
    · rw [if_neg ‹_›]
      split at hr
      · rw [if_pos ‹_›, offsetOf_wideSlot _ _ _ hr]; exact e 0x400 (by omega) (by omega) (by omega)
      · rw [if_neg ‹_›]
        split at hr
        · rw [if_pos ‹_›, offsetOf_wideSlot _ _ _ hr]; exact e 0x600 (by omega) (by omega) (by omega)
        · rw [if_neg ‹_›]
          split at hr
          · rw [if_pos ‹_›, offsetOf_wideSlot _ _ _ hr]; exact e 0x800 (by omega) (by omega) (by omega)
          · exact absurd rfl hr

/-- Two admitted offsets of one register are the same offset. -/
theorem regAt_inj (c : Config) (a b : Offset) (ha : a.toNat % 4 = 0) (hb : b.toNat % 4 = 0)
    (hr : regAt c a ≠ .reserved) (h : regAt c a = regAt c b) : a = b := by
  rw [← offsetOf_regAt c a ha hr, h, offsetOf_regAt c b hb (h ▸ hr)]

end Sys2Proof.Machine
end

