-- ==== Sys2Proof/Laws/Ops.lean ====
section
/-! SUPPORT. The shared operations, each said once: the write of an operand word, and what a bus write can do. -/
namespace Sys2Proof.Machine

/-- Writing a word changes that register's word only; a wide register must have the word. -/
theorem regWord_setOperandWord (s : State) (v : Word) (r q : Reg) (hr : r.isOperand = true)
    (hp : r.present s.cfg = true)
    (hl : s.opa.length = s.cfg.words ∧ s.opb.length = s.cfg.words ∧ s.mod.length = s.cfg.words) :
    (s.setOperandWord v r).regWord q = if q = r then v else s.regWord q := by
  obtain ⟨h1, h2, h3⟩ := hl
  have key : ∀ (l : List Word) (i j : Fin 128), i.val < l.length →
      (l.set i.val v).getD j.val 0 = if j = i then v else l.getD j.val 0 := by
    intro l i j hi
    by_cases h : j = i
    · subst h; simp [hi]
    · have h' : i.val ≠ j.val := fun e => h (Fin.ext e.symm)
      simp [h, List.getElem?_set_ne h']
  cases r <;> first | (simp only [Reg.isOperand, Bool.false_eq_true] at hr; done) | skip
  all_goals
    cases q <;> first | rfl | (simp [State.setOperandWord, State.regWord]; done) | skip
  case msg.msg i j =>
    simp only [State.setOperandWord, State.regWord]
    by_cases h : j = i
    · subst h; simp
    · have h' : i.val ≠ j.val := fun e => h (Fin.ext e.symm)
      simp [h, h']
  all_goals
    rename_i i j
    simp only [Reg.present, decide_eq_true_eq] at hp
    simp only [State.setOperandWord, State.regWord]
    rw [key _ _ _ (by omega)]
    simp

/-- Everything a bus write can do (spec/20_memory.md R87). -/
theorem busWrite_cases (off : Offset) (v : Word) (s : State) :
    (regAt s.cfg off = .ctrl ∧ busWrite off v s = writeCtrl v s) ∨
    (regAt s.cfg off = .status ∧ busWrite off v s = clearStatus v s) ∨
    (regAt s.cfg off = .cmd ∧ busWrite off v s = issue v s) ∨
    ((regAt s.cfg off).isOperand = true ∧ s.busy = true ∧ busWrite off v s = raise .overrun s) ∨
    ((regAt s.cfg off).isOperand = true ∧ s.busy = false ∧
      busWrite off v s = s.setOperandWord v (regAt s.cfg off)) ∨
    ((regAt s.cfg off).isOperand = false ∧ regAt s.cfg off ≠ .ctrl ∧ regAt s.cfg off ≠ .status ∧
      regAt s.cfg off ≠ .cmd ∧ busWrite off v s = s) := by
  unfold busWrite
  cases regAt s.cfg off <;> cases s.busy <;> simp [Reg.isOperand]

/-- Everything an issue can do (45_control R384). -/
theorem issue_cases (v : Word) (s : State) :
    (s.busy = true ∧ issue v s = raise .overrun s) ∨
    (s.busy = false ∧ legal v = true ∧ issue v s = { s with cmd := v, pend := some v }) ∨
    (s.busy = false ∧ legal v = false ∧ issue v s = raise .illegalCmd s) := by
  unfold issue
  cases s.busy <;> cases legal v <;> simp

/-- A word is legal exactly when the decoder gives a command. -/
theorem legal_iff (w : Word) : legal w = true ↔ ∃ i, decode w = .ok i := by
  unfold legal
  cases decode w <;> simp

/-- The fields an operand write leaves alone, and the lengths it keeps. -/
theorem setOperandWord_frame (s : State) (v : Word) (r : Reg) :
    s.setOperandWord v r =
      { s with key := (s.setOperandWord v r).key, din := (s.setOperandWord v r).din, msg := (s.setOperandWord v r).msg,
               opa := (s.setOperandWord v r).opa, opb := (s.setOperandWord v r).opb, mod := (s.setOperandWord v r).mod } ∧
    (s.setOperandWord v r).opa.length = s.opa.length ∧ (s.setOperandWord v r).opb.length = s.opb.length ∧
    (s.setOperandWord v r).mod.length = s.mod.length := by
  cases r <;> simp [State.setOperandWord]

end Sys2Proof.Machine
end

