-- ==== Sys2Proof/Laws/State.lean ====
section
/-! SUPPORT. One lemma a field for each named update of State, so that no proof unfolds a record update. -/
namespace Sys2Proof.Machine

@[simp] theorem setDout_cfg (s : State) (v : Block) : (s.setDout v).cfg = s.cfg := rfl
@[simp] theorem setDout_ie (s : State) (v : Block) : (s.setDout v).ie = s.ie := rfl
@[simp] theorem setDout_done (s : State) (v : Block) : (s.setDout v).done = s.done := rfl
@[simp] theorem setDout_err (s : State) (v : Block) : (s.setDout v).err = s.err := rfl
@[simp] theorem setDout_ecode (s : State) (v : Block) : (s.setDout v).ecode = s.ecode := rfl
@[simp] theorem setDout_cmd (s : State) (v : Block) : (s.setDout v).cmd = s.cmd := rfl
@[simp] theorem setDout_key (s : State) (v : Block) : (s.setDout v).key = s.key := rfl
@[simp] theorem setDout_din (s : State) (v : Block) : (s.setDout v).din = s.din := rfl
@[simp] theorem setDout_dout (s : State) (v : Block) : (s.setDout v).dout = v := rfl
@[simp] theorem setDout_sk (s : State) (v : Block) : (s.setDout v).sk = s.sk := rfl
@[simp] theorem setDout_h (s : State) (v : Block) : (s.setDout v).h = s.h := rfl
@[simp] theorem setDout_dglen (s : State) (v : Block) : (s.setDout v).dglen = s.dglen := rfl
@[simp] theorem setDout_msg (s : State) (v : Block) : (s.setDout v).msg = s.msg := rfl
@[simp] theorem setDout_opa (s : State) (v : Block) : (s.setDout v).opa = s.opa := rfl
@[simp] theorem setDout_opb (s : State) (v : Block) : (s.setDout v).opb = s.opb := rfl
@[simp] theorem setDout_mod (s : State) (v : Block) : (s.setDout v).mod = s.mod := rfl
@[simp] theorem setDout_res (s : State) (v : Block) : (s.setDout v).res = s.res := rfl
@[simp] theorem setDout_pend (s : State) (v : Block) : (s.setDout v).pend = s.pend := rfl
@[simp] theorem setDout_script (s : State) (v : Block) : (s.setDout v).script = s.script := rfl
@[simp] theorem setDout_reads (s : State) (v : Block) : (s.setDout v).reads = s.reads := rfl
@[simp] theorem setDout_draws (s : State) (v : Block) : (s.setDout v).draws = s.draws := rfl

@[simp] theorem setSk_cfg (s : State) (k : Vector Subkey 16) : (s.setSk k).cfg = s.cfg := rfl
@[simp] theorem setSk_ie (s : State) (k : Vector Subkey 16) : (s.setSk k).ie = s.ie := rfl
@[simp] theorem setSk_done (s : State) (k : Vector Subkey 16) : (s.setSk k).done = s.done := rfl
@[simp] theorem setSk_err (s : State) (k : Vector Subkey 16) : (s.setSk k).err = s.err := rfl
@[simp] theorem setSk_ecode (s : State) (k : Vector Subkey 16) : (s.setSk k).ecode = s.ecode := rfl
@[simp] theorem setSk_cmd (s : State) (k : Vector Subkey 16) : (s.setSk k).cmd = s.cmd := rfl
@[simp] theorem setSk_key (s : State) (k : Vector Subkey 16) : (s.setSk k).key = s.key := rfl
@[simp] theorem setSk_din (s : State) (k : Vector Subkey 16) : (s.setSk k).din = s.din := rfl
@[simp] theorem setSk_dout (s : State) (k : Vector Subkey 16) : (s.setSk k).dout = s.dout := rfl
@[simp] theorem setSk_sk (s : State) (k : Vector Subkey 16) : (s.setSk k).sk = k := rfl
@[simp] theorem setSk_h (s : State) (k : Vector Subkey 16) : (s.setSk k).h = s.h := rfl
@[simp] theorem setSk_dglen (s : State) (k : Vector Subkey 16) : (s.setSk k).dglen = s.dglen := rfl
@[simp] theorem setSk_msg (s : State) (k : Vector Subkey 16) : (s.setSk k).msg = s.msg := rfl
@[simp] theorem setSk_opa (s : State) (k : Vector Subkey 16) : (s.setSk k).opa = s.opa := rfl
@[simp] theorem setSk_opb (s : State) (k : Vector Subkey 16) : (s.setSk k).opb = s.opb := rfl
@[simp] theorem setSk_mod (s : State) (k : Vector Subkey 16) : (s.setSk k).mod = s.mod := rfl
@[simp] theorem setSk_res (s : State) (k : Vector Subkey 16) : (s.setSk k).res = s.res := rfl
@[simp] theorem setSk_pend (s : State) (k : Vector Subkey 16) : (s.setSk k).pend = s.pend := rfl
@[simp] theorem setSk_script (s : State) (k : Vector Subkey 16) : (s.setSk k).script = s.script := rfl
@[simp] theorem setSk_reads (s : State) (k : Vector Subkey 16) : (s.setSk k).reads = s.reads := rfl
@[simp] theorem setSk_draws (s : State) (k : Vector Subkey 16) : (s.setSk k).draws = s.draws := rfl

@[simp] theorem setDigest_cfg (s : State) (h : Vector Word 5) (l : Block) : (s.setDigest h l).cfg = s.cfg := rfl
@[simp] theorem setDigest_ie (s : State) (h : Vector Word 5) (l : Block) : (s.setDigest h l).ie = s.ie := rfl
@[simp] theorem setDigest_done (s : State) (h : Vector Word 5) (l : Block) : (s.setDigest h l).done = s.done := rfl
@[simp] theorem setDigest_err (s : State) (h : Vector Word 5) (l : Block) : (s.setDigest h l).err = s.err := rfl
@[simp] theorem setDigest_ecode (s : State) (h : Vector Word 5) (l : Block) : (s.setDigest h l).ecode = s.ecode := rfl
@[simp] theorem setDigest_cmd (s : State) (h : Vector Word 5) (l : Block) : (s.setDigest h l).cmd = s.cmd := rfl
@[simp] theorem setDigest_key (s : State) (h : Vector Word 5) (l : Block) : (s.setDigest h l).key = s.key := rfl
@[simp] theorem setDigest_din (s : State) (h : Vector Word 5) (l : Block) : (s.setDigest h l).din = s.din := rfl
@[simp] theorem setDigest_dout (s : State) (h : Vector Word 5) (l : Block) : (s.setDigest h l).dout = s.dout := rfl
@[simp] theorem setDigest_sk (s : State) (h : Vector Word 5) (l : Block) : (s.setDigest h l).sk = s.sk := rfl
@[simp] theorem setDigest_h (s : State) (h : Vector Word 5) (l : Block) : (s.setDigest h l).h = h := rfl
@[simp] theorem setDigest_dglen (s : State) (h : Vector Word 5) (l : Block) : (s.setDigest h l).dglen = l := rfl
@[simp] theorem setDigest_msg (s : State) (h : Vector Word 5) (l : Block) : (s.setDigest h l).msg = s.msg := rfl
@[simp] theorem setDigest_opa (s : State) (h : Vector Word 5) (l : Block) : (s.setDigest h l).opa = s.opa := rfl
@[simp] theorem setDigest_opb (s : State) (h : Vector Word 5) (l : Block) : (s.setDigest h l).opb = s.opb := rfl
@[simp] theorem setDigest_mod (s : State) (h : Vector Word 5) (l : Block) : (s.setDigest h l).mod = s.mod := rfl
@[simp] theorem setDigest_res (s : State) (h : Vector Word 5) (l : Block) : (s.setDigest h l).res = s.res := rfl
@[simp] theorem setDigest_pend (s : State) (h : Vector Word 5) (l : Block) : (s.setDigest h l).pend = s.pend := rfl
@[simp] theorem setDigest_script (s : State) (h : Vector Word 5) (l : Block) : (s.setDigest h l).script = s.script := rfl
@[simp] theorem setDigest_reads (s : State) (h : Vector Word 5) (l : Block) : (s.setDigest h l).reads = s.reads := rfl
@[simp] theorem setDigest_draws (s : State) (h : Vector Word 5) (l : Block) : (s.setDigest h l).draws = s.draws := rfl

@[simp] theorem setRes_cfg (s : State) (v : Nat) : (s.setRes v).cfg = s.cfg := rfl
@[simp] theorem setRes_ie (s : State) (v : Nat) : (s.setRes v).ie = s.ie := rfl
@[simp] theorem setRes_done (s : State) (v : Nat) : (s.setRes v).done = s.done := rfl
@[simp] theorem setRes_err (s : State) (v : Nat) : (s.setRes v).err = s.err := rfl
@[simp] theorem setRes_ecode (s : State) (v : Nat) : (s.setRes v).ecode = s.ecode := rfl
@[simp] theorem setRes_cmd (s : State) (v : Nat) : (s.setRes v).cmd = s.cmd := rfl
@[simp] theorem setRes_key (s : State) (v : Nat) : (s.setRes v).key = s.key := rfl
@[simp] theorem setRes_din (s : State) (v : Nat) : (s.setRes v).din = s.din := rfl
@[simp] theorem setRes_dout (s : State) (v : Nat) : (s.setRes v).dout = s.dout := rfl
@[simp] theorem setRes_sk (s : State) (v : Nat) : (s.setRes v).sk = s.sk := rfl
@[simp] theorem setRes_h (s : State) (v : Nat) : (s.setRes v).h = s.h := rfl
@[simp] theorem setRes_dglen (s : State) (v : Nat) : (s.setRes v).dglen = s.dglen := rfl
@[simp] theorem setRes_msg (s : State) (v : Nat) : (s.setRes v).msg = s.msg := rfl
@[simp] theorem setRes_opa (s : State) (v : Nat) : (s.setRes v).opa = s.opa := rfl
@[simp] theorem setRes_opb (s : State) (v : Nat) : (s.setRes v).opb = s.opb := rfl
@[simp] theorem setRes_mod (s : State) (v : Nat) : (s.setRes v).mod = s.mod := rfl
@[simp] theorem setRes_res (s : State) (v : Nat) : (s.setRes v).res = wordsOfNat s.cfg.words v := rfl
@[simp] theorem setRes_pend (s : State) (v : Nat) : (s.setRes v).pend = s.pend := rfl
@[simp] theorem setRes_script (s : State) (v : Nat) : (s.setRes v).script = s.script := rfl
@[simp] theorem setRes_reads (s : State) (v : Nat) : (s.setRes v).reads = s.reads := rfl
@[simp] theorem setRes_draws (s : State) (v : Nat) : (s.setRes v).draws = s.draws := rfl

@[simp] theorem setDone_cfg (s : State) : (setDone s).cfg = s.cfg := rfl
@[simp] theorem setDone_ie (s : State) : (setDone s).ie = s.ie := rfl
@[simp] theorem setDone_done (s : State) : (setDone s).done = true := rfl
@[simp] theorem setDone_err (s : State) : (setDone s).err = s.err := rfl
@[simp] theorem setDone_ecode (s : State) : (setDone s).ecode = s.ecode := rfl
@[simp] theorem setDone_cmd (s : State) : (setDone s).cmd = s.cmd := rfl
@[simp] theorem setDone_key (s : State) : (setDone s).key = s.key := rfl
@[simp] theorem setDone_din (s : State) : (setDone s).din = s.din := rfl
@[simp] theorem setDone_dout (s : State) : (setDone s).dout = s.dout := rfl
@[simp] theorem setDone_sk (s : State) : (setDone s).sk = s.sk := rfl
@[simp] theorem setDone_h (s : State) : (setDone s).h = s.h := rfl
@[simp] theorem setDone_dglen (s : State) : (setDone s).dglen = s.dglen := rfl
@[simp] theorem setDone_msg (s : State) : (setDone s).msg = s.msg := rfl
@[simp] theorem setDone_opa (s : State) : (setDone s).opa = s.opa := rfl
@[simp] theorem setDone_opb (s : State) : (setDone s).opb = s.opb := rfl
@[simp] theorem setDone_mod (s : State) : (setDone s).mod = s.mod := rfl
@[simp] theorem setDone_res (s : State) : (setDone s).res = s.res := rfl
@[simp] theorem setDone_pend (s : State) : (setDone s).pend = s.pend := rfl
@[simp] theorem setDone_script (s : State) : (setDone s).script = s.script := rfl
@[simp] theorem setDone_reads (s : State) : (setDone s).reads = s.reads := rfl
@[simp] theorem setDone_draws (s : State) : (setDone s).draws = s.draws := rfl

@[simp] theorem raise_cfg (s : State) (e : ErrCode) : (raise e s).cfg = s.cfg := rfl
@[simp] theorem raise_ie (s : State) (e : ErrCode) : (raise e s).ie = s.ie := rfl
@[simp] theorem raise_done (s : State) (e : ErrCode) : (raise e s).done = s.done := rfl
@[simp] theorem raise_err (s : State) (e : ErrCode) : (raise e s).err = true := rfl
@[simp] theorem raise_ecode (s : State) (e : ErrCode) : (raise e s).ecode = e.code := rfl
@[simp] theorem raise_cmd (s : State) (e : ErrCode) : (raise e s).cmd = s.cmd := rfl
@[simp] theorem raise_key (s : State) (e : ErrCode) : (raise e s).key = s.key := rfl
@[simp] theorem raise_din (s : State) (e : ErrCode) : (raise e s).din = s.din := rfl
@[simp] theorem raise_dout (s : State) (e : ErrCode) : (raise e s).dout = s.dout := rfl
@[simp] theorem raise_sk (s : State) (e : ErrCode) : (raise e s).sk = s.sk := rfl
@[simp] theorem raise_h (s : State) (e : ErrCode) : (raise e s).h = s.h := rfl
@[simp] theorem raise_dglen (s : State) (e : ErrCode) : (raise e s).dglen = s.dglen := rfl
@[simp] theorem raise_msg (s : State) (e : ErrCode) : (raise e s).msg = s.msg := rfl
@[simp] theorem raise_opa (s : State) (e : ErrCode) : (raise e s).opa = s.opa := rfl
@[simp] theorem raise_opb (s : State) (e : ErrCode) : (raise e s).opb = s.opb := rfl
@[simp] theorem raise_mod (s : State) (e : ErrCode) : (raise e s).mod = s.mod := rfl
@[simp] theorem raise_res (s : State) (e : ErrCode) : (raise e s).res = s.res := rfl
@[simp] theorem raise_pend (s : State) (e : ErrCode) : (raise e s).pend = s.pend := rfl
@[simp] theorem raise_script (s : State) (e : ErrCode) : (raise e s).script = s.script := rfl
@[simp] theorem raise_reads (s : State) (e : ErrCode) : (raise e s).reads = s.reads := rfl
@[simp] theorem raise_draws (s : State) (e : ErrCode) : (raise e s).draws = s.draws := rfl

@[simp] theorem clearStatus_cfg (s : State) (v : Word) : (clearStatus v s).cfg = s.cfg := rfl
@[simp] theorem clearStatus_ie (s : State) (v : Word) : (clearStatus v s).ie = s.ie := rfl
@[simp] theorem clearStatus_done (s : State) (v : Word) : (clearStatus v s).done = if v.getLsbD 1 then false else s.done := rfl
@[simp] theorem clearStatus_err (s : State) (v : Word) : (clearStatus v s).err = if v.getLsbD 2 then false else s.err := rfl
@[simp] theorem clearStatus_ecode (s : State) (v : Word) : (clearStatus v s).ecode = if v.getLsbD 2 then 0 else s.ecode := rfl
@[simp] theorem clearStatus_cmd (s : State) (v : Word) : (clearStatus v s).cmd = s.cmd := rfl
@[simp] theorem clearStatus_key (s : State) (v : Word) : (clearStatus v s).key = s.key := rfl
@[simp] theorem clearStatus_din (s : State) (v : Word) : (clearStatus v s).din = s.din := rfl
@[simp] theorem clearStatus_dout (s : State) (v : Word) : (clearStatus v s).dout = s.dout := rfl
@[simp] theorem clearStatus_sk (s : State) (v : Word) : (clearStatus v s).sk = s.sk := rfl
@[simp] theorem clearStatus_h (s : State) (v : Word) : (clearStatus v s).h = s.h := rfl
@[simp] theorem clearStatus_dglen (s : State) (v : Word) : (clearStatus v s).dglen = s.dglen := rfl
@[simp] theorem clearStatus_msg (s : State) (v : Word) : (clearStatus v s).msg = s.msg := rfl
@[simp] theorem clearStatus_opa (s : State) (v : Word) : (clearStatus v s).opa = s.opa := rfl
@[simp] theorem clearStatus_opb (s : State) (v : Word) : (clearStatus v s).opb = s.opb := rfl
@[simp] theorem clearStatus_mod (s : State) (v : Word) : (clearStatus v s).mod = s.mod := rfl
@[simp] theorem clearStatus_res (s : State) (v : Word) : (clearStatus v s).res = s.res := rfl
@[simp] theorem clearStatus_pend (s : State) (v : Word) : (clearStatus v s).pend = s.pend := rfl
@[simp] theorem clearStatus_script (s : State) (v : Word) : (clearStatus v s).script = s.script := rfl
@[simp] theorem clearStatus_reads (s : State) (v : Word) : (clearStatus v s).reads = s.reads := rfl
@[simp] theorem clearStatus_draws (s : State) (v : Word) : (clearStatus v s).draws = s.draws := rfl

@[simp] theorem busRead_cfg (s : State) (off : Offset) : (busRead off s).cfg = s.cfg := rfl
@[simp] theorem busRead_ie (s : State) (off : Offset) : (busRead off s).ie = s.ie := rfl
@[simp] theorem busRead_done (s : State) (off : Offset) : (busRead off s).done = s.done := rfl
@[simp] theorem busRead_err (s : State) (off : Offset) : (busRead off s).err = s.err := rfl
@[simp] theorem busRead_ecode (s : State) (off : Offset) : (busRead off s).ecode = s.ecode := rfl
@[simp] theorem busRead_cmd (s : State) (off : Offset) : (busRead off s).cmd = s.cmd := rfl
@[simp] theorem busRead_key (s : State) (off : Offset) : (busRead off s).key = s.key := rfl
@[simp] theorem busRead_din (s : State) (off : Offset) : (busRead off s).din = s.din := rfl
@[simp] theorem busRead_dout (s : State) (off : Offset) : (busRead off s).dout = s.dout := rfl
@[simp] theorem busRead_sk (s : State) (off : Offset) : (busRead off s).sk = s.sk := rfl
@[simp] theorem busRead_h (s : State) (off : Offset) : (busRead off s).h = s.h := rfl
@[simp] theorem busRead_dglen (s : State) (off : Offset) : (busRead off s).dglen = s.dglen := rfl
@[simp] theorem busRead_msg (s : State) (off : Offset) : (busRead off s).msg = s.msg := rfl
@[simp] theorem busRead_opa (s : State) (off : Offset) : (busRead off s).opa = s.opa := rfl
@[simp] theorem busRead_opb (s : State) (off : Offset) : (busRead off s).opb = s.opb := rfl
@[simp] theorem busRead_mod (s : State) (off : Offset) : (busRead off s).mod = s.mod := rfl
@[simp] theorem busRead_res (s : State) (off : Offset) : (busRead off s).res = s.res := rfl
@[simp] theorem busRead_pend (s : State) (off : Offset) : (busRead off s).pend = s.pend := rfl
@[simp] theorem busRead_script (s : State) (off : Offset) : (busRead off s).script = s.script := rfl
@[simp] theorem busRead_reads (s : State) (off : Offset) : (busRead off s).reads = s.reads ++ [(off, busReadValue off s)] := rfl
@[simp] theorem busRead_draws (s : State) (off : Offset) : (busRead off s).draws = if (regAt s.cfg off).isResult && s.busy then s.draws + 1 else s.draws := rfl

@[simp] theorem resetCore_cfg (s : State) : (resetCore s).cfg = s.cfg := rfl
@[simp] theorem resetCore_ie (s : State) : (resetCore s).ie = false := rfl
@[simp] theorem resetCore_done (s : State) : (resetCore s).done = false := rfl
@[simp] theorem resetCore_err (s : State) : (resetCore s).err = false := rfl
@[simp] theorem resetCore_ecode (s : State) : (resetCore s).ecode = 0 := rfl
@[simp] theorem resetCore_cmd (s : State) : (resetCore s).cmd = 0 := rfl
@[simp] theorem resetCore_key (s : State) : (resetCore s).key = 0 := rfl
@[simp] theorem resetCore_din (s : State) : (resetCore s).din = 0 := rfl
@[simp] theorem resetCore_dout (s : State) : (resetCore s).dout = 0 := rfl
@[simp] theorem resetCore_sk (s : State) : (resetCore s).sk = Vector.replicate 16 0 := rfl
@[simp] theorem resetCore_h (s : State) : (resetCore s).h = Config.dgIV := rfl
@[simp] theorem resetCore_dglen (s : State) : (resetCore s).dglen = 0 := rfl
@[simp] theorem resetCore_msg (s : State) : (resetCore s).msg = Vector.replicate 16 0 := rfl
@[simp] theorem resetCore_opa (s : State) : (resetCore s).opa = List.replicate s.cfg.words 0 := rfl
@[simp] theorem resetCore_opb (s : State) : (resetCore s).opb = List.replicate s.cfg.words 0 := rfl
@[simp] theorem resetCore_mod (s : State) : (resetCore s).mod = List.replicate s.cfg.words 0 := rfl
@[simp] theorem resetCore_res (s : State) : (resetCore s).res = List.replicate s.cfg.words 0 := rfl
@[simp] theorem resetCore_pend (s : State) : (resetCore s).pend = none := rfl
@[simp] theorem resetCore_script (s : State) : (resetCore s).script = s.script := rfl
@[simp] theorem resetCore_reads (s : State) : (resetCore s).reads = s.reads := rfl
@[simp] theorem resetCore_draws (s : State) : (resetCore s).draws = s.draws := rfl

@[simp] theorem resetOf_cfg (c : Config) : (State.resetOf c).cfg = c := rfl
@[simp] theorem resetOf_ie (c : Config) : (State.resetOf c).ie = false := rfl
@[simp] theorem resetOf_done (c : Config) : (State.resetOf c).done = false := rfl
@[simp] theorem resetOf_err (c : Config) : (State.resetOf c).err = false := rfl
@[simp] theorem resetOf_ecode (c : Config) : (State.resetOf c).ecode = 0 := rfl
@[simp] theorem resetOf_cmd (c : Config) : (State.resetOf c).cmd = 0 := rfl
@[simp] theorem resetOf_key (c : Config) : (State.resetOf c).key = 0 := rfl
@[simp] theorem resetOf_din (c : Config) : (State.resetOf c).din = 0 := rfl
@[simp] theorem resetOf_dout (c : Config) : (State.resetOf c).dout = 0 := rfl
@[simp] theorem resetOf_sk (c : Config) : (State.resetOf c).sk = Vector.replicate 16 0 := rfl
@[simp] theorem resetOf_h (c : Config) : (State.resetOf c).h = Config.dgIV := rfl
@[simp] theorem resetOf_dglen (c : Config) : (State.resetOf c).dglen = 0 := rfl
@[simp] theorem resetOf_msg (c : Config) : (State.resetOf c).msg = Vector.replicate 16 0 := rfl
@[simp] theorem resetOf_opa (c : Config) : (State.resetOf c).opa = List.replicate c.words 0 := rfl
@[simp] theorem resetOf_opb (c : Config) : (State.resetOf c).opb = List.replicate c.words 0 := rfl
@[simp] theorem resetOf_mod (c : Config) : (State.resetOf c).mod = List.replicate c.words 0 := rfl
@[simp] theorem resetOf_res (c : Config) : (State.resetOf c).res = List.replicate c.words 0 := rfl
@[simp] theorem resetOf_pend (c : Config) : (State.resetOf c).pend = none := rfl
@[simp] theorem resetOf_script (c : Config) : (State.resetOf c).script = [] := rfl
@[simp] theorem resetOf_reads (c : Config) : (State.resetOf c).reads = [] := rfl
@[simp] theorem resetOf_draws (c : Config) : (State.resetOf c).draws = 0 := rfl

@[simp] theorem busRead_core (s : State) (off : Offset) : (busRead off s).core = s.core := rfl
@[simp] theorem resetCore_core (s : State) : (resetCore s).core = CoreState.resetOf s.cfg := rfl
@[simp] theorem resetOf_core (c : Config) : (State.resetOf c).core = CoreState.resetOf c := rfl

end Sys2Proof.Machine
end

