-- ==== Sys2Proof/Laws/Exec.lean ====
section
/-! SUPPORT. What the completion of a command can do, over all sixteen (spec/45_control.md R385). -/
namespace Sys2Proof.Machine

@[simp] theorem complete_eq (s : State) : complete s = .next { s with done := true, pend := none } := rfl

@[simp] theorem completeError_eq (e : ErrCode) (s : State) :
    completeError e s = .next { s with err := true, ecode := e.code, pend := none } := rfl

/-- A command of the modular unit with the modulus 0: the only completion that raises (60_exceptions R406). -/
def modZero : Instr → State → Bool
  | .modexp _, s => s.operandM == 0
  | .modmul _, s => s.operandM == 0
  | _, _ => false

/-- Every command answers a next state, and this is all it can differ in: the result registers and the flags, PEND
becoming empty. -/
theorem exec_frame (i : Instr) (s : State) :
    ∃ t, exec i s = .next t ∧
      t = { s with dout := t.dout, sk := t.sk, h := t.h, dglen := t.dglen, res := t.res, pend := none,
                   done := s.done || !modZero i s, err := s.err || modZero i s,
                   ecode := if modZero i s then 2 else s.ecode } ∧
      (t.res = s.res ∨ t.res.length = s.cfg.words) := by
  cases i
  case modexp sb =>
    by_cases h : s.operandM = 0
    · refine ⟨_, by simp only [exec, execModexp, h, if_true, completeError_eq]; rfl, ?_⟩
      simp [modZero, h, ErrCode.code]
    · refine ⟨_, by simp only [exec, execModexp, h, if_false, complete_eq]; rfl, ?_⟩
      simp [modZero, h]
  case modmul sb =>
    by_cases h : s.operandM = 0
    · refine ⟨_, by simp only [exec, execModmul, h, if_true, completeError_eq]; rfl, ?_⟩
      simp [modZero, h, ErrCode.code]
    · refine ⟨_, by simp only [exec, execModmul, h, if_false, complete_eq]; rfl, ?_⟩
      simp [modZero, h]
  all_goals
    refine ⟨_, rfl, ?_⟩
    simp [modZero, setDone]

/-- With the modulus 0 a command of the modular unit raises MOD_ZERO and does nothing else (44_modexp R343). -/
theorem exec_of_modZero (i : Instr) (s : State) (h : modZero i s = true) :
    (∃ sb, i = .modexp sb ∨ i = .modmul sb) ∧ s.operandM = 0 ∧
    exec i s = .next { s with err := true, ecode := 2, pend := none } := by
  cases i
  case modexp sb =>
    have hm : s.operandM = 0 := by simpa [modZero] using h
    exact ⟨⟨sb, .inl rfl⟩, hm, by simp only [exec, execModexp, hm, if_true]; rfl⟩
  case modmul sb =>
    have hm : s.operandM = 0 := by simpa [modZero] using h
    exact ⟨⟨sb, .inr rfl⟩, hm, by simp only [exec, execModmul, hm, if_true]; rfl⟩
  all_goals simp [modZero] at h

/-- A command's effect on a machine is its effect on the machine round the same core: what stands beside the core passes
through (10_state R30; log 1). -/
theorem exec_of_core (i : Instr) (s u t : State) (hc : u.core = s.core) (hg : u.cfg = s.cfg) (h : exec i s = .next t) :
    exec i u = .next { u with core := t.core } := by
  obtain ⟨c, g, a, b, d⟩ := s
  obtain ⟨c', g', a', b', d'⟩ := u
  obtain rfl : c' = c := hc
  obtain rfl : g' = g := hg
  cases hm : modZero i ⟨c', g', a, b, d⟩ with
  | true =>
    have hm' : modZero i ⟨c', g', a', b', d'⟩ = true := by rw [← hm]; cases i <;> rfl
    rw [(exec_of_modZero i _ hm).2.2] at h
    rw [(exec_of_modZero i _ hm').2.2]
    injection h with h
    rw [← h]
  | false =>
    cases i
    case modexp sb =>
      have h0 : State.operandM ⟨c', g', a, b, d⟩ ≠ 0 := by simpa [modZero] using hm
      have e := ((if_neg h0).trans (complete_eq _)).symm.trans h
      injection e with e
      rw [← e]
      exact (if_neg h0).trans (complete_eq _)
    case modmul sb =>
      have h0 : State.operandM ⟨c', g', a, b, d⟩ ≠ 0 := by simpa [modZero] using hm
      have e := ((if_neg h0).trans (complete_eq _)).symm.trans h
      injection e with e
      rw [← e]
      exact (if_neg h0).trans (complete_eq _)
    all_goals
      injection h with h
      rw [← h]
      rfl

end Sys2Proof.Machine
end

