-- ==== Sys2Proof/Laws/Engine.lean ====
section
/-! SUPPORT. The steps of spec/45_control.md R386, each event said once, and the numbers a well-formed configuration fixes. -/
namespace Sys2Proof.Machine

/-- MXW is a multiple of 32 from 160 to 4096 (spec/00_scope.md R6), so a wide register has 5 to 128 words. -/
theorem words_bounds (c : Config) : 5 ≤ c.words ∧ c.words ≤ 128 ∧ c.raw.mxw = 32 * c.words := by
  have h := c.ok
  simp only [RawConfig.wf, RawConfig.mxwOk, Bool.and_eq_true, beq_iff_eq, decide_eq_true_eq] at h
  unfold Config.words
  omega

theorem applyEvent_write (off : Offset) (size : Nat) (v : Word) (s : State) : applyEvent (.write off size v) s =
    if accessOk off size then .next (busWrite off v s) else .refused .unadmittedAccess := rfl

theorem applyEvent_read (off : Offset) (size : Nat) (s : State) : applyEvent (.read off size) s =
    if accessOk off size then .next (busRead off s) else .refused .unadmittedAccess := rfl

@[simp] theorem applyEvent_engine (s : State) : applyEvent .engine s = engineStep s := rfl

@[simp] theorem applyEvent_hardReset (s : State) : applyEvent .hardReset s = .next (resetCore s) := rfl

theorem engineStep_of_none (s : State) (h : s.pend = none) : engineStep s = .next s := by simp [engineStep, h]

theorem engineStep_of_decode (s : State) (w : Word) (i : Instr) (h : s.pend = some w) (hd : decode w = .ok i) :
    engineStep s = exec i s := by simp [engineStep, h, hd]

/-- Everything an engine step can do (R385). -/
theorem engineStep_cases (s : State) :
    (s.pend = none ∧ engineStep s = .next s) ∨
    (∃ w i, s.pend = some w ∧ decode w = .ok i ∧ engineStep s = exec i s) ∨
    (∃ w, s.pend = some w ∧ legal w = false ∧ engineStep s = .refused .illegalPend) := by
  unfold engineStep legal
  cases hp : s.pend with
  | none => simp
  | some w => cases hd : decode w <;> simp [hd]

/-- Everything a step of R386 that answers can do. -/
theorem applyEvent_cases (e : Event) (s t : State) (h : applyEvent e s = .next t) :
    (∃ off v, e = .write off 4 v ∧ off.toNat % 4 = 0 ∧ t = busWrite off v s) ∨
    (∃ off, e = .read off 4 ∧ off.toNat % 4 = 0 ∧ t = busRead off s) ∨
    (e = .engine ∧ s.pend = none ∧ t = s) ∨
    (∃ w i, e = .engine ∧ s.pend = some w ∧ decode w = .ok i ∧ exec i s = .next t) ∨
    (e = .hardReset ∧ t = resetCore s) := by
  cases e with
  | write off size v =>
    rw [applyEvent_write] at h
    split at h
    · rename_i ha
      simp only [accessOk, Bool.and_eq_true, beq_iff_eq] at ha
      injection h with h
      exact .inl ⟨off, v, by rw [ha.1], ha.2, h.symm⟩
    · cases h
  | read off size =>
    rw [applyEvent_read] at h
    split at h
    · rename_i ha
      simp only [accessOk, Bool.and_eq_true, beq_iff_eq] at ha
      injection h with h
      exact .inr (.inl ⟨off, by rw [ha.1], ha.2, h.symm⟩)
    · cases h
  | engine =>
    rw [applyEvent_engine] at h
    rcases engineStep_cases s with ⟨hp, e⟩ | ⟨w, i, hp, hd, e⟩ | ⟨w, hp, hd, e⟩ <;> rw [e] at h
    · injection h with h; exact .inr (.inr (.inl ⟨rfl, hp, h.symm⟩))
    · exact .inr (.inr (.inr (.inl ⟨w, i, rfl, hp, hd, h⟩)))
    · cases h
  | hardReset =>
    injection h with h
    exact .inr (.inr (.inr (.inr ⟨rfl, h.symm⟩)))

/-- A write at an offset whose register is known. -/
theorem applyEvent_write_ctrl (s : State) (v : Word) : applyEvent (.write 0x008 4 v) s = .next (writeCtrl v s) := rfl

theorem applyEvent_write_status (s : State) (v : Word) : applyEvent (.write 0x00C 4 v) s = .next (clearStatus v s) := rfl

theorem applyEvent_write_cmd (s : State) (v : Word) : applyEvent (.write 0x010 4 v) s = .next (issue v s) := rfl

/-- A run of n + 1 steps is a step and a run of n. -/
theorem core_run_of_step (n : Nat) (s t : State) (h : step s = .next t) :
    Host.Core.run Sys2Proof.core (n + 1) s = Host.Core.run Sys2Proof.core n t := by
  refine (Host.Core.run.eq_2 Sys2Proof.core s n).trans ?_
  rw [show Sys2Proof.core.step s = .next t from h]

end Sys2Proof.Machine
end

