-- ==== Sys2Proof/Laws/Permute.lean ====
section
/-! SUPPORT. What `permute` computes, bit by bit (spec/40_permutation.md R201): the one lemma callers cite. -/
namespace Sys2Proof.Machine

/-- The fold of `permute`: bit `k` of the value, counted from the least significant end. -/
theorem permute_fold_testBit (b : Nat → Bool) (t : List Nat) (acc k : Nat) :
    (t.foldl (fun acc p => 2 * acc + (b p).toNat) acc).testBit k =
      if k < t.length then b (t.getD (t.length - 1 - k) 0) else acc.testBit (k - t.length) := by
  induction t generalizing acc with
  | nil => simp
  | cons p t ih =>
    rw [List.foldl_cons, ih]
    by_cases h1 : k < t.length
    · have h2 : t.length - k = (t.length - 1 - k) + 1 := by omega
      simp [h1, Nat.lt_succ_of_lt h1, h2]
    · by_cases h2 : k = t.length
      · subst h2; cases hb : b p <;> simp [hb]
      · have h3 : k - t.length = (k - (t.length + 1)) + 1 := by omega
        have h4 : ¬ k < t.length + 1 := by omega
        cases b p <;> simp [h1, h3, h4, Nat.testBit_succ] <;> congr 1 <;> omega

/-- Output bit i, counted from the most significant end, is the bit at position `T[i]` (R201). -/
theorem permute_getLsbD {w n : Nat} (x : BitVec w) (t : List Nat) (hn : t.length = n) (i : Nat) (hi : i < n) :
    (permute n x t).getLsbD (n - 1 - i) = bitAtPosition x (t.getD i 0) := by
  subst hn
  have h1 : t.length - 1 - i < t.length := by omega
  have h2 : t.length - 1 - (t.length - 1 - i) = i := by omega
  rw [permute, BitVec.getLsbD_ofNat, permute_fold_testBit, if_pos h1, h2]
  simp [h1]

end Sys2Proof.Machine
end

