-- ==== Sys2Proof/Laws/Feistel.lean ====
section
/-! SUPPORT. The substitution by nibbles, and what one round undoes (spec/42_feistel.md R261, R263, R265). -/
namespace Sys2Proof.Machine

/-- The low nibble of an appended nibble. -/
theorem extract_append_low {n : Nat} (a : BitVec n) (b : BitVec 4) : (a ++ b).extractLsb' 0 4 = b := by
  refine BitVec.eq_of_getLsbD_eq fun i hi => ?_
  rw [BitVec.getLsbD_extractLsb', BitVec.getLsbD_append]
  simp [hi]

/-- The nibbles above it. -/
theorem extract_append_high {n : Nat} (a : BitVec n) (b : BitVec 4) (k : Nat) :
    (a ++ b).extractLsb' (k + 4) 4 = a.extractLsb' k 4 := by
  refine BitVec.eq_of_getLsbD_eq fun i hi => ?_
  rw [BitVec.getLsbD_extractLsb', BitVec.getLsbD_append, BitVec.getLsbD_extractLsb']
  have h1 : ¬ k + 4 + i < 4 := by omega
  have h2 : k + 4 + i - 4 = k + i := by omega
  simp only [if_neg h1, h2]

/-- Nibble g of `S(x)`, group 0 giving the most significant (R261). -/
theorem sboxAll_nibble (row : Vector (BitVec 4) 16) (x : Subkey) (g : Nat) (hg : g < 8) :
    (sboxAll row x).extractLsb' (28 - 4 * g) 4 = sboxEntry row (sboxGroup x g) := by
  unfold sboxAll
  interval_cases g
  · exact ((((((extract_append_high _ _ 24).trans (extract_append_high _ _ 20)).trans (extract_append_high _ _ 16)).trans
      (extract_append_high _ _ 12)).trans (extract_append_high _ _ 8)).trans (extract_append_high _ _ 4)).trans
      ((extract_append_high _ _ 0).trans (BitVec.extractLsb'_eq_self))
  · exact ((((((extract_append_high _ _ 20).trans (extract_append_high _ _ 16)).trans (extract_append_high _ _ 12)).trans
      (extract_append_high _ _ 8)).trans (extract_append_high _ _ 4)).trans (extract_append_high _ _ 0)).trans
      (extract_append_low _ _)
  · exact (((((extract_append_high _ _ 16).trans (extract_append_high _ _ 12)).trans (extract_append_high _ _ 8)).trans
      (extract_append_high _ _ 4)).trans (extract_append_high _ _ 0)).trans (extract_append_low _ _)
  · exact ((((extract_append_high _ _ 12).trans (extract_append_high _ _ 8)).trans (extract_append_high _ _ 4)).trans
      (extract_append_high _ _ 0)).trans (extract_append_low _ _)
  · exact (((extract_append_high _ _ 8).trans (extract_append_high _ _ 4)).trans (extract_append_high _ _ 0)).trans
      (extract_append_low _ _)
  · exact ((extract_append_high _ _ 4).trans (extract_append_high _ _ 0)).trans (extract_append_low _ _)
  · exact (extract_append_high _ _ 0).trans (extract_append_low _ _)
  · exact extract_append_low _ _

/-- The column of group g, as a field of the input. -/
theorem sboxColOf_sboxGroup (x : Subkey) (g : Nat) (hg : g < 8) :
    sboxColOf (sboxGroup x g) = x.extractLsb' (43 - 6 * g) 4 := by
  refine BitVec.eq_of_getLsbD_eq fun i hi => ?_
  simp only [sboxColOf, sboxGroup, BitVec.getLsbD_extractLsb']
  have h1 : 1 + i < 6 := by omega
  have h2 : 42 - 6 * g + (1 + i) = 43 - 6 * g + i := by omega
  simp [hi, h1, h2]

/-- A round after the swapped round with the same subkey is the swap: the rounds undo each other (R263, R265). -/
theorem feistelRound_swap (c : Config) (lr : Word × Word) (k : Subkey) :
    (feistelRound c ((feistelRound c lr k).2, (feistelRound c lr k).1) k) = (lr.2, lr.1) := by
  simp [feistelRound]

end Sys2Proof.Machine
end

