-- ==== Sys2Proof/Laws/HostProgram.lean ====
section
/-! SUPPORT. A run of a host program (spec/70_reset_and_hazards.md R461), each operation said once. -/
namespace Sys2Proof.Machine

theorem HostRun.apply_of_next (e : Event) (r : HostRun) (t : State) (h : applyEvent e r.state = .next t) :
    r.apply e = .ok { r with state := t, trace := r.trace ++ [e] } := by simp [HostRun.apply, h]

/-- Everything a step of a run that succeeds does. -/
theorem HostRun.apply_eq_ok (e : Event) (r q : HostRun) (h : r.apply e = .ok q) :
    applyEvent e r.state = .next q.state ∧ q.turns = r.turns ∧ q.trace = r.trace ++ [e] := by
  unfold HostRun.apply at h
  cases ht : applyEvent e r.state <;> rw [ht] at h <;> cases h
  exact ⟨rfl, rfl, rfl⟩

/-- Everything a turn that succeeds does: the engine's step, or nothing; past the list it is the engine's step. -/
theorem HostRun.turn_eq_ok (r q : HostRun) (h : r.turn = .ok q) : q.turns = r.turns.tail ∧
    ((engineStep r.state = .next q.state ∧ q.trace = r.trace ++ [.engine]) ∨
     (r.turns.head? = some false ∧ q.state = r.state ∧ q.trace = r.trace)) := by
  unfold HostRun.turn at h
  split at h
  · obtain ⟨h1, h2, h3⟩ := HostRun.apply_eq_ok _ _ _ h
    exact ⟨by simp [*], .inl ⟨h1, h3⟩⟩
  · obtain ⟨h1, h2, h3⟩ := HostRun.apply_eq_ok _ _ _ h
    exact ⟨by simp [*], .inl ⟨h1, h3⟩⟩
  · cases h
    exact ⟨by simp [*], .inr ⟨by simp [*], rfl, rfl⟩⟩

/-- Everything a write that succeeds does: a turn, then the access. -/
theorem HostRun.write_eq_ok (off : Offset) (v : Word) (r q : HostRun) (h : r.write off v = .ok q) :
    ∃ u, r.turn = .ok u ∧ applyEvent (busW off v) u.state = .next q.state ∧ q.turns = u.turns ∧
      q.trace = u.trace ++ [busW off v] := by
  unfold HostRun.write at h
  cases hu : r.turn with
  | error e => rw [hu] at h; cases h
  | ok u => rw [hu] at h; exact ⟨u, rfl, HostRun.apply_eq_ok _ _ _ h⟩

/-- Everything a read that succeeds does: a turn, then the access, whose word it returns. -/
theorem HostRun.read_eq_ok (off : Offset) (r q : HostRun) (w : Word) (h : r.read off = .ok (q, w)) :
    ∃ u, r.turn = .ok u ∧ applyEvent (busR off) u.state = .next q.state ∧ w = busReadValue off u.state ∧
      q.turns = u.turns ∧ q.trace = u.trace ++ [busR off] := by
  unfold HostRun.read at h
  cases hu : r.turn with
  | error e => rw [hu] at h; cases h
  | ok u =>
    rw [hu] at h
    change (u.apply (busR off)).bind (fun t => .ok (t, busReadValue off u.state)) = _ at h
    cases ha : u.apply (busR off) with
    | error e => rw [ha] at h; cases h
    | ok t =>
      rw [ha] at h
      cases h
      obtain ⟨h1, h2, h3⟩ := HostRun.apply_eq_ok _ _ _ ha
      exact ⟨u, rfl, h1, rfl, h2, h3⟩

/-- With PEND empty every turn passes. -/
theorem HostRun.turn_of_idle (r : HostRun) (h : r.state.pend = none) :
    ∃ tr, r.turn = .ok { r with turns := r.turns.tail, trace := tr } := by
  have he : applyEvent .engine r.state = .next r.state := engineStep_of_none _ h
  obtain ⟨s, turns, tr⟩ := r
  match turns with
  | [] => exact ⟨_, HostRun.apply_of_next .engine ⟨s, [], tr⟩ s he⟩
  | true :: bs => exact ⟨_, HostRun.apply_of_next .engine ⟨s, bs, tr⟩ s he⟩
  | false :: _ => exact ⟨tr, rfl⟩

/-- A write from an idle core is the access. -/
theorem HostRun.write_of_idle (off : Offset) (v : Word) (r : HostRun) (t : State) (h : r.state.pend = none)
    (ht : applyEvent (busW off v) r.state = .next t) :
    ∃ tr, r.write off v = .ok ⟨t, r.turns.tail, tr⟩ := by
  obtain ⟨tr, hu⟩ := r.turn_of_idle h
  exact ⟨_, by unfold HostRun.write; rw [hu]; exact HostRun.apply_of_next _ ⟨r.state, r.turns.tail, tr⟩ t ht⟩

/-- A read from an idle core is the access. -/
theorem HostRun.read_of_idle (off : Offset) (r : HostRun) (h : r.state.pend = none) (ha : off.toNat % 4 = 0) :
    ∃ tr, r.read off = .ok (⟨busRead off r.state, r.turns.tail, tr⟩, busReadValue off r.state) := by
  obtain ⟨tr, hu⟩ := r.turn_of_idle h
  have ht : applyEvent (busR off) r.state = .next (busRead off r.state) := by
    rw [busR, applyEvent_read]; simp [accessOk, ha]
  refine ⟨tr ++ [busR off], ?_⟩
  unfold HostRun.read
  rw [hu]
  change (HostRun.apply (busR off) ⟨r.state, r.turns.tail, tr⟩).bind (fun t => .ok (t, busReadValue off r.state)) = _
  rw [HostRun.apply_of_next _ ⟨r.state, r.turns.tail, tr⟩ _ ht]
  rfl

/-- Bit 0 of STATUS is BUSY, bit 2 ERR, bits 7:4 ECODE (10_state R39). -/
theorem statusWord_fields (s : State) : s.statusWord.getLsbD 0 = s.busy ∧ s.statusWord.getLsbD 2 = s.err ∧
    s.statusWord.extractLsb' 4 4 = s.ecode := by
  unfold State.statusWord
  generalize s.busy = b
  generalize s.done = d
  generalize s.err = e
  generalize s.ecode = c
  revert b d e c
  decide

/-- STATUS reads its word, busy or idle. -/
theorem busReadValue_status (s : State) : busReadValue (offsetOf .status) s = s.statusWord := rfl

end Sys2Proof.Machine
end

