-- ==== Sys2Proof/Laws/Modular.lean ====
section
/-! SUPPORT. Square-and-multiply computes the power (spec/44_modexp.md R341), and a reduced value fits its register (R344). -/
namespace Sys2Proof.Machine

/-- For an exponent of at most `bits` bits the value is `b^e mod m`. -/
theorem powModBits_eq (bits b e m : Nat) (h : e < 2 ^ bits) : powModBits bits b e m = b ^ e % m := by
  induction bits generalizing b e with
  | zero =>
    have : e = 0 := by simpa using h
    simp [powModBits, this]
  | succ bits ih =>
    have he : e / 2 < 2 ^ bits := by
      rw [Nat.div_lt_iff_lt_mul (by omega)]; rwa [pow_succ] at h
    simp only [powModBits, ih _ _ he]
    have hsq : (b * b % m) ^ (e / 2) % m = (b ^ (2 * (e / 2))) % m := by
      rw [← Nat.pow_mod, pow_mul, pow_two]
    split
    · rename_i ho
      have hd : e = 2 * (e / 2) + 1 := by omega
      rw [hsq, Nat.mul_mod, Nat.mod_mod, ← Nat.mul_mod]
      conv_rhs => rw [hd, pow_succ, Nat.mul_comm]
    · rename_i ho
      have hd : e = 2 * (e / 2) := by omega
      rw [hsq, ← hd]

/-- `powMod b e m = b^e mod m`. -/
theorem powMod_eq (b e m : Nat) : powMod b e m = b ^ e % m :=
  powModBits_eq _ b e m Nat.lt_log2_self

/-- A value below the modulus, itself below 2^(32n), is held whole by n words. -/
theorem natOfWords_wordsOfNat_of_lt (n v : Nat) (h : v < 2 ^ (32 * n)) : natOfWords (wordsOfNat n v) = v := by
  rw [natOfWords_wordsOfNat, Nat.mod_eq_of_lt h]

end Sys2Proof.Machine
end

