-- ==== Sys2Proof/Laws/PerInstr.lean ====
section
/-! SUPPORT. The per-instruction family EncodeFields: the fields of each command's word (spec/30_encoding.md R120, R124). -/
namespace Sys2Proof.Laws.EncodeFields

/-- OP, N and SB of the command's word are the command's, and RSV1 and RSV2 are 0. -/
def Statement (i : Instr) : Prop :=
  opField (encode i) = opcodeOf i ∧ nField (encode i) = nOf i ∧ sbField (encode i) = sbOf i ∧
  rsv1Field (encode i) = 0 ∧ rsv2Field (encode i) = 0

theorem nop : Statement .nop := by unfold Statement; decide
theorem pip : Statement .pip := by unfold Statement; decide
theorem pfp : Statement .pfp := by unfold Statement; decide
theorem pexp : Statement .pexp := by unfold Statement; decide
theorem pperm : Statement .pperm := by unfold Statement; decide
theorem ppc2 : Statement .ppc2 := by unfold Statement; decide
theorem sbox : Statement .sbox := by unfold Statement; decide
theorem roundf : Statement .roundf := by unfold Statement; decide
theorem ksgen : Statement .ksgen := by unfold Statement; decide
theorem enc : Statement .enc := by unfold Statement; decide
theorem dec : Statement .dec := by unfold Statement; decide
theorem dginit : Statement .dginit := by unfold Statement; decide
theorem dgblock : Statement .dgblock := by unfold Statement; decide
theorem dgfinal (n : BitVec 6) : Statement (.dgfinal n) := by unfold Statement; revert n; decide +kernel
theorem modexp (sb : Bool) : Statement (.modexp sb) := by unfold Statement; revert sb; decide
theorem modmul (sb : Bool) : Statement (.modmul sb) := by unfold Statement; revert sb; decide

end Sys2Proof.Laws.EncodeFields
end

