-- ==== Sys2Proof/Tests/Slice0.lean ====
section
/-! SUPPORT. Tests: the well-formedness smoke, words decoded, one-step results from spec/95_test_vectors.md, and for each
statement that has hypotheses a state that meets them. Every expected value is the spec's: a vector id or a rule stands
beside it. -/
namespace Sys2Proof.Tests

-- One theorem at a time: many kernel evaluations at once ask for more threads than a small machine gives.
set_option Elab.async false

open Sys2Proof Sys2Proof.Machine Sys2Proof.Claim

/-! ## Well-formedness (00_scope R9, 40_permutation R207, 20_memory R82): each check refuses an ill-formed term -/

def ref : RawConfig := RawConfig.reference

theorem test_wf_reference : ref.wf = true := by decide +kernel

/-- R207 items 1 and 2: a table one entry short. -/
theorem test_wf_lengths :
    RawConfig.lengthsOk { ref with tableIP := ref.tableIP.tail } = false ∧
    RawConfig.lengthsOk { ref with tableFP := ref.tableFP.tail } = false ∧
    RawConfig.lengthsOk { ref with tableE := ref.tableE.tail } = false ∧
    RawConfig.lengthsOk { ref with tableP := ref.tableP.tail } = false ∧
    RawConfig.lengthsOk { ref with tablePC2 := ref.tablePC2.tail } = false := by decide +kernel

/-- R207 item 3: position 0. -/
theorem test_wf_entries : RawConfig.entriesOk { ref with tableP := 0 :: ref.tableP.tail } = false := by decide +kernel

/-- R207 item 4: an entry twice, another missing. -/
theorem test_wf_ip_permutes : RawConfig.ipPermutes { ref with tableIP := 50 :: ref.tableIP.tail } = false := by decide +kernel

/-- R207 item 5: TABLE_FP with two entries exchanged. -/
theorem test_wf_fp_inverts : RawConfig.fpInvertsIP { ref with tableFP := 8 :: 40 :: ref.tableFP.drop 2 } = false := by
  decide +kernel

/-- The range of MXW (00_scope R6): too small, too large, no multiple of 32. -/
theorem test_wf_mxw :
    RawConfig.mxwOk { ref with mxw := 128 } = false ∧ RawConfig.mxwOk { ref with mxw := 4128 } = false ∧
    RawConfig.mxwOk { ref with mxw := 1000 } = false ∧ RawConfig.mxwOk { ref with mxw := 160 } = true ∧
    RawConfig.mxwOk { ref with mxw := 4096 } = true := by decide +kernel

/-- An ill-formed record builds no configuration. -/
theorem test_build_refuses : Config.build? { ref with mxw := 128 } = none ∧
    Config.build? { ref with tableFP := ref.tableIP } = none := by decide +kernel

/-- R82: a byte, a half-word, a double word, a misaligned word. -/
theorem test_access_refused : accessOk 0x020 1 = false ∧ accessOk 0x020 2 = false ∧ accessOk 0x020 8 = false ∧
    accessOk 0x022 4 = false ∧ accessOk 0xFFC 4 = true := by decide

/-- R128, R129: the bounds of the host's statements. -/
theorem test_stmt_bounds :
    Stmt.wf Config.reference (.wr 0x021 0) = false ∧ Stmt.wf Config.reference (.rd 0x021) = false ∧ Stmt.wf Config.reference (.wr64 .dout 0) = false ∧
    Stmt.wf Config.reference (.wrbig .res 0) = false ∧ Stmt.wf Config.reference (.wrbig .opa (2 ^ 1024)) = false ∧
    Stmt.wf Config.reference (.wrbig .opa (2 ^ 1024 - 1)) = true ∧
    Stmt.wf Config.reference (.wrmsg (List.replicate 65 0)) = false := by decide +kernel

/-- R80: an address outside the window names no offset. -/
theorem test_window_bounds : Config.offsetOf? Config.reference 4096 = none ∧
    Config.offsetOf? Config.reference 4095 = some 0xFFF := by decide +kernel

/-! ## Decoding: words written out from 30_encoding R120 and R124 (RSV2 ‖ SB ‖ RSV1 ‖ N ‖ OP) -/

theorem test_decode_nop : decode 0b000000000000000_0_00_000000_00000000 = .ok .nop := by decide
theorem test_decode_pip : decode 0b000000000000000_0_00_000000_00010000 = .ok .pip := by decide
theorem test_decode_pfp : decode 0b000000000000000_0_00_000000_00010001 = .ok .pfp := by decide
theorem test_decode_pexp : decode 0b000000000000000_0_00_000000_00010010 = .ok .pexp := by decide
theorem test_decode_pperm : decode 0b000000000000000_0_00_000000_00010011 = .ok .pperm := by decide
theorem test_decode_ppc2 : decode 0b000000000000000_0_00_000000_00010100 = .ok .ppc2 := by decide
theorem test_decode_sbox : decode 0b000000000000000_0_00_000000_00011000 = .ok .sbox := by decide
theorem test_decode_roundf : decode 0b000000000000000_0_00_000000_00011001 = .ok .roundf := by decide
theorem test_decode_ksgen : decode 0b000000000000000_0_00_000000_00011010 = .ok .ksgen := by decide
theorem test_decode_enc : decode 0b000000000000000_0_00_000000_00011100 = .ok .enc := by decide
theorem test_decode_dec : decode 0b000000000000000_0_00_000000_00011101 = .ok .dec := by decide
theorem test_decode_dginit : decode 0b000000000000000_0_00_000000_00100000 = .ok .dginit := by decide
theorem test_decode_dgblock : decode 0b000000000000000_0_00_000000_00100001 = .ok .dgblock := by decide
theorem test_decode_dgfinal : decode 0b000000000000000_0_00_100001_00100010 = .ok (.dgfinal 33) := by decide
theorem test_decode_modexp : decode 0b000000000000000_1_00_000000_00110000 = .ok (.modexp true) := by decide
theorem test_decode_modmul : decode 0b000000000000000_1_00_000000_00110001 = .ok (.modmul true) := by decide

/-- V-CT-4, 7 to 11 and 13, each under the name of its class (R126). -/
theorem test_decode_illegal :
    decode 0x00004022 = .error .nonzeroReserved ∧ decode 0x00020030 = .error .nonzeroReserved ∧
    decode 0x00010010 = .error .nonzeroSB ∧ decode 0x00010022 = .error .nonzeroSB ∧
    decode 0x00000110 = .error .nonzeroN ∧ decode 0x00010000 = .error .nonzeroSB ∧
    decode 0x80000000 = .error .nonzeroReserved := by decide

/-- V-CT-12. -/
theorem test_decode_unlisted : ∀ w ∈ ([0x0F, 0x15, 0x1B, 0x1E, 0x23, 0x32, 0xFF] : List (BitVec 8)),
    decode (w.setWidth 32) = .error (.unlistedOpcode w) := by decide

/-! ## One step of each command -/

/-- The state after the command word `w`, run from `s`. -/
def after (w : Nat) (s : State) : State :=
  match step (s.withFetchWord 32 w) with
  | .next t => t
  | _ => s

/-- The 1024-bit register of a number. -/
def big (n : Nat) : List Word := (List.range 32).map fun j => BitVec.ofNat 32 (n / 2 ^ (32 * j))

/-- V-CT-21. -/
theorem test_nop : (after 0x00 State.reset).statusWord = 0x00000002 ∧ (after 0x00 State.reset).irq = false := by decide +kernel

/-- V-PERM-1, V-PERM-2. -/
theorem test_pip : (after 0x10 { State.reset with din := 0x0123456789ABCDEF }).dout = 0xCC00CCFFF0AAF0AA ∧
    (after 0x10 { State.reset with din := 1 }).dout = 0x0000008000000000 := by decide +kernel

/-- V-PERM-6, V-PERM-8. -/
theorem test_pfp : (after 0x11 { State.reset with din := 0x0123456789ABCDEF }).dout = 0xFF330FAA00330FAA ∧
    (after 0x11 { State.reset with din := 1 }).dout = 0x0200000000000000 := by decide +kernel

/-- V-PERM-10, V-PERM-14. -/
theorem test_pexp : (after 0x12 { State.reset with din := 0x0123456789ABCDEF }).dout = 0x0000C53D57E5BF5F ∧
    (after 0x12 { State.reset with din := 1 }).dout = 0x0000800000000002 := by decide +kernel

/-- V-PERM-15, V-PERM-16. -/
theorem test_pperm : (after 0x13 { State.reset with din := 0x0000000089ABCDEF }).dout = 0x0000000099DE6D6D ∧
    (after 0x13 { State.reset with din := 0x80000000 }).dout = 0x0000000000800000 := by decide +kernel

/-- V-PERM-19, V-PERM-21. -/
theorem test_ppc2 : (after 0x14 { State.reset with din := 0x0123456789ABCDEF }).dout = 0x0000921C7095F77B ∧
    (after 0x14 { State.reset with din := 0x0000804480242004 }).dout = 0 := by decide +kernel

/-- V-SB-7, V-SB-8. -/
theorem test_sbox : (after 0x18 { State.reset with din := 0x0123456789AB }).dout = 0x00000000EABD551F ∧
    (after 0x18 { State.reset with din := 0xFFFF000000000000 }).dout = 0x00000000EEEEEEEE := by decide +kernel

/-- V-F-5, V-F-1. -/
theorem test_roundf :
    (after 0x19 { State.reset with din := 0x89ABCDEF, key := 0x133457799BBCDFF1 }).dout = 0x99DCC15E ∧
    (after 0x19 State.reset).dout = 0x59FF97FD := by decide +kernel

/-- V-KS-4. -/
theorem test_ksgen :
    let t := after 0x1A { State.reset with key := 0x133457799BBCDFF1 }
    t.sk[0] = 0xF68C0FBFDDAD ∧ t.sk[6] = 0x0347F75BFEC7 ∧ t.sk[15] = 0x93F724F8FD3F ∧ t.dout = 0 := by decide +kernel

/-- The other reading of the key. -/
def high : Config := ⟨{ ref with ksExtract := .high56 }, by decide +kernel⟩

/-- V-KS-9. -/
theorem test_ksgen_high56 :
    let t := after 0x1A { State.resetOf high with key := 0x133457799BBCDFF1 }
    t.sk[0] = 0x627C9A65DF55 ∧ t.sk[1] = 0x1472A5FE9AD8 ∧ busReadValue 0x004 t = 0x00002400 := by decide +kernel

/-- V-ENC-2, with the subkeys of V-KS-4. -/
theorem test_enc :
    let t := after 0x1C { State.reset with key := 0x133457799BBCDFF1, din := 0x0123456789ABCDEF }
    t.dout = 0x2D4B4D86596021BA ∧ t.sk[15] = 0x93F724F8FD3F := by decide +kernel

/-- V-ENC-3; SK stays in encryption order (program P1). -/
theorem test_dec :
    let t := after 0x1D { State.reset with key := 0x133457799BBCDFF1, din := 0x2D4B4D86596021BA }
    t.dout = 0x0123456789ABCDEF ∧ t.sk[0] = 0xF68C0FBFDDAD := by decide +kernel

/-- 43_digest R301, R306. -/
theorem test_dginit :
    let t := after 0x20 { State.reset with h := Vector.replicate 5 7, dglen := 9, msg := Vector.replicate 16 5 }
    t.h[4] = 0xC3D2E1F0 ∧ t.dglen = 0 ∧ t.msg[15] = 5 := by decide +kernel

/-- V-DG-4. -/
theorem test_dgblock : (after 0x21 State.reset).h = #v[0x92B404E5, 0x56588CED, 0x6C1ACD4E, 0xBF053F68, 0x09F73A93] ∧
    (after 0x21 State.reset).dglen = 512 := by decide +kernel

/-- V-DG-5: bytes of MSG past the tail are not read; V-DG-2's value. -/
theorem test_dgfinal_one_block :
    (after 0x322 { State.reset with msg := ((Vector.replicate 16 0).set 0 0x616263FF).set 15 0xFFFFFFFF }).h =
      #v[0xA9993E36, 0x4706816A, 0xBA3E2571, 0x7850C26C, 0x9CD0D89D] := by decide +kernel

/-- V-DG-7: two blocks. -/
theorem test_dgfinal_two_blocks :
    (after 0x3822 { State.reset with msg := Vector.replicate 16 0x61616161 }).h =
      #v[0xC2DB330F, 0x6083854C, 0x99D4B5BF, 0xB6E8F29F, 0x201BE699] := by decide +kernel

/-- V-MX-13, V-MX-16. -/
theorem test_modexp :
    (after 0x30 { State.reset with opa := big 2, opb := big 1751, mod := big 2357 }).res = big 1185 ∧
    (after 0x10030 { State.reset with opa := big (2 ^ 1024 - 10), opb := big 1, mod := big 7 }).res = big 4 := by
  decide +kernel

/-- V-MX-2, V-MX-7, V-MX-19. -/
theorem test_modexp_corners :
    (after 0x30 { State.reset with opa := big 5, mod := big 1 }).res = big 0 ∧
    (after 0x30 { State.reset with opa := big 2357, mod := big 2357 }).res = big 1 ∧
    (after 0x30 { State.reset with opa := big 5, opb := big 3, res := big 9 }).res = big 9 ∧
    (after 0x30 { State.reset with opa := big 5, opb := big 3 }).statusWord = 0x00000024 := by decide +kernel

/-- V-MM-4, V-MM-2, V-MM-9. -/
theorem test_modmul :
    (after 0x31 { State.reset with opa := big (2 ^ 1024 - 1), opb := big (2 ^ 1024 - 1), mod := big 2357 }).res = big 2175 ∧
    (after 0x10031 { State.reset with opa := big (2 ^ 1024 - 2), opb := big 3, mod := big 7 }).res = big 1 ∧
    (after 0x31 { State.reset with opa := big 5, opb := big 6 }).statusWord = 0x00000024 := by decide +kernel

/-! ## Control, status and errors -/

/-- The state after the steps `es`. -/
def run (es : List Event) (s : State) : State :=
  match runEvents es s with
  | .next t => t
  | _ => s

/-- V-CT-20, V-CT-23 to V-CT-25. -/
theorem test_window :
    busReadValue 0x000 State.reset = 0x48493230 ∧ busReadValue 0x004 State.reset = 0x00000400 ∧
    run [busW 0x014 0x12345678, busW 0x000 0, busW 0x034 5, busW 0x280 7] State.reset = State.reset ∧
    busReadValue 0xFFC State.reset = 0 ∧ busReadValue 0x280 State.reset = 0 := by decide +kernel

/-- V-CT-22, V-CT-26, V-CT-28, V-CT-29. -/
theorem test_status :
    (run [busW 0x010 0] State.reset).statusWord = 0x00000001 ∧
    (run [busW 0x010 0, .engine, busW 0x00C 0xFFFFFFF9] State.reset).statusWord = 0x00000002 ∧
    (run [busW 0x010 0x15, busW 0x00C 0x000000F4] State.reset).statusWord = 0 ∧
    (run [busW 0x010 0x15, busW 0x010 0, .engine] State.reset).statusWord = 0x00000016 := by decide +kernel

/-- V-CT-31, V-CT-32. -/
theorem test_overrun :
    (run [busW 0x010 0, busW 0x010 0x15] State.reset).statusWord = 0x00000035 ∧
    (run [busW 0x010 0x1C, busW 0x02C 1, .engine] State.reset).statusWord = 0x00000036 ∧
    (run [busW 0x010 0x1C, busW 0x02C 1, .engine] State.reset).dout = 0x863E7A9F2121F421 := by decide +kernel

/-- V-CT-34 to V-CT-36. -/
theorem test_irq :
    (run [busW 0x008 1, busW 0x010 0, .engine] State.reset).irq = true ∧
    (run [busW 0x008 1, busW 0x010 0, .engine, busW 0x00C 2] State.reset).irq = false ∧
    (run [busW 0x010 0x15, busW 0x008 1] State.reset).irq = true := by decide +kernel

/-- V-CT-37 to V-CT-39. -/
theorem test_soft_reset :
    run [busW 0x008 3] State.reset = State.reset ∧
    run [busW 0x024 5, busW 0x010 0x1A, busW 0x008 2] State.reset = State.reset ∧
    (run [busW 0x024 5, busW 0x008 0xFFFFFFFC] State.reset).key = 5 := by decide +kernel

/-- A host run from `s` in which the engine's turns before the next accesses are `turns`. -/
def start (s : State) (turns : List Bool := []) : HostRun := ⟨s, turns, []⟩

/-- V-CODEC-2: encode, with the engine late in the `WAIT`, and decode of it. -/
theorem test_codec :
    (encodePayload 0x6B65790000000000 [0x41, 0x42, 0x43, 0x44, 0x45, 0x46, 0x47]
      (start State.reset (List.replicate 9 false))).map (·.2) = .ok [0xE8, 0x17, 0xDC, 0xD9, 0xFB, 0xDC, 0x1C, 0x85] ∧
    (decodePayload 0x6B65790000000000 [0xE8, 0x17, 0xDC, 0xD9, 0xFB, 0xDC, 0x1C, 0x85] (start State.reset)).map (·.2) =
      .ok [0x41, 0x42, 0x43, 0x44, 0x45, 0x46, 0x47] := by decide +kernel

/-- V-CODEC-9, and 42_feistel R272: the key string "key", an empty key, a longer one cut, a text that is not ASCII. -/
theorem test_keys_and_host_errors :
    (decodePayload 0 (List.replicate 7 0) (start State.reset)).map (·.2) = .error .invalidCiphertext ∧
    keyOfText "key" = .ok 0x6B65790000000000 ∧ keyOfText "" = .error .invalidKey ∧
    keyOfText "ABCDEFGHI" = .ok 0x4142434445464748 ∧ keyOfText "é" = .error .notAscii := by decide +kernel

/-- Program P4, steps 3 to 4 and 14: STATUS as `WAIT` ends, busy reads before it, and the values of a program's reads. -/
theorem test_wait :
    (runProgram [.wr 0x200 5, .wr 0x400 3, .cmd (.modexp false), .wait, .rd 0x800, .rd 0x010]
      (start State.reset [false, false, false, false, false])).map (·.2) = .ok [[], [], [], [0x24], [0], [0x30]] ∧
    (runProgram [.cmd .nop, .wait] (start State.reset [false, false, false])).map (fun r => r.1.state.reads) =
      .ok [(0x00C, 1), (0x00C, 1), (0x00C, 2)] := by decide +kernel

/-- 45_control R387: the check of STATUS.ERR, for MOD_ZERO and for a call that finds the core busy. -/
theorem test_call_checks_err :
    (modularOp (.modexp false) 5 3 (some 0) (start State.reset)).map (·.2) = .error (.core 2) ∧
    (cipherBlock .enc 1 2 (start { State.reset with pend := some 0 } (List.replicate 6 false))).map (·.2) =
      .error (.core 3) := by decide +kernel

/-- V-MX-23, and the range and key checks of 44_modexp R345, negative numbers among them. -/
theorem test_verify_checks :
    (verify [0x61, 0x62, 0x63] 2357 441 2357 2 1185 (start State.reset)).map (·.2) = .ok .reject ∧
    (verify [0x61, 0x62, 0x63] 1 0 2 1 1 (start State.reset)).map (·.2) = .error .invalidKey ∧
    (verify [0x61, 0x62, 0x63] 32 441 2357 2357 1185 (start State.reset)).map (·.2) = .error .invalidKey ∧
    (verify [0x61, 0x62, 0x63] 32 441 (-2357) 2 1185 (start State.reset)).map (·.2) = .ok .reject ∧
    (verify [0x61, 0x62, 0x63] 0 441 2357 2 (-1) (start State.reset)).map (·.2) = .ok .reject ∧
    (verify [0x61, 0x62, 0x63] 32 441 2357 (-2) (-1) (start State.reset)).map (·.2) = .error .invalidKey := by
  decide +kernel

/-- What WRBIG takes is written as it is (V-MX-20's y, and one above p); −1172 and 2^1024 are reduced modulo 2357, calculated outside Lean. -/
theorem test_verify_base :
    [1185, 3542, -1172, 2 ^ 1024].map (verifyBase Config.reference 2357) = [1185, 3542, 1185, 84] := by decide +kernel

/-! ## Witnesses: for every statement that has hypotheses, states and operands that meet them -/

/-- An idle state with flags set and operands in place. -/
def calm : State := { State.reset with
  done := true, err := true, ecode := 3, ie := true, key := 0x133457799BBCDFF1, din := 0x0123456789ABCDEF,
  opa := big (2 ^ 1024 - 10), opb := big 3, mod := big 2357 }

/-- ENC pending. -/
def busy : State := { calm with cmd := 0x0000001C, pend := some 0x0000001C }

/-- ENC pending, its turn the next step but one. -/
def running : State := { busy with script := [busR 0x030, .engine, busW 0x010 0x15] }

theorem calm_inv : calm.Inv :=
  ⟨by decide +kernel, by decide +kernel, by decide +kernel, by decide +kernel, by decide, nofun, by decide⟩

theorem busy_inv : busy.Inv :=
  ⟨by decide +kernel, by decide +kernel, by decide +kernel, by decide +kernel, by decide,
    fun _ h => (Option.some.inj h).symm, by decide⟩

/-- The same with the modulus 0. -/
def zeroMod : State := { calm with mod := big 0 }

theorem zeroMod_inv : zeroMod.Inv :=
  ⟨by decide +kernel, by decide +kernel, by decide +kernel, by decide +kernel, by decide, nofun, by decide⟩

/-- NOP pending. -/
def nopPending : State := { State.reset with pend := some 0 }

theorem nopPending_inv : nopPending.Inv :=
  ⟨by decide +kernel, by decide +kernel, by decide +kernel, by decide +kernel, by decide,
    fun _ h => (Option.some.inj h).symm, by decide⟩

theorem running_inv : running.Inv :=
  ⟨by decide +kernel, by decide +kernel, by decide +kernel, by decide +kernel, by decide,
    fun _ h => (Option.some.inj h).symm, by decide⟩

theorem witness_NopOnlySetsDone : calm.pend = none ∧ busy.pend ≠ none := ⟨rfl, nofun⟩

theorem witness_PipAndPfpUndoEachOther : ∃ t u v w : State, exec .pip calm = .next t ∧
    exec .pfp { t with din := t.dout } = .next u ∧ exec .pfp calm = .next v ∧
    exec .pip { v with din := v.dout } = .next w := ⟨_, _, _, _, rfl, rfl, rfl, rfl⟩

/-- Two inputs that differ in every edge bit. -/
theorem witness_SboxIgnoresGroupEdgeBits : ∃ s t s' t' : State, s.cfg = t.cfg ∧
    s.din &&& 0x79E79E79E79E = t.din &&& 0x79E79E79E79E ∧ s.din ≠ t.din ∧
    exec .sbox s = .next s' ∧ exec .sbox t = .next t' :=
  ⟨{ calm with din := 0 }, { calm with din := 0x861861861861 }, _, _, rfl, by decide, by decide, rfl, rfl⟩

/-- Under either reading, a key that differs in the byte it leaves out. -/
theorem witness_UnusedKeyByteReachesNothing :
    (calm.cfg.raw.ksExtract = .low56 ∧ (0xFF3457799BBCDFF1 : Block).extractLsb' 0 56 = calm.key.extractLsb' 0 56) ∧
    ((State.resetOf high).cfg.raw.ksExtract = .high56 ∧
      (0xFF : Block).extractLsb' 8 56 = (State.resetOf high).key.extractLsb' 8 56) := by decide +kernel

/-- Every n is a DGFINAL's; n at the ends of the two clauses. -/
theorem witness_DgfinalPadsAndCompresses : (0#6).toNat ≤ 55 ∧ (55#6).toNat ≤ 55 ∧ 56 ≤ (56#6).toNat ∧ 56 ≤ (63#6).toNat := by
  decide

/-- The modulus 0, and one with a base that is negative under SB = 1. -/
theorem witness_ModexpIsTheExactPower : (zeroMod.Inv ∧ natOfWords zeroMod.mod = 0) ∧
    calm.Inv ∧ natOfWords calm.mod ≠ 0 ∧ baseValue calm true = -10 :=
  ⟨⟨zeroMod_inv, by decide +kernel⟩, calm_inv, by decide +kernel, by decide +kernel⟩

theorem witness_ModmulIsTheExactProduct : (zeroMod.Inv ∧ natOfWords zeroMod.mod = 0) ∧
    calm.Inv ∧ natOfWords calm.mod ≠ 0 ∧ baseValue calm false = 2 ^ 1024 - 10 :=
  ⟨⟨zeroMod_inv, by decide +kernel⟩, calm_inv, by decide +kernel, by decide +kernel⟩

theorem witness_ModulusZeroRaisesModZero : natOfWords zeroMod.mod = 0 := by decide +kernel

theorem witness_ConfigurationNeverChanges : ∃ t, step busy = .next t ∧ t.pend = none := ⟨_, rfl, rfl⟩

/-- A word of each row, and one of none. -/
theorem witness_DecodeIsMaskAndMatch : decode 0x0000001C = .ok .enc ∧ decode 0x00000022 = .ok (.dgfinal 0) ∧
    decode 0x00000030 = .ok (.modexp false) ∧ decode 0x00010031 = .ok (.modmul true) ∧ legal 0x00000015 = false := by
  decide

/-- A word for each clause. -/
theorem witness_IllegalWordsAreRejected :
    (0x00000015 : Word).extractLsb' 0 8 = 0x15 ∧ (0x00000110 : Word).extractLsb' 8 6 ≠ 0 ∧
    (0x00010022 : Word).getLsbD 16 = true ∧ (0x00004022 : Word).extractLsb' 14 2 ≠ 0 ∧
    (0x80000000 : Word).extractLsb' 17 15 ≠ 0 := by decide

theorem witness_ResetGivesTheResetState : (0x00000003 : Word).getLsbD 1 = true := by decide

theorem witness_ResetStateIsWhatAResetLeaves : busy.cfg = Config.reference := rfl

theorem witness_CtrlWriteSetsIeOrResets : (0xFFFFFFFD : Word).getLsbD 1 = false ∧ (0x00000003 : Word).getLsbD 1 = true := by
  decide

/-- Busy; idle with an illegal word; idle with a legal one. -/
theorem witness_CmdWriteIssuesOrRaises : busy.pend ≠ none ∧
    (calm.pend = none ∧ ∀ i, decode 0x00000015 ≠ .ok i) ∧ (calm.pend = none ∧ decode 0x0000001C = .ok .enc) := by
  refine ⟨nofun, ⟨rfl, fun i h => ?_⟩, rfl, by decide⟩
  have e : decode 0x00000015 = .error (.unlistedOpcode 0x15) := by decide
  rw [e] at h
  cases h

theorem witness_StickyFlagsStaySet : (∃ t, applyEvent (.write 0x010 4 0x10) calm = .next t) ∧ calm.done = true ∧
    calm.err = true ∧ (0x010 : Offset) ≠ 0x00C ∧ (0x010 : Offset) ≠ 0x008 := ⟨⟨_, rfl⟩, by decide⟩

/-- A byte at an aligned offset, a word at a misaligned one, and an admitted access at the last offset. -/
theorem witness_OnlyAlignedWordAccessesHaveAMeaning : (1 ≠ 4 ∨ (0x020 : Offset).toNat % 4 ≠ 0) ∧
    (4 ≠ 4 ∨ (0x021 : Offset).toNat % 4 ≠ 0) ∧ (0xFFC : Offset).toNat % 4 = 0 := by decide

theorem words_reference : Config.reference.words = 32 := by decide +kernel

/-- The first and last offset of every reserved range of the reference configuration. -/
theorem witness_reserved_offsets : ∀ a ∈ [0x014, 0x01C, 0x038, 0x03C, 0x0D4, 0x0E0, 0x0FC, 0x140, 0x1FC, 0x280, 0x3FC, 0x480,
    0x5FC, 0x680, 0x7FC, 0x880, 0xFFC], reservedOffset Config.reference a ∧ a % 4 = 0 := by
  simp only [reservedOffset, words_reference]
  decide

/-- The first and last offset of every range of operand words. -/
theorem witness_operand_offsets : ∀ a ∈ [0x020, 0x024, 0x028, 0x02C, 0x100, 0x13C, 0x200, 0x27C, 0x400, 0x47C, 0x600, 0x67C],
    operandOffset Config.reference a ∧ a % 4 = 0 := by
  simp only [operandOffset, words_reference]
  decide

/-- The first and last offset of every range of read-only words. -/
theorem witness_read_only_offsets : ∀ a ∈ [0x000, 0x004, 0x030, 0x034, 0x040, 0x0BC, 0x0C0, 0x0D0, 0x0D8, 0x0DC, 0x800, 0x87C],
    readOnlyOffset Config.reference a ∧ a % 4 = 0 := by
  simp only [readOnlyOffset, words_reference]
  decide

/-- The last word of a wide register, and the reserved one after it. -/
theorem witness_WindowReadsEachRegister : 31 < calm.cfg.words ∧ ¬ 32 < calm.cfg.words ∧
    reservedOffset calm.cfg 0x280 ∧ 0x280 % 4 = 0 :=
  ⟨by decide +kernel, by decide +kernel, (witness_reserved_offsets 0x280 (by decide)).1, by decide⟩

theorem witness_ReadsChangeNoRegister : (0x87C : Offset).toNat % 4 = 0 ∧ busy.pend ≠ none ∧
    readOnlyOffset busy.cfg (0x87C : Offset).toNat ∧ (0x87C : Offset).toNat ≠ 0x000 ∧ (0x87C : Offset).toNat ≠ 0x004 :=
  ⟨by decide, nofun, (witness_read_only_offsets 0x87C (by decide)).1, by decide, by decide⟩

theorem witness_OperandWriteLandsInItsWordOnly : calm.Inv ∧ calm.pend = none ∧ (0x67C : Offset).toNat % 4 = 0 ∧
    operandOffset calm.cfg (0x67C : Offset).toNat :=
  ⟨calm_inv, rfl, by decide, (witness_operand_offsets 0x67C (by decide)).1⟩

theorem witness_BusyOperandWriteRaisesOverrun : busy.pend ≠ none ∧ (0x13C : Offset).toNat % 4 = 0 ∧
    operandOffset busy.cfg (0x13C : Offset).toNat ∧ readOnlyOffset busy.cfg (0x0DC : Offset).toNat ∧
    reservedOffset busy.cfg (0x0D4 : Offset).toNat :=
  ⟨nofun, by decide, (witness_operand_offsets 0x13C (by decide)).1, (witness_read_only_offsets 0x0DC (by decide)).1,
    (witness_reserved_offsets 0x0D4 (by decide)).1⟩

theorem witness_ReadOnlyAndReservedIgnoreWrites : (0x800 : Offset).toNat % 4 = 0 ∧
    readOnlyOffset calm.cfg (0x800 : Offset).toNat ∧ reservedOffset calm.cfg (0x7FC : Offset).toNat :=
  ⟨by decide, (witness_read_only_offsets 0x800 (by decide)).1, (witness_reserved_offsets 0x7FC (by decide)).1⟩

/-- The engine's turn at the head of the steps to come, and no step left. -/
theorem witness_StepRunsThePendingCommand : decode 0x0000001C = .ok .enc ∧ busy.pend = some 0x0000001C ∧ busy.script = [] ∧
    ({ busy with script := [.engine] } : State).script = .engine :: [] := by decide +kernel

theorem witness_StepFollowsTheScript : running.script = busR 0x030 :: [.engine, busW 0x010 0x15] ∧ calm.ended ∧
    calm.pend = none := ⟨rfl, ⟨rfl, rfl⟩, rfl⟩

theorem witness_EveryStepKeepsTheInvariant : (running.Inv ∧ ∃ t, step running = .next t) ∧
    (busy.Inv ∧ ∃ t, step busy = .next t) := ⟨⟨running_inv, _, rfl⟩, busy_inv, _, rfl⟩

theorem witness_AdmittedStepsAnswer : running.Inv ∧ ∀ e es, running.script = e :: es → e.admitted = true :=
  ⟨running_inv, fun _ _ h => by injection h with h _; subst h; decide⟩

/-- A read, a write that raises OVERRUN, a clearing of STATUS and an unmasking. -/
theorem witness_PendingCommandCannotBeDisturbed : busy.pend = some 0x0000001C ∧ decode 0x0000001C = .ok .enc ∧
    ∀ e ∈ [busR 0x030, busW 0x02C 1, busW 0x00C 6, busW 0x008 1], e.admitted = true ∧ e.hostNoReset busy.cfg = true := by
  decide +kernel

theorem witness_HostAccessesWriteNoResult : Event.hostNoReset calm.cfg (busW 0x02C 1) = true ∧
    ∃ t, applyEvent (busW 0x02C 1) calm = .next t := ⟨by decide +kernel, _, rfl⟩

/-- A state without ERR, in which a write to CMD raises at issue and MODEXP at completion. -/
theorem witness_ErrorsArePrecise : State.reset.err = false ∧
    (∃ t, applyEvent (busW 0x010 0x15) State.reset = .next t ∧ t.err = true) ∧
    (∃ t, applyEvent .engine { State.reset with pend := some 0x00000030 } = .next t ∧ t.err = true) := by
  have hm : ({ State.reset with pend := some 0x00000030 } : State).operandM = 0 := by decide +kernel
  exact ⟨rfl, ⟨_, rfl, by decide +kernel⟩, _, (if_pos hm : execModexp false _ = _), rfl⟩

theorem witness_EveryRunEnds : running.Inv ∧ ∀ e ∈ running.script, e.admitted = true := ⟨running_inv, by decide⟩

theorem witness_IssueThenEngineIsTheCommand : calm.pend = none := rfl

theorem witness_BlockCodecRoundTrip : (start calm [false, true]).state.pend = none := rfl

/-- For VerifyRejectsOutOfRange: r = 0, r = p, s = −1 and s = p − 1 for p = 2357 (V-MX-22 to V-MX-24), and p = −1. -/
theorem witness_VerifyRejectsOutOfRange : (0 : Int) ≤ 0 ∧ (2357 : Int) ≤ 2357 ∧ (-1 : Int) < 0 ∧
    (2357 : Int) - 1 ≤ 2356 ∧ (-1 : Int) ≤ 1 := by decide

/-- p = 2 with r = 1 and s = 0; g = 1, g = −2 and g = p. -/
theorem witness_VerifyRefusesAKeyOutOfDomain : ((0 : Int) < 1 ∧ (1 : Int) < 2 ∧ (0 : Int) ≤ 0 ∧ (0 : Int) < 2 - 1) ∧
    ((0 : Int) < 32 ∧ (32 : Int) < 2357 ∧ (0 : Int) ≤ 441 ∧ (441 : Int) < 2357 - 1) ∧ (1 : Int) ≤ 1 ∧ (-2 : Int) ≤ 1 := by
  decide

/-- V-MX-20: p = 2357, g = 2, (r, s) = (32, 441). -/
theorem witness_VerifyDecidesTheCriterion : (start calm [false]).state.Inv ∧ (start calm [false]).state.pend = none ∧
    ((0 : Int) < 32 ∧ (32 : Int) < 2357 ∧ (0 : Int) ≤ 441 ∧ (441 : Int) < 2357 - 1) ∧
    ((2 : Int) < 2357 ∧ (1 : Int) < 2 ∧ (2 : Int) < 2357) ∧ (2357 : Int) < ((2 ^ calm.cfg.raw.mxw : Nat) : Int) :=
  ⟨calm_inv, rfl, by decide, by decide, by decide +kernel⟩

/-- A text outside ASCII, and one inside that is longer than eight characters. -/
theorem witness_KeyTextIsNormalised : (∃ ch ∈ "é".toList, 128 ≤ ch.toNat) ∧
    (∀ ch ∈ "ABCDEFGHI".toList, ch.toNat < 128) ∧ "ABCDEFGHI".toList ≠ [] :=
  ⟨⟨'é', by simp, by decide⟩, by simp, by simp⟩

theorem witness_CoreStateAloneDecidesTheCore : (∃ t, applyEvent .engine busy = .next t) ∧
    ∃ t, applyEvent (busR 0x030) busy = .next t := ⟨⟨_, rfl⟩, _, rfl⟩

theorem witness_WaitReadsUntilIdle : (start busy [false, false]).state.Inv := busy_inv

theorem witness_HostProgramIsAnInterleaving :
    (runProgram [.clr, .rd64 .key] (start calm [true])).isOk = true ∧ Stmt.wait ∉ [Stmt.clr, .rd64 .key] := by decide +kernel

theorem witness_HostCallIsTheCommand : (start calm [false]).state.Inv ∧ (start calm [false]).state.pend = none ∧
    [Stmt.wrbig .mod 0, .wr64 .key 1].all (Stmt.wf calm.cfg) = true ∧
    [Stmt.wrbig .mod 0, .wr64 .key 1].all Stmt.writesOperands = true := ⟨calm_inv, rfl, by decide +kernel, by decide⟩

/-- From a busy core whose engine moves before the second access. -/
theorem witness_HostCallNeverHidesAnError : (start nopPending [false, true]).state.Inv ∧
    [Stmt.wr64 .din 1].all Stmt.writesOperands = true ∧
    (hostCall [.wr64 .din 1] .pip (start nopPending [false, true])).map (fun q => q.state.cmd) = .ok 0x10 :=
  ⟨nopPending_inv, by decide, by decide +kernel⟩

end Sys2Proof.Tests
end

section
/-! Permutations as functions of bit positions, for R201 and R207 (spec/40_permutation.md). A value is its bits at the
positions 1..w, so composing two tables of R201 composes their entries, and two positions that agree on every value are
one position. -/
namespace Sys2Proof.Machine
open Sys2Proof.Claim

theorem bitAtPosition_succ {w : Nat} (x : BitVec w) {i : Nat} (hi : i < w) :
    bitAtPosition x (i + 1) = x.getLsbD (w - 1 - i) := by
  rw [bitAtPosition, if_pos (by omega), Nat.sub_sub, Nat.add_comm 1 i]

@[simp] theorem bitAtPosition_zero {w : Nat} (x : BitVec w) : bitAtPosition x 0 = false := rfl

theorem bitAtPosition_of_lt {w : Nat} (x : BitVec w) {p : Nat} (hp : w < p) : bitAtPosition x p = false :=
  if_neg (by omega)

/-- A value is determined by its bits at the positions 1..w. -/
theorem eq_iff_bitAtPosition {w : Nat} {x y : BitVec w} :
    x = y ↔ ∀ i < w, bitAtPosition x (i + 1) = bitAtPosition y (i + 1) := by
  refine ⟨fun h _ _ => h ▸ rfl, fun h => BitVec.eq_of_getLsbD_eq fun i hi => ?_⟩
  have hbit := h (w - 1 - i) (by omega)
  rwa [bitAtPosition_succ x (by omega), bitAtPosition_succ y (by omega), Nat.sub_sub_self (by omega)] at hbit

/-- The value whose one bit is at position `q`. -/
theorem bitAtPosition_twoPow {w p q : Nat} (hq : 1 ≤ q) (hqw : q ≤ w) :
    bitAtPosition (BitVec.twoPow w (w - q)) p = decide (p = q) := by
  rw [bitAtPosition, BitVec.getLsbD_twoPow, Bool.eq_iff_iff]
  split
  · simp only [Bool.and_eq_true, decide_eq_true_eq]; omega
  · simp only [Bool.false_eq_true, decide_eq_true_eq, false_iff]; omega

/-- The value with one bit, at position `q`, tells `q` from every other position. -/
theorem bitAtPosition_inj {w p q : Nat} (hq : 1 ≤ q) (hqw : q ≤ w) :
    (∀ x : BitVec w, bitAtPosition x p = bitAtPosition x q) ↔ p = q :=
  ⟨fun h => by simpa [bitAtPosition_twoPow hq hqw] using h (BitVec.twoPow w (w - q)), fun h _ => h ▸ rfl⟩

/-- R201 written bit by bit names the value `permute` computes. -/
theorem isPermuted_iff {w n : Nat} {x : BitVec w} {t : List Nat} {y : BitVec n} (hn : t.length = n) :
    IsPermuted x t y ↔ y = permute n x t := by
  refine Iff.trans (forall₂_congr fun i hi => ?_) eq_iff_bitAtPosition.symm
  rw [bitAtPosition_succ y hi, bitAtPosition_succ _ hi, permute_getLsbD x t hn i hi, bitAtPosition]

/-- The bit of a permuted value at a position is the input's bit at the table's entry there. Past the table both are 0. -/
theorem bitAtPosition_permute {w n p : Nat} (x : BitVec w) (t : List Nat) (hn : t.length = n) (hp : 1 ≤ p) :
    bitAtPosition (permute n x t) p = bitAtPosition x (t.getD (p - 1) 0) := by
  obtain ⟨i, rfl⟩ := Nat.exists_eq_add_of_le' hp
  by_cases hi : i < n
  · rw [bitAtPosition_succ _ hi, permute_getLsbD x t hn i hi, Nat.add_sub_cancel]
  · rw [bitAtPosition_of_lt _ (by omega), List.getD_eq_default _ _ (by omega), bitAtPosition_zero]

end Sys2Proof.Machine
end

section
/-! The check at construction against R207 and the range of MXW, item by item. -/
namespace Sys2Proof.Machine
open Sys2Proof.Claim

/-- `build?` gives a configuration for a record exactly when the check accepts it. -/
theorem build?_iff_wf (c : RawConfig) : (∃ g : Config, Config.build? c = some g ∧ g.raw = c) ↔ c.wf = true := by
  constructor
  · rintro ⟨g, -, rfl⟩
    exact g.ok
  · intro h
    exact ⟨⟨c, h⟩, dif_pos h, rfl⟩

/-- R207 items 1 and 2. -/
theorem lengthsOk_iff (c : RawConfig) : c.lengthsOk = true ↔ c.tableIP.length = 64 ∧ c.tableFP.length = 64 ∧
    c.tableE.length = 48 ∧ c.tableP.length = 32 ∧ c.tablePC2.length = 48 := by
  simp [RawConfig.lengthsOk, and_assoc]

/-- R207 item 3. -/
theorem entriesOk_iff (c : RawConfig) : c.entriesOk = true ↔
    ∀ t ∈ [c.tableIP, c.tableFP, c.tableE, c.tableP, c.tablePC2], ∀ p ∈ t, 1 ≤ p := by
  simp [RawConfig.entriesOk, or_imp, forall_and]

/-- R207 item 4: 64 entries that hold every position 1..64 hold each once. -/
theorem ipPermutes_iff (c : RawConfig) (hlen : c.tableIP.length = 64) :
    c.ipPermutes = true ↔ c.tableIP.Perm (List.range' 1 64) := by
  simp only [RawConfig.ipPermutes, List.all_eq_true, List.mem_range, List.contains_iff_mem]
  constructor
  · intro h
    have hsub : List.range' 1 64 ⊆ c.tableIP := fun p hp => by
      obtain ⟨k, hk, rfl⟩ := List.mem_range'.1 hp
      simpa [Nat.add_comm] using h k hk
    exact ((List.subperm_of_subset List.nodup_range' hsub).perm_of_length_le (by simp [hlen])).symm
  · intro h k hk
    exact h.mem_iff.2 (List.mem_range'_1.2 (by omega))

/-- R207 item 5: the tables compose to the identity on positions exactly when they do on every value. A composed entry
other than i + 1 is told from it by the value with one bit. -/
theorem fpInvertsIP_iff (c : RawConfig) (hip : c.tableIP.length = 64) (hfp : c.tableFP.length = 64)
    (hpos : ∀ p ∈ c.tableFP, 1 ≤ p) : c.fpInvertsIP = true ↔
    ∀ x y z : Block, IsPermuted x c.tableIP y → IsPermuted y c.tableFP z → z = x := by
  have hcomp (x : Block) (i : Nat) (hi : i < 64) :
      bitAtPosition (permute 64 (permute 64 x c.tableIP) c.tableFP) (i + 1) =
        bitAtPosition x (c.tableIP.getD (c.tableFP.getD i 0 - 1) 0) := by
    have hmem : c.tableFP.getD i 0 ∈ c.tableFP := List.getD_eq_getElem _ 0 (hfp ▸ hi) ▸ List.getElem_mem _
    rw [bitAtPosition_permute _ _ hfp (by omega), Nat.add_sub_cancel, bitAtPosition_permute _ _ hip (hpos _ hmem)]
  calc c.fpInvertsIP = true
    _ ↔ ∀ i < 64, c.tableIP.getD (c.tableFP.getD i 0 - 1) 0 = i + 1 := by simp [RawConfig.fpInvertsIP]
    _ ↔ ∀ i < 64, ∀ x : Block,
          bitAtPosition x (c.tableIP.getD (c.tableFP.getD i 0 - 1) 0) = bitAtPosition x (i + 1) :=
        forall₂_congr fun i hi => (bitAtPosition_inj (by omega) (by omega)).symm
    _ ↔ ∀ x : Block, permute 64 (permute 64 x c.tableIP) c.tableFP = x := by
        simp only [eq_iff_bitAtPosition]
        exact ⟨fun h x i hi => (hcomp x i hi).trans (h i hi x), fun h i hi x => (hcomp x i hi).symm.trans (h x i hi)⟩
    _ ↔ ∀ x y z : Block, IsPermuted x c.tableIP y → IsPermuted y c.tableFP z → z = x := by
        simp only [isPermuted_iff hip, isPermuted_iff hfp, forall_eq_apply_imp_iff, forall_eq]

/-- The range of MXW (spec/00_scope.md R6). -/
theorem mxwOk_iff (c : RawConfig) : c.mxwOk = true ↔ 32 ∣ c.mxw ∧ 160 ≤ c.mxw ∧ c.mxw ≤ 4096 := by
  simp [RawConfig.mxwOk, Nat.dvd_iff_mod_eq_zero, and_assoc]

/-- The whole check: items 4 and 5 are read under the lengths and the entries that items 1 to 3 give. -/
theorem wf_iff_meetsR207 (c : RawConfig) : c.wf = true ↔ RawConfigMeetsR207 c := by
  simp only [RawConfig.wf, RawConfigMeetsR207, Bool.and_eq_true, lengthsOk_iff, entriesOk_iff, mxwOk_iff, and_assoc]
  refine and_congr_right fun hip => and_congr_right fun hfp => and_congr_right fun _ => and_congr_right fun _ =>
    and_congr_right fun _ => and_congr_right fun hpos => ?_
  rw [ipPermutes_iff c hip, fpInvertsIP_iff c hip hfp (hpos _ (by simp))]

/-- Settles O19: the check is R207's own list, item by item, and `Config.reference` passed it. -/
theorem configurationCheckIsExact : Obligations.ConfigurationCheckIsExact :=
  ⟨fun c => (build?_iff_wf c).trans (wf_iff_meetsR207 c), (wf_iff_meetsR207 _).1 Config.reference.ok⟩

end Sys2Proof.Machine
end

section
/-! A reset against 10_state R44 (spec/70_reset_and_hazards.md R450): both sources take the one step `resetCore`, and the
registers that are no field of the state (BUSY, irq, ID, PARAM) read there what R44 lists for them. -/
namespace Sys2Proof.Machine

/-- A soft reset is the same step as the hardware reset's (45_control R381). -/
theorem writeCtrl_of_srst {v : Word} (s : State) (hv : v.getLsbD 1 = true) : writeCtrl v s = resetCore s := if_pos hv

@[simp] theorem resetCore_busy (s : State) : (resetCore s).busy = false := rfl

@[simp] theorem resetCore_irq (s : State) : (resetCore s).irq = false := rfl

/-- ID reads its constant, busy or idle (10_state R36). -/
theorem busReadValue_id (s : State) : busReadValue 0x000 s = 0x48493230 := rfl

/-- PARAM reads the configuration and nothing else of the state, busy or idle (10_state R37). -/
theorem busReadValue_param (s : State) : busReadValue 0x004 s = Config.paramWord s.cfg := rfl

/-- After a reset every wide register holds MXW/32 zero words. -/
theorem resetCore_wide_zero (s : State) :
    ∀ r ∈ [(resetCore s).opa, (resetCore s).opb, (resetCore s).mod, (resetCore s).res],
      r.length = s.cfg.words ∧ ∀ w ∈ r, w = 0 := by
  intro r hr
  have hzero : r = List.replicate s.cfg.words 0 := by
    simpa only [resetCore_opa, resetCore_opb, resetCore_mod, resetCore_res, List.mem_cons, List.not_mem_nil, or_false,
      or_self] using hr
  rw [hzero]
  exact ⟨List.length_replicate, fun _ => List.eq_of_mem_replicate⟩

/-- Settles O25: `resetCore s` is the state both resets answer, field by field R44's list. -/
theorem resetGivesTheResetState : Obligations.ResetGivesTheResetState := by
  intro s v hv
  have hsoft : applyEvent (.write 0x008 4 v) s = .next (resetCore s) := by
    rw [applyEvent_write_ctrl, writeCtrl_of_srst s hv]
  have hsk : ∀ i : Fin 16, (resetCore s).sk[i] = 0 := fun i => Vector.getElem_replicate i.isLt
  have hmsg : ∀ j : Fin 16, (resetCore s).msg[j] = 0 := fun j => Vector.getElem_replicate j.isLt
  have hparam : busReadValue 0x004 (resetCore s) = busReadValue 0x004 s := by
    rw [busReadValue_param, busReadValue_param, resetCore_cfg]
  exact ⟨resetCore s, applyEvent_hardReset s, hsoft,
    resetCore_ie s, resetCore_done s, resetCore_err s, resetCore_ecode s, resetCore_busy s, resetCore_irq s,
    resetCore_cmd s, resetCore_pend s, resetCore_key s, resetCore_din s, resetCore_dout s, hsk,
    resetCore_h s, resetCore_dglen s, hmsg, resetCore_wide_zero s,
    resetCore_cfg s, busReadValue_id _, hparam⟩

end Sys2Proof.Machine
end

section
/-! The register window by its offsets (spec/20_memory.md R81 to R84): which accesses have a meaning, and which registers a
write leaves alone. -/
namespace Sys2Proof.Machine
open Sys2Proof.Claim

/-- R82's admitted access: an aligned 32-bit one. -/
theorem accessOk_iff {off : Offset} {size : Nat} : accessOk off size = true ↔ size = 4 ∧ off.toNat % 4 = 0 := by
  simp [accessOk]

/-- Settles O32: `accessOk` decides both accesses, and it holds of the aligned 32-bit ones alone. -/
theorem onlyAlignedWordAccessesHaveAMeaning : Obligations.OnlyAlignedWordAccessesHaveAMeaning := by
  intro s off size v
  rw [applyEvent_write, applyEvent_read]
  constructor
  · intro hbad
    have hno : ¬ accessOk off size = true := by rw [accessOk_iff]; omega
    exact ⟨if_neg hno, if_neg hno⟩
  · intro hsize halign
    have hok : accessOk off size = true := accessOk_iff.2 ⟨hsize, halign⟩
    exact ⟨⟨_, if_pos hok⟩, ⟨_, if_pos hok⟩⟩

/-- An aligned 32-bit write is the bus write of 20_memory R87. -/
theorem applyEvent_write_of_aligned {off : Offset} (v : Word) (s : State) (halign : off.toNat % 4 = 0) :
    applyEvent (.write off 4 v) s = .next (busWrite off v s) := by
  rw [applyEvent_write, if_pos (accessOk_iff.2 ⟨rfl, halign⟩)]

/-- The slot of a wide window at word `n`: the register's word where it has one. -/
theorem wideSlot_ofNat_of_lt {c : Config} {n : Nat} (f : Fin 128 → Reg) (hn : n < c.words) :
    wideSlot c f (Fin.ofNat 128 n) = f (Fin.ofNat 128 n) :=
  wideSlot_of_lt c f _ ((Nat.mod_le n 128).trans_lt hn)

/-- The slots of a wide window past the register's words are reserved (R83). -/
theorem wideSlot_ofNat_of_ge {c : Config} {n : Nat} (f : Fin 128 → Reg) (hn : c.words ≤ n) (hslot : n < 128) :
    wideSlot c f (Fin.ofNat 128 n) = .reserved := by
  rw [wideSlot, Fin.val_ofNat, Nat.mod_eq_of_lt hslot, if_neg (by omega)]

/-- R83's offsets name no register: five gaps of the fixed part of the window, the words past each wide register, and the
offsets past RES. -/
theorem regAt_of_reservedOffset {c : Config} {off : Offset} (h : reservedOffset c off.toNat) :
    regAt c off = .reserved := by
  have hlt := off.isLt
  have hwords := words_bounds c
  obtain hcmd | hdout | hh | hdglen | hmsg | hopa | hopb | hmod | hres := h
  iterate 5 simp (disch := omega) only [regAt, regLow, if_pos, if_neg]
  iterate 3 simp (disch := omega) only [regAt, if_pos, if_neg, wideSlot_ofNat_of_ge]
  by_cases hslot : off.toNat < 0xA00
  · simp (disch := omega) only [regAt, if_pos, if_neg, wideSlot_ofNat_of_ge]
  · simp (disch := omega) only [regAt, if_neg]

/-- An offset from 0x040 up to 0x0D4 names a word of SK, by its half, or of H. -/
theorem isResult_regAt_of_sk_or_h {c : Config} {off : Offset} (hlo : 0x040 ≤ off.toNat) (hhi : off.toNat < 0x0D4) :
    (regAt c off).isResult = true := by
  by_cases hsk : off.toNat < 0x0C0
  · by_cases hhalf : off.toNat % 8 = 0
    · simp (disch := omega) only [regAt, regLow, if_pos, if_neg, Reg.isResult]
    · simp (disch := omega) only [regAt, regLow, if_pos, if_neg, Reg.isResult]
  · simp (disch := omega) only [regAt, regLow, if_pos, if_neg, Reg.isResult]

/-- R84's offsets name ID, PARAM or a result word. -/
theorem regAt_of_readOnlyOffset {c : Config} {off : Offset} (h : readOnlyOffset c off.toNat) :
    regAt c off = .id ∨ regAt c off = .param ∨ (regAt c off).isResult = true := by
  have hwords := words_bounds c
  obtain hid | hparam | hdoutHi | hdoutLo | hskh | hdglenHi | hdglenLo | hres := h
  · exact .inl (by simp only [regAt, regLow, hid]; rfl)
  · exact .inr (.inl (by simp only [regAt, regLow, hparam]; rfl))
  · exact .inr (.inr (by simp only [regAt, regLow, hdoutHi]; rfl))
  · exact .inr (.inr (by simp only [regAt, regLow, hdoutLo]; rfl))
  · exact .inr (.inr (isResult_regAt_of_sk_or_h hskh.1 hskh.2))
  · exact .inr (.inr (by simp only [regAt, regLow, hdglenHi]; rfl))
  · exact .inr (.inr (by simp only [regAt, regLow, hdglenLo]; rfl))
  · exact .inr (.inr (by simp (disch := omega) only [regAt, if_pos, if_neg, wideSlot_ofNat_of_lt, Reg.isResult]))

/-- The registers a bus write leaves alone, as `busWrite` sorts them. -/
def Reg.ignoresWrites (r : Reg) : Prop := r.isOperand = false ∧ r ≠ .ctrl ∧ r ≠ .status ∧ r ≠ .cmd

theorem Reg.ignoresWrites_of_isResult {r : Reg} : r.isResult = true → r.ignoresWrites := by
  cases r <;> simp [Reg.isResult, Reg.ignoresWrites, Reg.isOperand]

theorem busWrite_of_ignoresWrites {off : Offset} {s : State} (v : Word) (h : (regAt s.cfg off).ignoresWrites) :
    busWrite off v s = s := by
  obtain ⟨hop, hctrl, hstatus, hcmd⟩ := h
  obtain ⟨hr, -⟩ | ⟨hr, -⟩ | ⟨hr, -⟩ | ⟨hr, -⟩ | ⟨hr, -⟩ | ⟨-, -, -, -, hsame⟩ := busWrite_cases off v s
  · exact absurd hr hctrl
  · exact absurd hr hstatus
  · exact absurd hr hcmd
  · exact absurd hr (by simp [hop])
  · exact absurd hr (by simp [hop])
  · exact hsame

theorem ignoresWrites_regAt {c : Config} {off : Offset}
    (h : readOnlyOffset c off.toNat ∨ reservedOffset c off.toNat) : (regAt c off).ignoresWrites := by
  obtain hro | hreserved := h
  · obtain hid | hparam | hresult := regAt_of_readOnlyOffset hro
    · rw [hid]; exact ⟨rfl, nofun, nofun, nofun⟩
    · rw [hparam]; exact ⟨rfl, nofun, nofun, nofun⟩
    · exact Reg.ignoresWrites_of_isResult hresult
  · rw [regAt_of_reservedOffset hreserved]; exact ⟨rfl, nofun, nofun, nofun⟩

/-- A reserved offset reads 0, busy or idle: it is no result word (R83). -/
theorem busReadValue_of_reservedOffset {off : Offset} {s : State} (h : reservedOffset s.cfg off.toNat) :
    busReadValue off s = 0 := by
  rw [busReadValue, regAt_of_reservedOffset h]; rfl

/-- Settles O37: the register such an offset names takes no write, whatever BUSY is, and a reserved one holds 0. -/
theorem readOnlyAndReservedIgnoreWrites : Obligations.ReadOnlyAndReservedIgnoreWrites := by
  intro s off v halign
  refine ⟨fun h => ?_, busReadValue_of_reservedOffset⟩
  rw [applyEvent_write_of_aligned v s halign, busWrite_of_ignoresWrites v (ignoresWrites_regAt h)]

end Sys2Proof.Machine
end

section
/-! The command word by its fields (spec/30_encoding.md R120 to R125): the decoder gives a command exactly when the five
fields are that command's, and a mask-and-match row says of the five fields what its mask keeps of them. -/
namespace Sys2Proof

/-- R120's five fields cover the word. -/
theorem word_eq_iff_fields {w v : Word} : w = v ↔ opField w = opField v ∧ nField w = nField v ∧
    sbField w = sbField v ∧ rsv1Field w = rsv1Field v ∧ rsv2Field w = rsv2Field v := by
  constructor
  · rintro rfl
    exact ⟨rfl, rfl, rfl, rfl, rfl⟩
  · rintro ⟨hop, hn, hsb, hrsv1, hrsv2⟩
    have hbit {off len : Nat} (h : w.extractLsb' off len = v.extractLsb' off len) (i : Nat) (hlo : off ≤ i)
        (hhi : i < off + len) : w.getLsbD i = v.getLsbD i := by
      have hi := congrArg (·.getLsbD (i - off)) h
      simpa [BitVec.getLsbD_extractLsb', Nat.add_sub_cancel' hlo, show i - off < len by omega] using hi
    refine BitVec.eq_of_getLsbD_eq fun i hi => ?_
    obtain h | h | h | rfl | h : i < 8 ∨ 8 ≤ i ∧ i < 14 ∨ 14 ≤ i ∧ i < 16 ∨ i = 16 ∨ 17 ≤ i := by omega
    · exact hbit hop i (by omega) (by omega)
    · exact hbit hn i (by omega) (by omega)
    · exact hbit hrsv1 i (by omega) (by omega)
    · exact hsb
    · exact hbit hrsv2 i (by omega) (by omega)

/-- A mask acts on each field apart. -/
theorem and_eq_iff_fields {w m v : Word} : w &&& m = v ↔ opField w &&& opField m = opField v ∧
    nField w &&& nField m = nField v ∧ (sbField w && sbField m) = sbField v ∧
    rsv1Field w &&& rsv1Field m = rsv1Field v ∧ rsv2Field w &&& rsv2Field m = rsv2Field v := by
  rw [word_eq_iff_fields]
  simp only [opField, nField, sbField, rsv1Field, rsv2Field, BitVec.extractLsb'_and, BitVec.getLsbD_and]

theorem decodeFixed_eq_ok_iff {w : Word} {i j : Instr} :
    decodeFixed w i = .ok j ↔ i = j ∧ nField w = 0 ∧ sbField w = false := by
  unfold decodeFixed
  split_ifs with hn hsb
  · exact ⟨nofun, fun ⟨_, h, _⟩ => absurd h hn⟩
  · simp [hsb]
  · simp [not_not.1 hn, hsb]

theorem decodeN_eq_ok_iff {w : Word} {f : BitVec 6 → Instr} {j : Instr} :
    decodeN w f = .ok j ↔ f (nField w) = j ∧ sbField w = false := by
  unfold decodeN
  split_ifs with hsb
  · simp [hsb]
  · simp [hsb]

theorem decodeSB_eq_ok_iff {w : Word} {f : Bool → Instr} {j : Instr} :
    decodeSB w f = .ok j ↔ f (sbField w) = j ∧ nField w = 0 := by
  unfold decodeSB
  split_ifs with hn
  · exact ⟨nofun, fun ⟨_, h⟩ => absurd h hn⟩
  · simp [not_not.1 hn]

/-- The decoder read by fields: R124's opcode, N and SB of the command, the reserved fields 0. -/
theorem decode_eq_ok_iff_fields {w : Word} {i : Instr} : decode w = .ok i ↔ opField w = opcodeOf i ∧
    nField w = nOf i ∧ sbField w = sbOf i ∧ rsv1Field w = 0 ∧ rsv2Field w = 0 := by
  constructor
  · intro h
    unfold decode at h
    split at h
    next => cases h
    next hrsv =>
      obtain ⟨hrsv1, hrsv2⟩ := not_or.1 hrsv
      obtain ⟨hop, hn, hsb⟩ : opField w = opcodeOf i ∧ nField w = nOf i ∧ sbField w = sbOf i := by
        -- the match's arms in R124's order: 14 is DGFINAL, 15 MODEXP, 16 MODMUL, 17 the unlisted opcodes
        split at h
        case h_14 hop =>
          obtain ⟨rfl, hsb⟩ := decodeN_eq_ok_iff.1 h
          exact ⟨BitVec.eq_of_toNat_eq hop, rfl, hsb⟩
        case h_15 hop | h_16 hop =>
          obtain ⟨rfl, hn⟩ := decodeSB_eq_ok_iff.1 h
          exact ⟨BitVec.eq_of_toNat_eq hop, hn, rfl⟩
        case h_17 => cases h
        all_goals
          obtain ⟨rfl, hn, hsb⟩ := decodeFixed_eq_ok_iff.1 h
          exact ⟨BitVec.eq_of_toNat_eq ‹_›, hn, hsb⟩
      exact ⟨hop, hn, hsb, not_not.1 hrsv1, not_not.1 hrsv2⟩
  · rintro ⟨hop, hn, hsb, hrsv1, hrsv2⟩
    unfold decode
    rw [if_neg (by simp [hrsv1, hrsv2]), hop]
    cases i with
    | dgfinal n => exact decodeN_eq_ok_iff.2 ⟨congrArg _ hn, hsb⟩
    | modexp sb | modmul sb => exact decodeSB_eq_ok_iff.2 ⟨congrArg _ hsb, hn⟩
    | _ => exact decodeFixed_eq_ok_iff.2 ⟨rfl, hn, hsb⟩

/-- R125's rows of mask 0xFFFFFFFF: the commands without a field. -/
def fixedRows : List (Instr × Word) :=
  [(.nop, 0x00000000), (.pip, 0x00000010), (.pfp, 0x00000011), (.pexp, 0x00000012), (.pperm, 0x00000013),
    (.ppc2, 0x00000014), (.sbox, 0x00000018), (.roundf, 0x00000019), (.ksgen, 0x0000001A), (.enc, 0x0000001C),
    (.dec, 0x0000001D), (.dginit, 0x00000020), (.dgblock, 0x00000021)]

theorem fields_of_mem_fixedRows : ∀ row ∈ fixedRows, opField row.2 = opcodeOf row.1 ∧ nField row.2 = nOf row.1 ∧
    sbField row.2 = sbOf row.1 ∧ rsv1Field row.2 = 0 ∧ rsv2Field row.2 = 0 := by decide

/-- A command has a row without a field, or is one of the three with one (R121). -/
theorem instr_mem_fixedRows_or_field (i : Instr) : i ∈ fixedRows.map Prod.fst ∨ (∃ n, i = .dgfinal n) ∨
    (∃ sb, i = .modexp sb) ∨ ∃ sb, i = .modmul sb := by
  cases i with
  | dgfinal n => exact .inr (.inl ⟨n, rfl⟩)
  | modexp sb => exact .inr (.inr (.inl ⟨sb, rfl⟩))
  | modmul sb => exact .inr (.inr (.inr ⟨sb, rfl⟩))
  | _ => exact .inl (by decide)

theorem decode_eq_ok_iff_of_mem_fixedRows {w : Word} {row : Instr × Word} (hrow : row ∈ fixedRows) :
    decode w = .ok row.1 ↔ w &&& 0xFFFFFFFF = row.2 := by
  obtain ⟨hop, hn, hsb, hrsv1, hrsv2⟩ := fields_of_mem_fixedRows row hrow
  have hmask : w &&& 0xFFFFFFFF = w := BitVec.and_allOnes
  rw [decode_eq_ok_iff_fields, hmask, word_eq_iff_fields, hop, hn, hsb, hrsv1, hrsv2]

/-- DGFINAL's mask keeps every field but N. -/
theorem and_nMask_eq_iff_fields {w v : Word} : w &&& 0xFFFFC0FF = v ↔ opField w = opField v ∧ 0#6 = nField v ∧
    sbField w = sbField v ∧ rsv1Field w = rsv1Field v ∧ rsv2Field w = rsv2Field v := by
  have hop : opField 0xFFFFC0FF = BitVec.allOnes 8 := by decide
  have hn : nField 0xFFFFC0FF = 0#6 := by decide
  have hsb : sbField 0xFFFFC0FF = true := by decide
  have hrsv1 : rsv1Field 0xFFFFC0FF = BitVec.allOnes 2 := by decide
  have hrsv2 : rsv2Field 0xFFFFC0FF = BitVec.allOnes 15 := by decide
  rw [and_eq_iff_fields, hop, hn, hsb, hrsv1, hrsv2]
  simp only [BitVec.and_allOnes, BitVec.and_zero, Bool.and_true]

/-- MODEXP's and MODMUL's mask keeps every field but SB. -/
theorem and_sbMask_eq_iff_fields {w v : Word} : w &&& 0xFFFEFFFF = v ↔ opField w = opField v ∧ nField w = nField v ∧
    false = sbField v ∧ rsv1Field w = rsv1Field v ∧ rsv2Field w = rsv2Field v := by
  have hop : opField 0xFFFEFFFF = BitVec.allOnes 8 := by decide
  have hn : nField 0xFFFEFFFF = BitVec.allOnes 6 := by decide
  have hsb : sbField 0xFFFEFFFF = false := by decide
  have hrsv1 : rsv1Field 0xFFFEFFFF = BitVec.allOnes 2 := by decide
  have hrsv2 : rsv2Field 0xFFFEFFFF = BitVec.allOnes 15 := by decide
  rw [and_eq_iff_fields, hop, hn, hsb, hrsv1, hrsv2]
  simp only [BitVec.and_allOnes, Bool.and_false]

theorem decode_eq_ok_dgfinal_iff {w : Word} {n : BitVec 6} :
    decode w = .ok (.dgfinal n) ↔ w &&& 0xFFFFC0FF = 0x00000022 ∧ n = nField w := by
  rw [decode_eq_ok_iff_fields, and_nMask_eq_iff_fields]
  exact ⟨fun ⟨hop, hn, hsb, hrsv⟩ => ⟨⟨hop, rfl, hsb, hrsv⟩, hn.symm⟩,
    fun ⟨⟨hop, _, hsb, hrsv⟩, hn⟩ => ⟨hop, hn.symm, hsb, hrsv⟩⟩

/-- A command whose row has the mask of the field SB: its match value has the command's opcode and 0 elsewhere. -/
theorem decode_eq_ok_iff_of_sbMask {w v : Word} {i : Instr} (hop : opField v = opcodeOf i) (hn : nField v = nOf i)
    (hsb : sbField v = false) (hrsv1 : rsv1Field v = 0) (hrsv2 : rsv2Field v = 0) :
    decode w = .ok i ↔ w &&& 0xFFFEFFFF = v ∧ sbOf i = sbField w := by
  rw [decode_eq_ok_iff_fields, and_sbMask_eq_iff_fields, hop, hn, hsb, hrsv1, hrsv2]
  exact ⟨fun ⟨hwop, hwn, hwsb, hwrsv⟩ => ⟨⟨hwop, hwn, rfl, hwrsv⟩, hwsb.symm⟩,
    fun ⟨⟨hwop, hwn, _, hwrsv⟩, hwsb⟩ => ⟨hwop, hwn, hwsb.symm, hwrsv⟩⟩

theorem decode_eq_ok_modexp_iff {w : Word} {sb : Bool} :
    decode w = .ok (.modexp sb) ↔ w &&& 0xFFFEFFFF = 0x00000030 ∧ sb = sbField w :=
  decode_eq_ok_iff_of_sbMask rfl rfl rfl rfl rfl

theorem decode_eq_ok_modmul_iff {w : Word} {sb : Bool} :
    decode w = .ok (.modmul sb) ↔ w &&& 0xFFFEFFFF = 0x00000031 ∧ sb = sbField w :=
  decode_eq_ok_iff_of_sbMask rfl rfl rfl rfl rfl

/-- A word is illegal exactly when no row of R125 matches it: the rows give every command. -/
theorem legal_eq_false_iff_no_row {w : Word} : legal w = false ↔ (∀ row ∈ fixedRows, w &&& 0xFFFFFFFF ≠ row.2) ∧
    w &&& 0xFFFFC0FF ≠ 0x00000022 ∧ w &&& 0xFFFEFFFF ≠ 0x00000030 ∧ w &&& 0xFFFEFFFF ≠ 0x00000031 := by
  rw [← Bool.not_eq_true, Machine.legal_iff, not_exists]
  constructor
  · intro h
    exact ⟨fun row hrow hw => h row.1 ((decode_eq_ok_iff_of_mem_fixedRows hrow).2 hw),
      fun hw => h _ (decode_eq_ok_dgfinal_iff.2 ⟨hw, rfl⟩),
      fun hw => h _ (decode_eq_ok_modexp_iff.2 ⟨hw, rfl⟩),
      fun hw => h _ (decode_eq_ok_modmul_iff.2 ⟨hw, rfl⟩)⟩
  · rintro ⟨hfixed, hdgfinal, hmodexp, hmodmul⟩ i hi
    obtain hmem | ⟨n, rfl⟩ | ⟨sb, rfl⟩ | ⟨sb, rfl⟩ := instr_mem_fixedRows_or_field i
    · obtain ⟨row, hrow, rfl⟩ := List.mem_map.1 hmem
      exact hfixed row hrow ((decode_eq_ok_iff_of_mem_fixedRows hrow).1 hi)
    · exact hdgfinal (decode_eq_ok_dgfinal_iff.1 hi).1
    · exact hmodexp (decode_eq_ok_modexp_iff.1 hi).1
    · exact hmodmul (decode_eq_ok_modmul_iff.1 hi).1

/-- Settles O22: each row of R125 matches the words whose fields are its command's, and the rows give every command. -/
theorem decodeIsMaskAndMatch : Obligations.DecodeIsMaskAndMatch := fun _ =>
  ⟨fun _ hrow => decode_eq_ok_iff_of_mem_fixedRows hrow, fun _ => decode_eq_ok_dgfinal_iff,
    fun _ => decode_eq_ok_modexp_iff, fun _ => decode_eq_ok_modmul_iff, legal_eq_false_iff_no_row⟩

end Sys2Proof
end

section
/-! The permutation engine's five commands (spec/40_permutation.md R210 to R214): each is R201 on a field of DIN through a
table of the configuration, and R207 gives the table the length its result needs. -/
namespace Sys2Proof.Machine
open Sys2Proof.Claim

/-- A command without a field is decoded from its word (30_encoding R124). -/
theorem decode_of_mem_fixedRows {row : Instr × Word} (hrow : row ∈ fixedRows) : decode row.2 = .ok row.1 :=
  (decode_eq_ok_iff_of_mem_fixedRows hrow).2 BitVec.and_allOnes

/-- R207 items 1 and 2, of every configuration. -/
theorem table_lengths (c : Config) : c.raw.tableIP.length = 64 ∧ c.raw.tableFP.length = 64 ∧
    c.raw.tableE.length = 48 ∧ c.raw.tableP.length = 32 ∧ c.raw.tablePC2.length = 48 := by
  obtain ⟨hip, hfp, he, hp, hpc2, -⟩ := (wf_iff_meetsR207 c.raw).1 c.ok
  exact ⟨hip, hfp, he, hp, hpc2⟩

/-- `permute` meets R201 as long as the output has the table's length. -/
theorem isPermuted_permute {w n : Nat} (x : BitVec w) {t : List Nat} (hn : t.length = n) :
    IsPermuted x t (permute n x t) :=
  (isPermuted_iff hn).2 rfl

theorem dinLow32_eq_extract (s : State) : s.dinLow32 = s.din.extractLsb' 0 32 :=
  BitVec.setWidth_eq_extractLsb' (by decide)

theorem dinLow56_eq_extract (s : State) : s.dinLow56 = s.din.extractLsb' 0 56 :=
  BitVec.setWidth_eq_extractLsb' (by decide)

theorem exec_pip (s : State) : exec .pip s =
    .next { s with dout := permute 64 s.din s.cfg.raw.tableIP, done := true, pend := none } := rfl

theorem exec_pfp (s : State) : exec .pfp s =
    .next { s with dout := permute 64 s.din s.cfg.raw.tableFP, done := true, pend := none } := rfl

theorem exec_pexp (s : State) : exec .pexp s =
    .next { s with dout := (permute 48 (s.din.extractLsb' 0 32) s.cfg.raw.tableE).setWidth 64,
                   done := true, pend := none } := by
  rw [← dinLow32_eq_extract]; rfl

theorem exec_pperm (s : State) : exec .pperm s =
    .next { s with dout := (permute 32 (s.din.extractLsb' 0 32) s.cfg.raw.tableP).setWidth 64,
                   done := true, pend := none } := by
  rw [← dinLow32_eq_extract]; rfl

theorem exec_ppc2 (s : State) : exec .ppc2 s =
    .next { s with dout := (permute 48 (s.din.extractLsb' 0 56) s.cfg.raw.tablePC2).setWidth 64,
                   done := true, pend := none } := by
  rw [← dinLow56_eq_extract]; rfl

/-- Settles O2: DOUT is R201's value through a table of 64 entries. -/
theorem pipAndPfpMoveBitsByTable : Obligations.PipAndPfpMoveBitsByTable := by
  refine ⟨decode_of_mem_fixedRows (row := (.pip, 0x10)) (by decide),
    decode_of_mem_fixedRows (row := (.pfp, 0x11)) (by decide), fun s => ?_⟩
  obtain ⟨hip, hfp, -⟩ := table_lengths s.cfg
  exact ⟨⟨_, exec_pip s, isPermuted_permute _ hip⟩, ⟨_, exec_pfp s, isPermuted_permute _ hfp⟩⟩

/-- Settles O3: the low bits of DOUT are R201's value through a table of 48, 32 and 48 entries, widened by zeros. -/
theorem narrowPermutationsMoveBitsByTable : Obligations.NarrowPermutationsMoveBitsByTable := by
  refine ⟨decode_of_mem_fixedRows (row := (.pexp, 0x12)) (by decide),
    decode_of_mem_fixedRows (row := (.pperm, 0x13)) (by decide),
    decode_of_mem_fixedRows (row := (.ppc2, 0x14)) (by decide), fun s => ?_⟩
  obtain ⟨-, -, he, hp, hpc2⟩ := table_lengths s.cfg
  exact ⟨⟨_, exec_pexp s, isPermuted_permute _ he⟩, ⟨_, exec_pperm s, isPermuted_permute _ hp⟩,
    ⟨_, exec_ppc2 s, isPermuted_permute _ hpc2⟩⟩

end Sys2Proof.Machine
end

section
/-! The key-schedule engine (spec/41_key_schedule.md R230 to R233): the halves after a number of rounds, said once as a
fold of the rotations, give `subkeys` round by round. -/
namespace Sys2Proof.Machine
open Sys2Proof.Claim

/-- `rotl_w` is the library's rotation for the counts 00_scope R12 allows. -/
theorem rotl_eq_rotateLeft {w n : Nat} (v : BitVec w) (hn : n < w) : rotl v n = v.rotateLeft n := by
  rw [BitVec.rotateLeft_def, Nat.mod_eq_of_lt hn, rotl]

/-- A half after the first i rounds of the shifts listed (R232). -/
def halfAfter (ns : List Nat) (v : KeyHalf) (i : Nat) : KeyHalf := (ns.take i).foldl rotl v

/-- Round i rotates what the rounds before left. -/
theorem halfAfter_succ {ns : List Nat} {i : Nat} (v : KeyHalf) (hi : i < ns.length) :
    halfAfter ns v (i + 1) = rotl (halfAfter ns v i) ns[i] := by
  rw [halfAfter, List.take_succ_eq_append_getElem hi, List.foldl_concat, halfAfter]

theorem subkeyList_getElem {pc2 ns : List Nat} {c d : KeyHalf} {i : Nat} (hi : i < (subkeyList pc2 ns c d).length) :
    (subkeyList pc2 ns c d)[i] = permute 48 (halfAfter ns c (i + 1) ++ halfAfter ns d (i + 1)) pc2 := by
  induction ns generalizing c d i with
  | nil => cases hi
  | cons n ns ih =>
    cases i with
    | zero => rfl
    | succ i => exact ih _

theorem subkeys_getElem (cfg : Config) (key : Block) (i : Fin 16) : (subkeys cfg key)[i] =
    permute 48 (halfAfter Config.shifts (keyHalves cfg.raw.ksExtract key).1 (i + 1) ++
      halfAfter Config.shifts (keyHalves cfg.raw.ksExtract key).2 (i + 1)) cfg.raw.tablePC2 :=
  subkeyList_getElem _

/-- The halves `subkeys` starts from are R231's, under either reading. -/
theorem isHalves_keyHalves (k : KsExtract) (key : Block) :
    IsHalves k key (keyHalves k key).1 (keyHalves k key).2 := by
  cases k with
  | low56 => exact ⟨rfl, rfl⟩
  | high56 => exact ⟨rfl, rfl⟩

/-- A half's recurrence in the terms of R232: every shift of R230 is a rotation count of 28 bits. -/
theorem halfAfter_shifts_succ (v : KeyHalf) (i : Fin 16) : halfAfter Config.shifts v (i + 1) =
    (halfAfter Config.shifts v i).rotateLeft (shiftTable.getD i 0) := by
  have hshift : ∀ i : Fin 16, Config.shifts[i] = shiftTable.getD i 0 ∧ shiftTable.getD i 0 < 28 := by decide
  obtain ⟨heq, hlt⟩ := hshift i
  calc halfAfter Config.shifts v (i + 1)
      = rotl (halfAfter Config.shifts v i) Config.shifts[i] := halfAfter_succ v i.isLt
    _ = rotl (halfAfter Config.shifts v i) (shiftTable.getD i 0) := by rw [heq]
    _ = _ := rotl_eq_rotateLeft _ hlt

/-- `subkeys` meets R230 to R232, of every configuration and key. -/
theorem isSubkeys_subkeys (cfg : Config) (key : Block) : IsSubkeys cfg key (subkeys cfg key) := by
  obtain ⟨-, -, -, -, hpc2⟩ := table_lengths cfg
  refine ⟨halfAfter Config.shifts (keyHalves cfg.raw.ksExtract key).1,
    halfAfter Config.shifts (keyHalves cfg.raw.ksExtract key).2, isHalves_keyHalves _ _, fun i =>
    ⟨halfAfter_shifts_succ _ i, halfAfter_shifts_succ _ i, ?_⟩⟩
  rw [subkeys_getElem]
  exact isPermuted_permute _ hpc2

theorem exec_ksgen (s : State) : exec .ksgen s =
    .next { s with sk := subkeys s.cfg s.key, done := true, pend := none } := rfl

/-- Settles O8: SK is `subkeys` of KEY, which meets R232's recurrence. -/
theorem ksgenDerivesTheSubkeys : Obligations.KsgenDerivesTheSubkeys :=
  ⟨decode_of_mem_fixedRows (row := (.ksgen, 0x1A)) (by decide), fun s =>
    ⟨_, exec_ksgen s, isSubkeys_subkeys s.cfg s.key⟩⟩

end Sys2Proof.Machine
end

section
/-! The Feistel core (spec/42_feistel.md R260 to R269): `S` and `F` meet R261 and R262, and the halves after a number of
rounds, said once as a fold of the subkeys taken so far, give `processBlock` round by round in either direction. -/
namespace Sys2Proof.Machine
open Sys2Proof.Claim

theorem dinLow48_eq_extract (s : State) : s.dinLow48 = s.din.extractLsb' 0 48 :=
  BitVec.setWidth_eq_extractLsb' (by decide)

theorem keyLow48_eq_extract (s : State) : s.keyLow48 = s.key.extractLsb' 0 48 :=
  BitVec.setWidth_eq_extractLsb' (by decide)

theorem exec_sbox (s : State) : exec .sbox s =
    .next { s with dout := (sboxAll s.cfg.raw.sboxRow (s.din.extractLsb' 0 48)).setWidth 64,
                   done := true, pend := none } := by
  rw [← dinLow48_eq_extract]; rfl

theorem exec_roundf (s : State) : exec .roundf s =
    .next { s with dout := (roundF s.cfg (s.din.extractLsb' 0 32) (s.key.extractLsb' 0 48)).setWidth 64,
                   done := true, pend := none } := by
  rw [← dinLow32_eq_extract, ← keyLow48_eq_extract]; rfl

theorem exec_enc (s : State) : exec .enc s =
    .next { s with sk := subkeys s.cfg s.key, dout := processBlock s.cfg s.din (subkeys s.cfg s.key) .encrypt,
                   done := true, pend := none } := rfl

theorem exec_dec (s : State) : exec .dec s =
    .next { s with sk := subkeys s.cfg s.key, dout := processBlock s.cfg s.din (subkeys s.cfg s.key) .decrypt,
                   done := true, pend := none } := rfl

/-- `S` meets R261: nibble g is the row's entry at the column of group g. -/
theorem isSubstituted_sboxAll (row : Vector (BitVec 4) 16) (x : Subkey) : IsSubstituted row x (sboxAll row x) := by
  intro g hg
  have hcol : (x.extractLsb' (43 - 6 * g) 4).toNat < row.toList.length := by
    rw [Vector.length_toList]; exact BitVec.isLt _
  rw [sboxAll_nibble row x g hg, List.getD_eq_getElem _ 0 hcol, sboxEntry, Vector.getElem_toList]
  simp only [sboxColOf_sboxGroup x g hg]

/-- `F` meets R262, of every configuration. -/
theorem isRoundF_roundF (cfg : Config) (r : Word) (k : Subkey) : IsRoundF cfg r k (roundF cfg r k) := by
  obtain ⟨-, -, he, hp, -⟩ := table_lengths cfg
  exact ⟨_, _, isPermuted_permute r he, isSubstituted_sboxAll _ _, isPermuted_permute _ hp⟩

/-- Halves that start as R264's and go from round to round as R263's give a processed block: the swap and the final
permutation are what is left. -/
theorem isProcessed_of_rounds {cfg : Config} {b : Block} {rk : Fin 16 → Subkey} {lr : Nat → Word × Word}
    (hzero : lr 0 = (hi32 (permute 64 b cfg.raw.tableIP), lo32 (permute 64 b cfg.raw.tableIP)))
    (hround : ∀ i : Fin 16, lr (i + 1) = feistelRound cfg (lr i) (rk i)) :
    IsProcessed cfg b rk (permute 64 (join64 (lr 16).2 (lr 16).1) cfg.raw.tableFP) := by
  obtain ⟨hip, hfp, -⟩ := table_lengths cfg
  exact ⟨_, _, fun i => (lr i).1, fun i => (lr i).2, isPermuted_permute b hip, congrArg Prod.fst hzero,
    congrArg Prod.snd hzero,
    fun i => ⟨congrArg Prod.fst (hround i), _, isRoundF_roundF _ _ _, congrArg Prod.snd (hround i)⟩,
    hi32_join64 _ _, lo32_join64 _ _, isPermuted_permute _ hfp⟩

/-- The halves after the first i rounds with the subkeys listed (R263). -/
def halvesAfter (cfg : Config) (ks : List Subkey) (lr : Word × Word) (i : Nat) : Word × Word :=
  (ks.take i).foldl (feistelRound cfg) lr

/-- Round i runs on what the rounds before left. -/
theorem halvesAfter_succ {cfg : Config} {ks : List Subkey} {i : Nat} (lr : Word × Word) (hi : i < ks.length) :
    halvesAfter cfg ks lr (i + 1) = feistelRound cfg (halvesAfter cfg ks lr i) ks[i] := by
  rw [halvesAfter, List.take_succ_eq_append_getElem hi, List.foldl_concat, halvesAfter]

theorem halvesAfter_length (cfg : Config) (ks : List Subkey) (lr : Word × Word) :
    halvesAfter cfg ks lr ks.length = ks.foldl (feistelRound cfg) lr := by
  rw [halvesAfter, List.take_length]

/-- `processBlock` meets R263 and R264 for the subkeys in the order its direction lists them. -/
theorem isProcessed_processBlock (cfg : Config) (b : Block) {k : Vector Subkey 16} {dir : Direction}
    {rk : Fin 16 → Subkey} (hrk : roundKeys k dir = List.ofFn rk) :
    IsProcessed cfg b rk (processBlock cfg b k dir) := by
  have hlen : (List.ofFn rk).length = 16 := List.length_ofFn
  rw [processBlock, hrk, ← halvesAfter_length, hlen]
  refine isProcessed_of_rounds (lr := halvesAfter cfg (List.ofFn rk) _) rfl fun i => ?_
  rw [halvesAfter_succ _ (i.isLt.trans_eq hlen.symm), List.getElem_ofFn]

theorem roundKeys_encrypt (k : Vector Subkey 16) : roundKeys k .encrypt = List.ofFn fun i : Fin 16 => k[i] := by
  refine List.ext_getElem (by simp only [roundKeys, Vector.length_toList, List.length_ofFn]) fun i _ _ => ?_
  simp only [roundKeys, Vector.getElem_toList, List.getElem_ofFn, Fin.getElem_fin]

theorem roundKeys_decrypt (k : Vector Subkey 16) :
    roundKeys k .decrypt = List.ofFn fun i : Fin 16 => k[15 - i.val] := by
  refine List.ext_getElem (by simp only [roundKeys, List.length_reverse, Vector.length_toList, List.length_ofFn])
    fun i _ _ => ?_
  simp only [roundKeys, List.getElem_reverse, Vector.length_toList, Vector.getElem_toList, List.getElem_ofFn]

/-- Settles O5: DOUT is `S` of DIN[47:0], which meets R261. -/
theorem sboxSubstitutesEachGroup : Obligations.SboxSubstitutesEachGroup :=
  ⟨decode_of_mem_fixedRows (row := (.sbox, 0x18)) (by decide), fun s => ⟨_, exec_sbox s, isSubstituted_sboxAll _ _⟩⟩

/-- Settles O7: DOUT is `F` of DIN[31:0] and KEY[47:0], which meets R262. -/
theorem roundfIsTheRoundFunction : Obligations.RoundfIsTheRoundFunction :=
  ⟨decode_of_mem_fixedRows (row := (.roundf, 0x19)) (by decide), fun s => ⟨_, exec_roundf s, isRoundF_roundF _ _ _⟩⟩

/-- Settles O10: SK is `subkeys` of KEY, and the rounds take it in its own order. -/
theorem encRunsSixteenRounds : Obligations.EncRunsSixteenRounds :=
  ⟨decode_of_mem_fixedRows (row := (.enc, 0x1C)) (by decide), fun s =>
    ⟨_, _, exec_enc s, isSubkeys_subkeys s.cfg s.key, isProcessed_processBlock _ _ (roundKeys_encrypt _)⟩⟩

/-- Settles O11: SK is `subkeys` of KEY as after ENC, and the rounds take it from its end. -/
theorem decRunsTheRoundsReversed : Obligations.DecRunsTheRoundsReversed :=
  ⟨decode_of_mem_fixedRows (row := (.dec, 0x1D)) (by decide), fun s =>
    ⟨_, _, exec_dec s, isSubkeys_subkeys s.cfg s.key, isProcessed_processBlock _ _ (roundKeys_decrypt _)⟩⟩

end Sys2Proof.Machine
end

section
/-! The message digest (spec/43_digest.md R301 to R308): the schedule and the working registers after a number of
rounds, said once as sequences, give `compress`; the blocks DGFINAL pads are R308's byte by byte. -/
namespace Sys2Proof.Machine
open Sys2Proof.Claim

theorem exec_dginit (s : State) : exec .dginit s =
    .next { s with h := Config.dgIV, dglen := 0, done := true, pend := none } := rfl

theorem exec_dgblock (s : State) : exec .dgblock s =
    .next { s with h := compress s.h s.msg.toList, dglen := s.dglen + 512, done := true, pend := none } := rfl

theorem exec_dgfinal (n : BitVec 6) (s : State) : exec (.dgfinal n) s =
    .next { s with h := finalHash s.h s.msg n (totalBits s.dglen n), dglen := totalBits s.dglen n,
                   done := true, pend := none } := rfl

/-- Settles O13: the two registers DGINIT writes are `Config.dgIV` and 0. -/
theorem dginitLoadsTheInitialValues : Obligations.DginitLoadsTheInitialValues :=
  ⟨decode_of_mem_fixedRows (row := (.dginit, 0x20)) (by decide), exec_dginit⟩

@[simp] theorem extendSchedule_length (n : Nat) (w : List Word) : (extendSchedule n w).length = w.length + n := by
  induction n generalizing w with
  | zero => rfl
  | succ n ih => rw [extendSchedule, ih, List.length_append, List.length_singleton]; omega

/-- The extension keeps the words it starts from. -/
theorem extendSchedule_getD_of_lt (n : Nat) {w : List Word} {j : Nat} (hj : j < w.length) :
    (extendSchedule n w).getD j 0 = w.getD j 0 := by
  induction n generalizing w with
  | zero => rfl
  | succ n ih =>
    rw [extendSchedule, ih (by rw [List.length_append]; omega), List.getD_append _ _ _ _ hj]

/-- Every word past the first ones is R302's of the words before it. -/
theorem extendSchedule_getD_of_le {n : Nat} {w : List Word} {j : Nat} (hpos : 0 < w.length) (hlo : w.length ≤ j)
    (hhi : j < w.length + n) : (extendSchedule n w).getD j 0 =
      rotl ((extendSchedule n w).getD (j - 3) 0 ^^^ (extendSchedule n w).getD (j - 8) 0 ^^^
        (extendSchedule n w).getD (j - 14) 0 ^^^ (extendSchedule n w).getD (j - 16) 0) 1 := by
  induction n generalizing w with
  | zero => omega
  | succ n ih =>
    have hlen : (w ++ [scheduleWord w]).length = w.length + 1 := List.length_append
    by_cases hj : j = w.length
    · have hkeep (i : Nat) : (extendSchedule (n + 1) w).getD (j - (i + 1)) 0 = w.getD (j - (i + 1)) 0 :=
        extendSchedule_getD_of_lt _ (by omega)
      calc (extendSchedule (n + 1) w).getD j 0
          = (w ++ [scheduleWord w]).getD j 0 := extendSchedule_getD_of_lt n (by omega)
        _ = scheduleWord w := by rw [hj, List.getD_append_right _ _ _ _ le_rfl, Nat.sub_self, List.getD_cons_zero]
        _ = _ := by rw [hkeep 2, hkeep 7, hkeep 13, hkeep 15, hj, scheduleWord]
    · exact ih (by omega) (by omega) (by omega)

/-- The four quarters of the rounds (R303): the model compares t with their ends, the claim divides by 20. -/
theorem round_quarter (t : Nat) : t < 20 ∧ t / 20 = 0 ∨ ¬ t < 20 ∧ t < 40 ∧ t / 20 = 1 ∨
    ¬ t < 20 ∧ ¬ t < 40 ∧ t < 60 ∧ t / 20 = 2 ∨
    ¬ t < 20 ∧ ¬ t < 40 ∧ ¬ t < 60 ∧ ∃ k, t / 20 = k + 3 := by
  by_cases h : t < 60
  · omega
  · exact .inr (.inr (.inr ⟨by omega, by omega, h, t / 20 - 3, by omega⟩))

/-- The functions of R303. -/
theorem roundFn_eq_roundFunction (t : Nat) (b c d : Word) : roundFn t b c d = roundFunction t b c d := by
  obtain ⟨h1, hq⟩ | ⟨h1, h2, hq⟩ | ⟨h1, h2, h3, hq⟩ | ⟨h1, h2, h3, k, hq⟩ := round_quarter t
  · simp only [roundFn, roundFunction, if_pos h1, hq]
  · simp only [roundFn, roundFunction, if_neg h1, if_pos h2, hq]
  · simp only [roundFn, roundFunction, if_neg h1, if_neg h2, if_pos h3, hq]
  · simp only [roundFn, roundFunction, if_neg h1, if_neg h2, if_neg h3, hq]

/-- The constants of R303. -/
theorem roundConst_eq_roundConstant (t : Nat) : roundConst t = roundConstant t := by
  obtain ⟨h1, hq⟩ | ⟨h1, h2, hq⟩ | ⟨h1, h2, h3, hq⟩ | ⟨h1, h2, h3, k, hq⟩ := round_quarter t
  · simp only [roundConst, roundConstant, if_pos h1, hq]
  · simp only [roundConst, roundConstant, if_neg h1, if_pos h2, hq]
  · simp only [roundConst, roundConstant, if_neg h1, if_neg h2, if_pos h3, hq]
  · simp only [roundConst, roundConstant, if_neg h1, if_neg h2, if_neg h3, hq]

/-- The last word's round comes after the rounds of the words before it, and its number counts them. -/
theorem digestRounds_concat (t : Nat) (ws : List Word) (w : Word) (x : Working) :
    digestRounds t (ws ++ [w]) x = digestRound (t + ws.length) w (digestRounds t ws x) := by
  induction ws generalizing t x with
  | nil => rfl
  | cons v ws ih =>
    rw [List.cons_append, digestRounds, ih, List.length_cons, digestRounds, Nat.add_right_comm, Nat.add_assoc]

/-- The working registers after the first t rounds with the schedule `ws` (R304). -/
def workingAfter (ws : List Word) (x : Working) (t : Nat) : Working := digestRounds 0 (ws.take t) x

/-- Round t runs on what the rounds before left. -/
theorem workingAfter_succ {ws : List Word} {t : Nat} (x : Working) (ht : t < ws.length) :
    workingAfter ws x (t + 1) = digestRound t ws[t] (workingAfter ws x t) := by
  rw [workingAfter, List.take_succ_eq_append_getElem ht, digestRounds_concat, List.length_take_of_le ht.le,
    Nat.zero_add, workingAfter]

/-- The running state words with the working registers added (R304). -/
def accumulate (h : Vector Word 5) (x : Working) : Vector Word 5 :=
  #v[h[0] + x.a, h[1] + x.b, h[2] + x.c, h[3] + x.d, h[4] + x.e]

theorem compress_eq (h : Vector Word 5) (w : List Word) :
    compress h w = accumulate h (digestRounds 0 (extendSchedule 64 w) (workingOf h)) := rfl

theorem workingAfter_length (ws : List Word) (x : Working) : workingAfter ws x ws.length = digestRounds 0 ws x := by
  rw [workingAfter, List.take_length]

/-- Eighty schedule words that meet R302, taken one a round, give a compressed block (R304). -/
theorem isCompressed_of_schedule {h : Vector Word 5} {m : Nat → Word} {ws : List Word} (hlen : ws.length = 80)
    (hblock : ∀ j < 16, ws.getD j 0 = m j)
    (hsched : ∀ j, 16 ≤ j → j < 80 → ws.getD j 0 =
      rotl (ws.getD (j - 3) 0 ^^^ ws.getD (j - 8) 0 ^^^ ws.getD (j - 14) 0 ^^^ ws.getD (j - 16) 0) 1) :
    IsCompressed h m (accumulate h (digestRounds 0 ws (workingOf h))) := by
  have hround (t : Nat) (ht : t < 80) : workingAfter ws (workingOf h) (t + 1) =
      digestRound t (ws.getD t 0) (workingAfter ws (workingOf h) t) := by
    rw [workingAfter_succ _ (ht.trans_eq hlen.symm), List.getD_eq_getElem _ 0 (ht.trans_eq hlen.symm)]
  rw [← workingAfter_length, hlen]
  have hzero : workingAfter ws (workingOf h) 0 = workingOf h := rfl
  generalize workingAfter ws (workingOf h) = x at *
  refine ⟨fun j => ws.getD j 0, fun t => (x t).a, fun t => (x t).b, fun t => (x t).c, fun t => (x t).d,
    fun t => (x t).e, hblock, fun j hlo hhi => (hsched j hlo hhi).trans (rotl_eq_rotateLeft _ (by decide)), ?_,
    fun t ht => ?_, rfl⟩
  · simp only [hzero, workingOf, and_self]
  · simp only [hround t ht, digestRound, roundFn_eq_roundFunction, roundConst_eq_roundConstant,
      rotl_eq_rotateLeft _ (show 5 < 32 by decide), rotl_eq_rotateLeft _ (show 30 < 32 by decide), and_self]

/-- `compress` meets R302 to R304 for the sixteen words of a block. -/
theorem isCompressed_compress {ws : List Word} {m : Nat → Word} (hlen : ws.length = 16)
    (hm : ∀ j < 16, ws.getD j 0 = m j) (h : Vector Word 5) : IsCompressed h m (compress h ws) := by
  rw [compress_eq]
  refine isCompressed_of_schedule (by rw [extendSchedule_length, hlen]) (fun j hj => ?_) fun j hlo hhi => ?_
  · rw [extendSchedule_getD_of_lt 64 (by omega), hm j hj]
  · exact extendSchedule_getD_of_le (by omega) (by omega) (by omega)

/-- Settles O14: H is `compress` of H and MSG, which meets R302 to R304. -/
theorem dgblockCompressesTheBlock : Obligations.DgblockCompressesTheBlock :=
  ⟨decode_of_mem_fixedRows (row := (.dgblock, 0x21)) (by decide), fun s =>
    ⟨_, _, exec_dgblock s, isCompressed_compress (Vector.length_toList ..) (fun _ _ => rfl) s.h,
      BitVec.toNat_add ..⟩⟩

/-- Byte k of MSG, as a field or as a shift (20_memory R86). -/
theorem msgByte_eq_messageByte (msg : Vector Word 16) (k : Nat) : msgByte msg k = messageByte msg k := by
  rw [msgByte, messageByte, BitVec.setWidth_ushiftRight_eq_extractLsb]

/-- Byte i of the length, as a field or as a shift (R308). -/
theorem bytesOfBlock_getD (l : Block) {i : Nat} (hi : i < 8) : (bytesOfBlock l).getD i 0 = lengthByte l i := by
  simp [bytesOfBlock, hi, byteOfBlock, lengthByte, BitVec.setWidth_ushiftRight_eq_extractLsb]

/-- The bytes before the length field, at either length of the padding (R308). -/
theorem paddedBytes_getD (msg : Vector Word 16) (n : Nat) {len k : Nat} (hk : k < len) :
    (paddedBytes msg n len).getD k 0 = firstBlock msg n k := by
  simp [paddedBytes, hk, firstBlock, msgByte_eq_messageByte]

@[simp] theorem paddedBytes_length (msg : Vector Word 16) (n len : Nat) : (paddedBytes msg n len).length = len := by
  rw [paddedBytes, List.length_map, List.length_range]

/-- `compress` of the words of 64 bytes meets R302 to R305. -/
theorem isCompressed_compress_blockWords {bs : List Byte} {b : Nat → Byte} (hb : ∀ k < 64, bs.getD k 0 = b k)
    (h : Vector Word 5) : IsCompressed h (blockWord b) (compress h (blockWords bs)) := by
  have hlen : (blockWords bs).length = 16 := by rw [blockWords, List.length_map, List.length_range]
  refine isCompressed_compress hlen (fun j hj => ?_) h
  have hword : wordOfBytes bs j = blockWord b j := by
    rw [wordOfBytes, hb _ (by omega), hb _ (by omega), hb _ (by omega), hb _ (by omega), blockWord]
  rw [List.getD_eq_getElem _ 0 (by omega), ← hword]
  simp only [blockWords, List.getElem_map, List.getElem_range]

/-- L of R308. -/
theorem totalBits_toNat (l : Block) (n : BitVec 6) : (totalBits l n).toNat = (l.toNat + 8 * n.toNat) % 2 ^ 64 := by
  rw [totalBits, BitVec.toNat_add, BitVec.toNat_ofNat, Nat.add_mod_mod]

/-- DGFINAL's word for each of the 64 counts (30_encoding R124). -/
theorem decode_dgfinal (n : BitVec 6) : decode (0x00000022 ||| (n.setWidth 32 <<< 8)) = .ok (.dgfinal n) := by
  have hword : ∀ n : BitVec 6, (0x00000022 ||| (n.setWidth 32 <<< 8) : Word) &&& 0xFFFFC0FF = 0x00000022 ∧
      n = nField (0x00000022 ||| (n.setWidth 32 <<< 8)) := by decide
  exact decode_eq_ok_dgfinal_iff.2 (hword n)

/-- The block of R308 for n ≤ 55, byte by byte. -/
theorem paddedBytes_append_length_getD (msg : Vector Word 16) {n : Nat} (hn : n ≤ 55) (l : Block) {k : Nat}
    (hk : k < 64) : (paddedBytes msg n 56 ++ bytesOfBlock l).getD k 0 = onlyBlock msg n l k := by
  by_cases hpad : k < 56
  · rw [List.getD_append _ _ _ _ (by simpa), paddedBytes_getD msg n hpad]
    simp only [firstBlock, onlyBlock, if_pos hpad]
  · rw [List.getD_append_right _ _ _ _ (by simpa using hpad), paddedBytes_length, bytesOfBlock_getD l (by omega)]
    simp (disch := omega) only [onlyBlock, if_neg]

/-- The second block of R308 for n ≥ 56, byte by byte. -/
theorem zeros_append_length_getD (l : Block) {k : Nat} (hk : k < 64) :
    (List.replicate 56 0 ++ bytesOfBlock l).getD k 0 = secondBlock l k := by
  by_cases hpad : k < 56
  · rw [List.getD_append _ _ _ _ (by simpa), List.getD_replicate _ hpad, secondBlock, if_pos hpad]
  · rw [List.getD_append_right _ _ _ _ (by simpa using hpad), List.length_replicate, bytesOfBlock_getD l (by omega),
      secondBlock, if_neg hpad]

/-- Settles O15: `finalHash` compresses the padded bytes, which are R308's block by block. -/
theorem dgfinalPadsAndCompresses : Obligations.DgfinalPadsAndCompresses := by
  intro n s
  refine ⟨decode_dgfinal n, _, _, exec_dgfinal n s, totalBits_toNat s.dglen n, fun hn => ?_, fun hn => ?_⟩
  · rw [finalHash, if_pos hn]
    exact isCompressed_compress_blockWords (fun k hk => paddedBytes_append_length_getD s.msg hn _ hk) s.h
  · rw [finalHash, if_neg (by omega)]
    exact ⟨_, isCompressed_compress_blockWords (fun k hk => paddedBytes_getD s.msg n.toNat hk) s.h,
      isCompressed_compress_blockWords (fun k hk => zeros_append_length_getD _ hk) _⟩

end Sys2Proof.Machine
end

section
/-! The modular unit (spec/44_modexp.md R340 to R343): the operand A is R340's, a reduced value is held whole by RES, and
the remainder the model takes as a natural number is R341's and R342's over the integers. -/
namespace Sys2Proof.Machine
open Sys2Proof.Claim

theorem exec_modexp {s : State} (sb : Bool) (hm : natOfWords s.mod ≠ 0) : exec (.modexp sb) s =
    .next { s with res := wordsOfNat s.cfg.words
                     (modInt (s.operandA sb) (natOfWords s.mod) ^ natOfWords s.opb % natOfWords s.mod),
                   done := true, pend := none } := by
  rw [← powMod_eq]
  exact if_neg hm

theorem exec_modmul {s : State} (sb : Bool) (hm : natOfWords s.mod ≠ 0) : exec (.modmul sb) s =
    .next { s with res := wordsOfNat s.cfg.words
                     (modInt (s.operandA sb) (natOfWords s.mod) * (natOfWords s.opb % natOfWords s.mod) %
                       natOfWords s.mod),
                   done := true, pend := none } :=
  if_neg hm

/-- The top bit of a value of n + 1 bits, as a bit or as a bound. -/
theorem testBit_eq_decide_two_pow_le {n v : Nat} (hv : v < 2 ^ (n + 1)) : v.testBit n = decide (2 ^ n ≤ v) := by
  by_cases htop : 2 ^ n ≤ v
  · rw [decide_eq_true htop, Nat.testBit_of_two_pow_le_and_two_pow_add_one_gt htop hv]
  · rw [decide_eq_false htop, Nat.testBit_lt_two_pow (Nat.lt_of_not_le htop)]

/-- A of R340: the sign is OPA's top bit, so that OPA is negative from half its range on. -/
theorem operandA_eq_baseValue {s : State} (sb : Bool) (hlen : s.opa.length = s.cfg.words) :
    s.operandA sb = baseValue s sb := by
  obtain ⟨hwords, -, hmxw⟩ := words_bounds s.cfg
  have hwidth : s.cfg.raw.mxw - 1 + 1 = 32 * s.opa.length := by omega
  have hlt : natOfWords s.opa < 2 ^ (s.cfg.raw.mxw - 1 + 1) := hwidth ▸ natOfWords_lt s.opa
  cases sb with
  | false => simp [State.operandA, baseValue, uintOf]
  | true => simp [State.operandA, baseValue, sintOf, testBit_eq_decide_two_pow_le hlt]

/-- The non-negative remainder of R12, back as an integer. -/
theorem modInt_cast (a : Int) {m : Nat} (hm : m ≠ 0) : (modInt a m : Int) = a % m :=
  Int.toNat_of_nonneg (Int.emod_nonneg a (Int.ofNat_ne_zero.2 hm))

/-- A value below the modulus is held whole by MXW/32 words, as the modulus itself is (R344). -/
theorem natOfWords_wordsOfNat_of_lt_mod {s : State} {v : Nat} (hlen : s.mod.length = s.cfg.words)
    (hv : v < natOfWords s.mod) : natOfWords (wordsOfNat s.cfg.words v) = v :=
  natOfWords_wordsOfNat_of_lt _ _ (hlen ▸ hv.trans (natOfWords_lt s.mod))

/-- Settles O18: both commands are of those that raise at completion. -/
theorem modulusZeroRaisesModZero : Obligations.ModulusZeroRaisesModZero := by
  intro sb s hm
  obtain ⟨-, -, hmodexp⟩ := exec_of_modZero (.modexp sb) s (beq_iff_eq.2 hm)
  obtain ⟨-, -, hmodmul⟩ := exec_of_modZero (.modmul sb) s (beq_iff_eq.2 hm)
  exact ⟨hmodexp, hmodmul⟩

/-- Settles O16: square-and-multiply gives the power, which is below the modulus, so RES holds it whole. -/
theorem modexpIsTheExactPower : Obligations.ModexpIsTheExactPower := by
  refine ⟨decode_eq_ok_modexp_iff.2 (by decide), decode_eq_ok_modexp_iff.2 (by decide), fun sb s hinv =>
    ⟨fun hm => (modulusZeroRaisesModZero sb s hm).1, fun hm =>
      ⟨_, exec_modexp sb hm, wordsOfNat_length _ _, ?_⟩⟩⟩
  rw [natOfWords_wordsOfNat_of_lt_mod hinv.modLen (Nat.mod_lt _ (Nat.pos_of_ne_zero hm)), Int.natCast_mod,
    Int.natCast_pow, modInt_cast _ hm, operandA_eq_baseValue sb hinv.opaLen]

/-- Settles O17: the product is reduced below the modulus, so RES holds it whole. -/
theorem modmulIsTheExactProduct : Obligations.ModmulIsTheExactProduct := by
  refine ⟨decode_eq_ok_modmul_iff.2 (by decide), decode_eq_ok_modmul_iff.2 (by decide), fun sb s hinv =>
    ⟨fun hm => (modulusZeroRaisesModZero sb s hm).2, fun hm =>
      ⟨_, exec_modmul sb hm, wordsOfNat_length _ _, ?_⟩⟩⟩
  rw [natOfWords_wordsOfNat_of_lt_mod hinv.modLen (Nat.mod_lt _ (Nat.pos_of_ne_zero hm)), Int.natCast_mod,
    Int.natCast_mul, Int.natCast_mod, modInt_cast _ hm, operandA_eq_baseValue sb hinv.opaLen]

end Sys2Proof.Machine
end

section
/-! Control and the command register (spec/45_control.md R380 to R384): what a write to CTRL, STATUS or CMD does in each of
its cases, and NOP. -/
namespace Sys2Proof.Machine

theorem busy_iff {s : State} : s.busy = true ↔ s.pend ≠ none := Option.isSome_iff_ne_none

theorem busy_eq_false_iff {s : State} : s.busy = false ↔ s.pend = none :=
  Option.isSome_eq_false_iff.trans Option.isNone_iff_eq_none

/-- OVERRUN comes before legality (60_exceptions R407). -/
theorem issue_of_pending {s : State} (v : Word) (hp : s.pend ≠ none) :
    issue v s = { s with err := true, ecode := 3 } :=
  if_pos (busy_iff.2 hp)

theorem issue_of_idle {s : State} (v : Word) (hp : s.pend = none) :
    issue v s = if legal v then { s with cmd := v, pend := some v } else raise .illegalCmd s :=
  if_neg (Bool.eq_false_iff.1 (busy_eq_false_iff.2 hp))

theorem issue_of_decode {s : State} {v : Word} {i : Instr} (hp : s.pend = none) (hv : decode v = .ok i) :
    issue v s = { s with cmd := v, pend := some v } := by
  rw [issue_of_idle v hp, if_pos ((legal_iff v).2 ⟨i, hv⟩)]

theorem issue_of_illegal {s : State} {v : Word} (hp : s.pend = none) (hv : ∀ i, decode v ≠ .ok i) :
    issue v s = { s with err := true, ecode := 1 } := by
  rw [issue_of_idle v hp, if_neg fun hlegal => ((legal_iff v).1 hlegal).elim hv]
  rfl

/-- Settles O29: a busy core, an idle one with an illegal word, an idle one with a legal word. -/
theorem cmdWriteIssuesOrRaises : Obligations.CmdWriteIssuesOrRaises := by
  intro s v
  rw [applyEvent_write_cmd]
  exact ⟨fun hp => congrArg _ (issue_of_pending v hp), fun hp hv => congrArg _ (issue_of_illegal hp hv),
    fun _ hp hv => congrArg _ (issue_of_decode hp hv)⟩

theorem exec_nop (s : State) : exec .nop s = .next { s with done := true, pend := none } := rfl

/-- Settles O1: NOP's word is legal, so its write to CMD has two of the three cases of O29. -/
theorem nopOnlySetsDone : Obligations.NopOnlySetsDone := by
  have hword : decode 0x00000000 = .ok .nop := decode_of_mem_fixedRows (row := (.nop, 0x00)) (by decide)
  refine ⟨hword, fun s => ?_⟩
  obtain ⟨hbusy, -, hissue⟩ := cmdWriteIssuesOrRaises s 0x00000000
  exact ⟨exec_nop s, fun hp => hissue .nop hp hword, hbusy⟩

theorem writeCtrl_of_not_srst {v : Word} (s : State) (hv : v.getLsbD 1 = false) :
    writeCtrl v s = { s with ie := v.getLsbD 0 } :=
  if_neg (Bool.eq_false_iff.1 hv)

/-- CTRL reads IE at bit 0 and 0 elsewhere, busy or idle (10_state R38). -/
theorem busReadValue_ctrl_toNat (s : State) : (busReadValue 0x008 s).toNat = s.ie.toNat := by
  have hread : busReadValue 0x008 s = 0#31 ++ BitVec.ofBool s.ie := rfl
  rw [hread, BitVec.toNat_append, BitVec.toNat_ofBool]
  exact Nat.zero_or _

/-- Settles O27: without SRST the write sets IE; with it the step is the reset's, from every state. -/
theorem ctrlWriteSetsIeOrResets : Obligations.CtrlWriteSetsIeOrResets := by
  intro s v
  rw [applyEvent_write_ctrl]
  refine ⟨fun hv => ⟨congrArg _ (writeCtrl_of_not_srst s hv), ?_⟩, fun hv =>
    ⟨resetCore s, congrArg _ (writeCtrl_of_srst s hv), applyEvent_hardReset s, resetCore_ie s, resetCore_pend s,
      resetCore_done s⟩⟩
  have hbit : (v.getLsbD 0).toNat = v.toNat % 2 := by
    rw [BitVec.getLsbD, Nat.toNat_testBit, pow_zero, Nat.div_one]
  rw [busReadValue_ctrl_toNat, hbit]

/-- A flag that a bit of the written word clears (45_control R382). -/
theorem clearedByOne_iff {bit flag : Bool} : (if bit then false else flag) = true ↔ flag = true ∧ bit = false := by
  cases bit <;> simp

/-- Settles O28: DONE and ERR are flags cleared by their bits, and ECODE goes with ERR's. -/
theorem statusWriteClearsByOnes : Obligations.StatusWriteClearsByOnes := by
  intro s v
  refine ⟨clearStatus v s, applyEvent_write_status s v, rfl, ?_, ?_, fun hv => ?_, fun hv => ?_⟩
  · rw [clearStatus_done]; exact clearedByOne_iff
  · rw [clearStatus_err]; exact clearedByOne_iff
  · rw [clearStatus_ecode, if_pos hv]
  · rw [clearStatus_ecode, if_neg (Bool.eq_false_iff.1 hv)]

end Sys2Proof.Machine
end

section
/-! Errors at completion and the interrupt output (spec/60_exceptions.md R406, R409): a command that is not MODEXP or
MODMUL on the modulus 0 completes with DONE and no error, and irq is a level computed from IE and the two flags. -/
namespace Sys2Proof.Machine

/-- A command that raises nothing sets DONE and leaves ERR and ECODE alone (45_control R385). -/
theorem exec_of_not_modZero {i : Instr} {s : State} (hm : modZero i s = false) :
    ∃ t, exec i s = .next t ∧ t.done = true ∧ t.err = s.err ∧ t.ecode = s.ecode := by
  obtain ⟨t, hexec, hframe, -⟩ := exec_frame i s
  rw [hm] at hframe
  exact ⟨t, hexec, (congrArg (·.done) hframe).trans (Bool.or_true _),
    (congrArg (·.err) hframe).trans (Bool.or_false _), congrArg (·.ecode) hframe⟩

/-- Settles O46: either the command is of the modular unit and the modulus is 0, or it completes without an error. -/
theorem onlyModZeroRaisesAtCompletion : Obligations.OnlyModZeroRaisesAtCompletion := by
  intro i s
  cases hm : modZero i s with
  | true =>
    obtain ⟨hinstr, hmod, hexec⟩ := exec_of_modZero i s hm
    exact ⟨_, hexec, .inr ⟨hinstr, hmod, rfl⟩⟩
  | false =>
    obtain ⟨t, hexec, hflags⟩ := exec_of_not_modZero hm
    exact ⟨t, hexec, .inl hflags⟩

theorem irq_iff {s : State} : s.irq = true ↔ s.ie = true ∧ (s.done = true ∨ s.err = true) := by
  rw [State.irq, Bool.and_eq_true, Bool.or_eq_true]

theorem irq_of_masked {s : State} (hie : s.ie = false) : s.irq = false := by
  rw [State.irq, hie, Bool.false_and]

theorem irq_of_unmasked {s : State} (hie : s.ie = true) : s.irq = true ↔ s.done = true ∨ s.err = true := by
  rw [irq_iff, hie, eq_self, true_and]

theorem irq_of_cleared {s : State} (hdone : s.done = false) (herr : s.err = false) : s.irq = false := by
  rw [State.irq, hdone, herr, Bool.or_false, Bool.and_false]

/-- A write to CTRL without SRST sets IE alone (45_control R381). -/
theorem applyEvent_write_ctrl_of_not_srst {v : Word} (s : State) (hv : v.getLsbD 1 = false) :
    applyEvent (.write 0x008 4 v) s = .next { s with ie := v.getLsbD 0 } := by
  rw [applyEvent_write_ctrl, writeCtrl_of_not_srst s hv]

/-- Settles O30: clearing takes down both flags, masking IE alone, and unmasking puts the level back to the flags. -/
theorem irqFollowsItsFormula : Obligations.IrqFollowsItsFormula := by
  intro s
  exact ⟨irq_iff, clearStatus 0x00000006 s, { s with ie := false }, { s with ie := true },
    applyEvent_write_status s _, irq_of_cleared (clearStatus_done s _) (clearStatus_err s _),
    applyEvent_write_ctrl_of_not_srst s (by decide), irq_of_masked rfl, rfl, rfl,
    applyEvent_write_ctrl_of_not_srst _ (by decide), irq_of_unmasked rfl⟩

end Sys2Proof.Machine
end

section
/-! Decoding against encoding (spec/30_encoding.md R120 to R126): a word is a command's when its five fields are, and the
fields of a command's word are the per-instruction family EncodeFields. -/
namespace Sys2Proof

/-- The family EncodeFields, of every command. -/
theorem encode_fields (i : Instr) : Laws.EncodeFields.Statement i := by
  cases i with
  | nop => exact Laws.EncodeFields.nop
  | pip => exact Laws.EncodeFields.pip
  | pfp => exact Laws.EncodeFields.pfp
  | pexp => exact Laws.EncodeFields.pexp
  | pperm => exact Laws.EncodeFields.pperm
  | ppc2 => exact Laws.EncodeFields.ppc2
  | sbox => exact Laws.EncodeFields.sbox
  | roundf => exact Laws.EncodeFields.roundf
  | ksgen => exact Laws.EncodeFields.ksgen
  | enc => exact Laws.EncodeFields.enc
  | dec => exact Laws.EncodeFields.dec
  | dginit => exact Laws.EncodeFields.dginit
  | dgblock => exact Laws.EncodeFields.dgblock
  | dgfinal n => exact Laws.EncodeFields.dgfinal n
  | modexp sb => exact Laws.EncodeFields.modexp sb
  | modmul sb => exact Laws.EncodeFields.modmul sb

/-- Settles O21: both sides say that the five fields of the word are the command's. -/
theorem decodeAndEncodeAgree : Obligations.DecodeAndEncodeAgree := by
  intro i w
  obtain ⟨hop, hn, hsb, hrsv1, hrsv2⟩ := encode_fields i
  rw [decode_eq_ok_iff_fields, word_eq_iff_fields, hop, hn, hsb, hrsv1, hrsv2]

theorem decode_encode (i : Instr) : decode (encode i) = .ok i := (decodeAndEncodeAgree i _).2 rfl

theorem legal_encode (i : Instr) : legal (encode i) = true :=
  (Machine.legal_iff _).2 ⟨i, decode_encode i⟩

/-- A word whose fields are no command's is illegal. -/
theorem legal_eq_false_of_fields {w : Word} (h : ∀ i, opField w = opcodeOf i → nField w = nOf i → sbField w = sbOf i →
    rsv1Field w = 0 → rsv2Field w = 0 → False) : legal w = false := by
  rw [← Bool.not_eq_true, Machine.legal_iff]
  rintro ⟨i, hi⟩
  obtain ⟨hop, hn, hsb, hrsv1, hrsv2⟩ := decode_eq_ok_iff_fields.1 hi
  exact h i hop hn hsb hrsv1 hrsv2

/-- R124's sixteen opcodes. -/
def listedOpcodes : List (BitVec 8) :=
  [0x00, 0x10, 0x11, 0x12, 0x13, 0x14, 0x18, 0x19, 0x1A, 0x1C, 0x1D, 0x20, 0x21, 0x22, 0x30, 0x31]

theorem opcodeOf_mem_listedOpcodes (i : Instr) : opcodeOf i ∈ listedOpcodes := by
  cases i <;> simp only [opcodeOf] <;> decide

/-- Only DGFINAL has an N (R121). -/
theorem opcodeOf_eq_of_nOf_ne_zero {i : Instr} (h : nOf i ≠ 0) : opcodeOf i = 0x22 := by
  cases i with
  | dgfinal n => rfl
  | _ => exact absurd rfl h

/-- Only MODEXP and MODMUL have an SB (R121). -/
theorem opcodeOf_eq_of_sbOf {i : Instr} (h : sbOf i = true) : opcodeOf i = 0x30 ∨ opcodeOf i = 0x31 := by
  cases i with
  | modexp sb => exact .inl rfl
  | modmul sb => exact .inr rfl
  | _ => cases h

/-- Settles O23: in each of R126's four classes a field of the word is no command's. -/
theorem illegalWordsAreRejected : Obligations.IllegalWordsAreRejected := by
  intro w
  refine ⟨fun hunlisted => ?_, fun hn hop => ?_, fun hsb hexp hmul => ?_, fun hrsv => ?_⟩
  · exact legal_eq_false_of_fields fun i hi _ _ _ _ =>
      hunlisted ((congrArg (· ∈ listedOpcodes) hi).mpr (opcodeOf_mem_listedOpcodes i))
  · exact legal_eq_false_of_fields fun i hi hni _ _ _ =>
      hop (hi.trans (opcodeOf_eq_of_nOf_ne_zero fun h => hn (hni.trans h)))
  · exact legal_eq_false_of_fields fun i hi _ hsbi _ _ =>
      (opcodeOf_eq_of_sbOf (hsbi.symm.trans hsb)).elim (fun h => hexp (hi.trans h)) fun h => hmul (hi.trans h)
  · exact legal_eq_false_of_fields fun i _ _ _ hrsv1 hrsv2 => hrsv.elim (· hrsv1) (· hrsv2)

/-- Settles O24: each word's command is the one whose word it is, and the illegal ones match no row of R125. -/
theorem sampleWordsDecode : Obligations.SampleWordsDecode := by
  unfold Obligations.SampleWordsDecode
  simp only [decodeAndEncodeAgree _ _]
  decide

end Sys2Proof
end

section
/-! What every step keeps (spec/45_control.md R386, 70_reset_and_hazards.md R450 to R462): the configuration, the steps to
come and the invariant. Each operation's part is said once, and the step's from `applyEvent_cases`. -/
namespace Sys2Proof.Machine

theorem writeCtrl_cases (v : Word) (s : State) :
    (v.getLsbD 1 = true ∧ writeCtrl v s = resetCore s) ∨
    (v.getLsbD 1 = false ∧ writeCtrl v s = { s with ie := v.getLsbD 0 }) := by
  cases hv : v.getLsbD 1 with
  | true => exact .inl ⟨rfl, writeCtrl_of_srst s hv⟩
  | false => exact .inr ⟨rfl, writeCtrl_of_not_srst s hv⟩

/-- A bus write is a change of the core alone: what stands beside the core passes through (10_state R30; log 1). -/
theorem busWrite_eq_of_core (off : Offset) (v : Word) {s u : State} (hcore : u.core = s.core) (hcfg : u.cfg = s.cfg) :
    busWrite off v u = { u with core := (busWrite off v s).core } := by
  obtain ⟨c, g, a, b, d⟩ := s
  obtain ⟨c', g', a', b', d'⟩ := u
  obtain rfl : c' = c := hcore
  obtain rfl : g' = g := hcfg
  rcases c' with ⟨_, _, _, _, _, _, _, _, _, _, _, _, _, _, _, _, _ | _⟩ <;> unfold busWrite
  all_goals
    cases regAt g' off with
    | ctrl => cases hv : v.getLsbD 1 <;> simp only [writeCtrl, hv] <;> rfl
    | cmd => cases hv : legal v <;> simp only [issue, hv] <;> rfl
    | _ => rfl

/-- The part of the machine round the core that a bus write leaves. -/
theorem busWrite_frame (off : Offset) (v : Word) (s : State) :
    busWrite off v s = { s with core := (busWrite off v s).core } :=
  busWrite_eq_of_core off v rfl rfl

@[simp] theorem busWrite_cfg (off : Offset) (v : Word) (s : State) : (busWrite off v s).cfg = s.cfg :=
  congrArg (·.cfg) (busWrite_frame off v s)

@[simp] theorem busWrite_script (off : Offset) (v : Word) (s : State) : (busWrite off v s).script = s.script :=
  congrArg (·.script) (busWrite_frame off v s)

/-- The part of the machine round the core that a command leaves. -/
theorem exec_frame_core {i : Instr} {s t : State} (h : exec i s = .next t) : t = { s with core := t.core } := by
  have h' := exec_of_core i s s t rfl rfl h
  rw [h] at h'
  injection h'

/-- No step changes the configuration or the steps to come. -/
theorem applyEvent_cfg_script {e : Event} {s t : State} (h : applyEvent e s = .next t) :
    t.cfg = s.cfg ∧ t.script = s.script := by
  obtain ⟨off, v, -, -, rfl⟩ | ⟨off, -, -, rfl⟩ | ⟨-, -, rfl⟩ | ⟨w, i, -, -, -, hexec⟩ | ⟨-, rfl⟩ :=
    applyEvent_cases e s t h
  · exact ⟨busWrite_cfg off v s, busWrite_script off v s⟩
  · exact ⟨busRead_cfg s off, busRead_script s off⟩
  · exact ⟨rfl, rfl⟩
  · rw [exec_frame_core hexec]; exact ⟨rfl, rfl⟩
  · exact ⟨resetCore_cfg s, resetCore_script s⟩

theorem applyEvent_cfg {e : Event} {s t : State} (h : applyEvent e s = .next t) : t.cfg = s.cfg :=
  (applyEvent_cfg_script h).1

theorem applyEvent_script {e : Event} {s t : State} (h : applyEvent e s = .next t) : t.script = s.script :=
  (applyEvent_cfg_script h).2

/-- The step is the first of the steps to come, taken from the list; with none left it is the engine's. -/
theorem step_of_cons {s : State} {e : Event} {es : List Event} (h : s.script = e :: es) :
    step s = applyEvent e { s with script := es } := by
  rw [step, h]

theorem step_of_nil {s : State} (h : s.script = []) : step s = applyEvent .engine s := by
  rw [step, h, applyEvent_engine]

/-- Every step is a step of R386 from a state with the same core and configuration. -/
theorem step_eq_applyEvent (s : State) : ∃ e u, u.core = s.core ∧ u.cfg = s.cfg ∧ step s = applyEvent e u := by
  cases h : s.script with
  | nil => exact ⟨.engine, s, rfl, rfl, step_of_nil h⟩
  | cons e es => exact ⟨e, { s with script := es }, rfl, rfl, step_of_cons h⟩

/-- Settles O20: the configuration is no field that a step of R386 writes. -/
theorem configurationNeverChanges : Obligations.ConfigurationNeverChanges := by
  intro s t h
  obtain ⟨e, u, -, hcfg, he⟩ := step_eq_applyEvent s
  exact (applyEvent_cfg (he ▸ h)).trans hcfg

/-! ### The invariant -/

/-- The invariant speaks of the core and the configuration alone. -/
theorem State.Inv.of_core {s t : State} (h : s.Inv) (hcore : t.core = s.core) (hcfg : t.cfg = s.cfg) : t.Inv := by
  obtain ⟨c, g, a, b, d⟩ := s
  obtain ⟨c', g', a', b', d'⟩ := t
  obtain rfl : c' = c := hcore
  obtain rfl : g' = g := hcfg
  exact ⟨h.opaLen, h.opbLen, h.modLen, h.resLen, h.cmdOk, h.pendOk, h.codeOk⟩

theorem resetOf_inv (c : Config) : (State.resetOf c).Inv where
  opaLen := List.length_replicate
  opbLen := List.length_replicate
  modLen := List.length_replicate
  resLen := List.length_replicate
  cmdOk  := (legal_iff _).2 ⟨.nop, decode_of_mem_fixedRows (row := (.nop, 0)) (by decide)⟩
  pendOk := nofun
  codeOk := rfl

/-- Settles O40: `State.reset` is the reset state of one configuration. -/
theorem resetMeetsTheInvariant : Obligations.ResetMeetsTheInvariant := ⟨resetOf_inv _, resetOf_inv⟩

theorem resetCore_inv (s : State) : (resetCore s).Inv := (resetOf_inv s.cfg).of_core rfl rfl

/-- An error's code is one of R402's. -/
theorem raise_inv {s : State} (e : ErrCode) (h : s.Inv) : (raise e s).Inv where
  opaLen := h.opaLen
  opbLen := h.opbLen
  modLen := h.modLen
  resLen := h.resLen
  cmdOk  := h.cmdOk
  pendOk := h.pendOk
  codeOk := by cases e <;> simp [ErrCode.code]

theorem clearStatus_inv {s : State} (v : Word) (h : s.Inv) : (clearStatus v s).Inv where
  opaLen := h.opaLen
  opbLen := h.opbLen
  modLen := h.modLen
  resLen := h.resLen
  cmdOk  := h.cmdOk
  pendOk := h.pendOk
  codeOk := by
    cases hv : v.getLsbD 2 with
    | true => simp only [clearStatus_err, clearStatus_ecode, hv]; rfl
    | false => simp only [clearStatus_err, clearStatus_ecode, hv]; exact h.codeOk

theorem setOperandWord_inv {s : State} (v : Word) (r : Reg) (h : s.Inv) : (s.setOperandWord v r).Inv := by
  obtain ⟨hframe, hopa, hopb, hmod⟩ := setOperandWord_frame s v r
  rw [hframe]
  exact ⟨hopa.trans h.opaLen, hopb.trans h.opbLen, hmod.trans h.modLen, h.resLen, h.cmdOk, h.pendOk, h.codeOk⟩

/-- A word is issued only if it is legal (45_control R384). -/
theorem issue_inv {s : State} (v : Word) (h : s.Inv) : (issue v s).Inv := by
  obtain ⟨-, he⟩ | ⟨-, hlegal, he⟩ | ⟨-, -, he⟩ := issue_cases v s <;> rw [he]
  · exact raise_inv _ h
  · exact ⟨h.opaLen, h.opbLen, h.modLen, h.resLen, hlegal, fun w hw => (Option.some.inj hw).symm, h.codeOk⟩
  · exact raise_inv _ h

theorem busWrite_inv {s : State} (off : Offset) (v : Word) (h : s.Inv) : (busWrite off v s).Inv := by
  obtain ⟨-, he⟩ | ⟨-, he⟩ | ⟨-, he⟩ | ⟨-, -, he⟩ | ⟨-, -, he⟩ | ⟨-, -, -, -, he⟩ := busWrite_cases off v s <;> rw [he]
  · obtain ⟨-, he⟩ | ⟨-, he⟩ := writeCtrl_cases v s <;> rw [he]
    · exact resetCore_inv s
    · exact ⟨h.opaLen, h.opbLen, h.modLen, h.resLen, h.cmdOk, h.pendOk, h.codeOk⟩
  · exact clearStatus_inv v h
  · exact issue_inv v h
  · exact raise_inv _ h
  · exact setOperandWord_inv v _ h
  · exact h

theorem exec_inv {i : Instr} {s t : State} (h : s.Inv) (hexec : exec i s = .next t) : t.Inv := by
  obtain ⟨t', ht', hframe, hres⟩ := exec_frame i s
  obtain rfl : t = t' := by injection hexec.symm.trans ht'
  rw [hframe]
  refine ⟨h.opaLen, h.opbLen, h.modLen, hres.elim (fun e => (congrArg _ e).trans h.resLen) id, h.cmdOk, nofun, ?_⟩
  cases hm : modZero i s with
  | true => simp
  | false => simpa using h.codeOk

theorem applyEvent_inv {e : Event} {s t : State} (h : s.Inv) (ht : applyEvent e s = .next t) : t.Inv := by
  obtain ⟨off, v, -, -, rfl⟩ | ⟨off, -, -, rfl⟩ | ⟨-, -, rfl⟩ | ⟨w, i, -, -, -, hexec⟩ | ⟨-, rfl⟩ :=
    applyEvent_cases e s t ht
  · exact busWrite_inv off v h
  · exact h.of_core (busRead_core s off) (busRead_cfg s off)
  · exact h
  · exact exec_inv h hexec
  · exact resetCore_inv s

/-- Settles O41: each step of R386 keeps the invariant, and taking it from the steps to come does not touch the core. -/
theorem everyStepKeepsTheInvariant : Obligations.EveryStepKeepsTheInvariant := by
  intro s t h ht
  obtain ⟨e, u, hcore, hcfg, he⟩ := step_eq_applyEvent s
  exact applyEvent_inv (h.of_core hcore hcfg) (he ▸ ht)

/-! ### Which steps answer, and the end of a run -/

/-- In a state of the invariant a pending word is a command's. -/
theorem State.Inv.pend_decode {s : State} (h : s.Inv) {w : Word} (hp : s.pend = some w) : ∃ i, decode w = .ok i :=
  (legal_iff w).1 (h.pendOk w hp ▸ h.cmdOk)

/-- Every command answers, so the engine's step does in a state of the invariant. -/
theorem engineStep_answers {s : State} (h : s.Inv) : ∃ t, engineStep s = .next t ∧ t.pend = none := by
  cases hp : s.pend with
  | none => exact ⟨s, engineStep_of_none s hp, hp⟩
  | some w =>
    obtain ⟨i, hi⟩ := h.pend_decode hp
    obtain ⟨t, ht, hframe, -⟩ := exec_frame i s
    exact ⟨t, (engineStep_of_decode s w i hp hi).trans ht, congrArg (·.pend) hframe⟩

theorem applyEvent_answers {e : Event} {s : State} (h : s.Inv) (ha : e.admitted = true) :
    ∃ t, applyEvent e s = .next t := by
  cases e with
  | write off size v => exact ⟨_, if_pos ha⟩
  | read off size => exact ⟨_, if_pos ha⟩
  | engine =>
    obtain ⟨t, ht, -⟩ := engineStep_answers h
    exact ⟨t, ht⟩
  | hardReset => exact ⟨_, rfl⟩

/-- Settles O42: the step is the engine's, or that of an admitted event. -/
theorem admittedStepsAnswer : Obligations.AdmittedStepsAnswer := by
  intro s h ha
  cases hs : s.script with
  | nil => rw [step_of_nil hs]; exact applyEvent_answers h rfl
  | cons e es => rw [step_of_cons hs]; exact applyEvent_answers (h.of_core rfl rfl) (ha e es hs)

/-- Settles O48: by induction on the steps to come, each of which answers and leaves the rest to come; the engine's step
that is owed at the end empties PEND. -/
theorem everyRunEnds : Obligations.EveryRunEnds := by
  intro s
  induction hs : s.script generalizing s with
  | nil =>
    intro h _
    obtain ⟨t, ht, hp⟩ := engineStep_answers h
    refine ⟨t, core_run_of_step 0 s t ((step_of_nil hs).trans ht), ?_, hp⟩
    rw [applyEvent_script (e := .engine) ht, hs]
  | cons e es ih =>
    intro h ha
    have hinv : State.Inv { s with script := es } := h.of_core rfl rfl
    obtain ⟨t, ht⟩ := applyEvent_answers hinv (ha e List.mem_cons_self)
    obtain ⟨q, hq, hend⟩ := ih t (applyEvent_script ht) (applyEvent_inv hinv ht)
      fun f hf => ha f (List.mem_cons_of_mem e hf)
    exact ⟨q, (core_run_of_step _ s t ((step_of_cons hs).trans ht)).trans hq, hend⟩

end Sys2Proof.Machine
end

section
/-! The step and the errors (spec/45_control.md R384 to R387, 60_exceptions.md R405 to R408, 70_reset_and_hazards.md R450,
R456): which step runs, what a host access or a completion leaves alone, and that a step on the core is a function of it. -/
namespace Sys2Proof.Machine
open Sys2Proof.Claim

/-! ### The step -/

/-- Settles O39: the three cases of the step, with nothing pending the engine's being a turn that passes. -/
theorem stepFollowsTheScript : Obligations.StepFollowsTheScript := fun s =>
  ⟨fun _ _ => step_of_cons, fun hend => (step_of_nil hend.1).trans (engineStep_of_none s hend.2), engineStep_of_none s⟩

/-- The state after the issue of a word from an idle core (45_control R384). -/
def State.issued (s : State) (w : Word) : State := { s with cmd := w, pend := some w }

/-- A legal word issued is the command the engine runs. -/
theorem engineStep_issued {w : Word} {i : Instr} (s : State) (hw : decode w = .ok i) :
    engineStep (s.issued w) = exec i (s.issued w) :=
  engineStep_of_decode _ w i rfl hw

/-- The write of a legal word to CMD of an idle core. -/
theorem applyEvent_write_cmd_of_idle {s : State} {w : Word} {i : Instr} (hp : s.pend = none) (hw : decode w = .ok i) :
    applyEvent (.write 0x010 4 w) s = .next (s.issued w) := by
  rw [applyEvent_write_cmd, issue_of_decode hp hw, State.issued]

/-- Settles O38: the engine's step is `exec` of the command PEND selects; `withFetchWord` puts the word there. -/
theorem stepRunsThePendingCommand : Obligations.StepRunsThePendingCommand := by
  intro s w i hw
  have hword : BitVec.ofNat 32 (w.toNat % 2 ^ 32) = w := by rw [Nat.mod_eq_of_lt w.isLt, BitVec.ofNat_toNat]; simp
  refine ⟨fun hp es hs => ?_, fun hp hs => ?_, ?_, ?_⟩
  · rw [step_of_cons hs]
    exact engineStep_of_decode _ w i hp hw
  · rw [step_of_nil hs]
    exact engineStep_of_decode s w i hp hw
  · have hfetch : s.withFetchWord 32 w.toNat = State.issued { s with script := [] } w := by
      rw [State.withFetchWord, hword, State.issued]
    rw [hfetch, step_of_nil rfl]
    exact engineStep_issued _ hw
  · have hlt : w.toNat % 2 ^ 32 < 2 ^ 32 := Nat.mod_lt _ (Nat.two_pow_pos 32)
    rw [decodeTableWord]
    simp only [if_pos hlt, hword, hw]
    rfl

/-- Settles O49: from an idle core the legal word is issued, and PEND then selects the command whose word it is. -/
theorem issueThenEngineIsTheCommand : Obligations.IssueThenEngineIsTheCommand := by
  intro i s hp
  obtain ⟨t, ht, -⟩ := exec_frame i (s.issued (encode i))
  change _ = exec i (s.issued (encode i))
  simp only [runEvents, applyEvent_write_cmd_of_idle hp (decode_encode i), applyEvent_engine,
    engineStep_issued s (decode_encode i), ht]

/-- Settles O26: both states hold the reset core of their configuration, and a reset leaves what stands beside it. -/
theorem resetStateIsWhatAResetLeaves : Obligations.ResetStateIsWhatAResetLeaves := by
  have hwords : Config.reference.words = 32 := by decide +kernel
  refine ⟨hwords, rfl, rfl, rfl, rfl, fun s => ⟨rfl, fun hcfg => ?_⟩⟩
  rw [State.reset, ← hcfg]
  rfl

/-! ### What a completion and a host access leave alone -/

/-- Settles O45: `exec_frame` names every field a completion can differ in. -/
theorem commandsWriteNoOperand : Obligations.CommandsWriteNoOperand := by
  intro i s
  obtain ⟨t, ht, hframe, -⟩ := exec_frame i s
  refine ⟨t, ht, ?_⟩
  rw [hframe]
  exact ⟨⟨rfl, rfl, rfl, rfl, rfl, rfl⟩, rfl, rfl, rfl, rfl, rfl, rfl⟩

theorem setOperandWord_sameResults (s : State) (v : Word) (r : Reg) : s.sameResults (s.setOperandWord v r) := by
  rw [(setOperandWord_frame s v r).1]
  exact ⟨rfl, rfl, rfl, rfl, rfl⟩

theorem issue_sameResults (s : State) (v : Word) : s.sameResults (issue v s) := by
  obtain ⟨-, he⟩ | ⟨-, -, he⟩ | ⟨-, -, he⟩ := issue_cases v s <;> rw [he] <;> exact ⟨rfl, rfl, rfl, rfl, rfl⟩

/-- A write other than a soft reset. -/
theorem hostNoReset_write_iff {c : Config} {off : Offset} {size : Nat} {v : Word} :
    Event.hostNoReset c (.write off size v) = true ↔ (regAt c off = .ctrl → v.getLsbD 1 = false) := by
  by_cases hreg : regAt c off = .ctrl <;> simp [Event.hostNoReset, hreg]

/-- What a bus write other than a soft reset can do, a write to CTRL being the change of IE alone (45_control R381). -/
theorem busWrite_cases_of_hostNoReset {off : Offset} {size : Nat} {v : Word} {s : State}
    (h : Event.hostNoReset s.cfg (.write off size v) = true) :
    (busWrite off v s = { s with ie := v.getLsbD 0 }) ∨
    (regAt s.cfg off = .status ∧ busWrite off v s = clearStatus v s) ∨
    (busWrite off v s = issue v s) ∨
    (busWrite off v s = raise .overrun s) ∨
    (s.busy = false ∧ busWrite off v s = s.setOperandWord v (regAt s.cfg off)) ∨
    busWrite off v s = s := by
  obtain ⟨hr, he⟩ | h2 | ⟨-, he⟩ | ⟨-, -, he⟩ | ⟨-, h5⟩ | ⟨-, -, -, -, he⟩ := busWrite_cases off v s
  · exact .inl (he.trans (writeCtrl_of_not_srst s (hostNoReset_write_iff.1 h hr)))
  · exact .inr (.inl h2)
  · exact .inr (.inr (.inl he))
  · exact .inr (.inr (.inr (.inl he)))
  · exact .inr (.inr (.inr (.inr (.inl h5))))
  · exact .inr (.inr (.inr (.inr (.inr he))))

/-- Settles O44: no case of a bus write but the soft reset touches a result register, and a read changes no register. -/
theorem hostAccessesWriteNoResult : Obligations.HostAccessesWriteNoResult := by
  intro s t e he h
  obtain ⟨off, v, rfl, -, rfl⟩ | ⟨off, -, -, rfl⟩ | ⟨rfl, -, -⟩ | ⟨w, i, rfl, -, -, -⟩ | ⟨rfl, -⟩ :=
    applyEvent_cases e s t h
  · obtain e1 | ⟨-, e2⟩ | e3 | e4 | ⟨-, e5⟩ | e6 := busWrite_cases_of_hostNoReset he
    · rw [e1]; exact ⟨rfl, rfl, rfl, rfl, rfl⟩
    · rw [e2]; exact ⟨rfl, rfl, rfl, rfl, rfl⟩
    · rw [e3]; exact issue_sameResults s v
    · rw [e4]; exact ⟨rfl, rfl, rfl, rfl, rfl⟩
    · rw [e5]; exact setOperandWord_sameResults s v _
    · rw [e6]; exact ⟨rfl, rfl, rfl, rfl, rfl⟩
  · exact ⟨rfl, rfl, rfl, rfl, rfl⟩
  all_goals cases he

/-- The one aligned offset of CTRL, and of STATUS. -/
theorem eq_of_regAt_ctrl {c : Config} {off : Offset} (ha : off.toNat % 4 = 0) (h : regAt c off = .ctrl) : off = 0x008 :=
  regAt_inj c off 0x008 ha rfl (by rw [h]; nofun) h

theorem eq_of_regAt_status {c : Config} {off : Offset} (ha : off.toNat % 4 = 0) (h : regAt c off = .status) :
    off = 0x00C :=
  regAt_inj c off 0x00C ha rfl (by rw [h]; nofun) h

/-- DONE and ERR, where set in `s`, are set in `t`. -/
def State.keepsFlags (s t : State) : Prop := (s.done = true → t.done = true) ∧ (s.err = true → t.err = true)

theorem issue_keepsFlags (s : State) (v : Word) : s.keepsFlags (issue v s) := by
  obtain ⟨-, he⟩ | ⟨-, -, he⟩ | ⟨-, -, he⟩ := issue_cases v s <;> rw [he]
  · exact ⟨id, fun _ => rfl⟩
  · exact ⟨id, id⟩
  · exact ⟨id, fun _ => rfl⟩

theorem exec_keepsFlags {i : Instr} {s t : State} (h : exec i s = .next t) : s.keepsFlags t := by
  obtain ⟨t', ht', hframe, -⟩ := exec_frame i s
  obtain rfl : t = t' := by injection h.symm.trans ht'
  rw [hframe]
  exact ⟨fun hd => by simp only [hd, Bool.true_or], fun he => by simp only [he, Bool.true_or]⟩

/-- Settles O31: of the cases of a step only a write to STATUS and the resets clear a flag. -/
theorem stickyFlagsStaySet : Obligations.StickyFlagsStaySet := by
  intro s t e h hhard hwrite
  change s.keepsFlags t
  obtain ⟨off, v, rfl, ha, rfl⟩ | ⟨off, -, -, rfl⟩ | ⟨-, -, rfl⟩ | ⟨w, i, -, -, -, hexec⟩ | ⟨rfl, -⟩ :=
    applyEvent_cases e s t h
  · obtain ⟨hstatus, hctrl⟩ := hwrite off 4 v rfl
    have hno : Event.hostNoReset s.cfg (.write off 4 v) = true :=
      hostNoReset_write_iff.2 fun hr => hctrl (eq_of_regAt_ctrl ha hr)
    obtain e1 | ⟨hr, -⟩ | e3 | e4 | ⟨-, e5⟩ | e6 := busWrite_cases_of_hostNoReset hno
    · rw [e1]; exact ⟨id, id⟩
    · exact absurd (eq_of_regAt_status ha hr) hstatus
    · rw [e3]; exact issue_keepsFlags s v
    · rw [e4]; exact ⟨id, fun _ => rfl⟩
    · rw [e5, (setOperandWord_frame s v _).1]; exact ⟨id, id⟩
    · rw [e6]; exact ⟨id, id⟩
  · exact ⟨id, id⟩
  · exact ⟨id, id⟩
  · exact exec_keepsFlags hexec
  · exact absurd rfl hhard

/-! ### Precise errors -/

/-- An issue that turns ERR on sets ECODE 1 or 3 and nothing else. -/
theorem issue_precise {s : State} {v : Word} (h0 : s.err = false) (h1 : (issue v s).err = true) :
    ((issue v s).ecode = 1 ∨ (issue v s).ecode = 3) ∧
      issue v s = { s with err := true, ecode := (issue v s).ecode } := by
  obtain ⟨-, he⟩ | ⟨-, -, he⟩ | ⟨-, -, he⟩ := issue_cases v s <;> rw [he] at h1 ⊢
  · exact ⟨.inr rfl, rfl⟩
  · exact absurd (h0.symm.trans h1) nofun
  · exact ⟨.inl rfl, rfl⟩

/-- A bus write that turns ERR on is an issue or an operand write that raises. -/
theorem busWrite_precise {off : Offset} {s : State} {v : Word} (h0 : s.err = false) (h1 : (busWrite off v s).err = true) :
    ((busWrite off v s).ecode = 1 ∨ (busWrite off v s).ecode = 3) ∧
      busWrite off v s = { s with err := true, ecode := (busWrite off v s).ecode } := by
  obtain ⟨-, he⟩ | ⟨-, he⟩ | ⟨-, he⟩ | ⟨-, -, he⟩ | ⟨-, -, he⟩ | ⟨-, -, -, -, he⟩ := busWrite_cases off v s <;>
    rw [he] at h1 ⊢
  · obtain ⟨-, he⟩ | ⟨-, he⟩ := writeCtrl_cases v s <;> rw [he] at h1
    · cases h1
    · exact absurd (h0.symm.trans h1) nofun
  · rw [clearStatus_err, h0, ite_self] at h1; cases h1
  · exact issue_precise h0 h1
  · exact ⟨.inr rfl, rfl⟩
  · rw [(setOperandWord_frame s v _).1] at h1; exact absurd (h0.symm.trans h1) nofun
  · exact absurd (h0.symm.trans h1) nofun

/-- A command that turns ERR on is one on the modulus 0. -/
theorem modZero_of_exec_err {i : Instr} {s t : State} (h : exec i s = .next t) (h0 : s.err = false)
    (h1 : t.err = true) : modZero i s = true := by
  by_contra hm
  obtain ⟨t', ht', -, herr, -⟩ := exec_of_not_modZero (Bool.eq_false_iff.2 hm)
  obtain rfl : t = t' := by injection h.symm.trans ht'
  exact absurd (h0.symm.trans (herr.symm.trans h1)) nofun

/-- Settles O47: the step is a bus write that raises, or the completion on the modulus 0. -/
theorem errorsArePrecise : Obligations.ErrorsArePrecise := by
  intro s t e h h0 h1
  obtain ⟨off, v, rfl, -, rfl⟩ | ⟨off, -, -, rfl⟩ | ⟨-, -, rfl⟩ | ⟨w, i, rfl, -, -, hexec⟩ | ⟨-, rfl⟩ :=
    applyEvent_cases e s t h
  · exact .inl ⟨off, v, rfl, busWrite_precise h0 h1⟩
  · exact absurd (h0.symm.trans h1) nofun
  · exact absurd (h0.symm.trans h1) nofun
  · obtain ⟨-, -, hzero⟩ := exec_of_modZero i s (modZero_of_exec_err hexec h0 h1)
    exact .inr ⟨rfl, by injection hexec.symm.trans hzero⟩
  · cases h1

/-! ### The step on the core alone -/

theorem engineStep_of_core {s u t : State} (hcore : u.core = s.core) (hcfg : u.cfg = s.cfg)
    (h : engineStep s = .next t) : engineStep u = .next { u with core := t.core } := by
  have hpend : u.pend = s.pend := congrArg (·.pend) hcore
  obtain ⟨hp, he⟩ | ⟨w, i, hp, hd, he⟩ | ⟨w, -, -, he⟩ := engineStep_cases s <;> rw [he] at h
  · obtain rfl : s = t := by injection h
    rw [engineStep_of_none u (hpend.trans hp), ← hcore]
  · rw [engineStep_of_decode u w i (hpend.trans hp) hd, exec_of_core i s u t hcore hcfg h]
  · cases h

/-- Two machines round one core and configuration are one core after a step. -/
theorem applyEvent_core_congr {e : Event} {s u t q : State} (hcore : u.core = s.core) (hcfg : u.cfg = s.cfg)
    (ht : applyEvent e s = .next t) (hq : applyEvent e u = .next q) : q.core = t.core := by
  obtain ⟨off, v, rfl, ha, rfl⟩ | ⟨off, rfl, ha, rfl⟩ | ⟨rfl, -, -⟩ | ⟨w, i, rfl, -, -, -⟩ | ⟨rfl, rfl⟩ :=
    applyEvent_cases e s t ht
  · rw [applyEvent_write_of_aligned v u ha, busWrite_eq_of_core off v hcore hcfg] at hq
    injection hq with hq
    rw [← hq]
  · rw [applyEvent_read, if_pos (accessOk_iff.2 ⟨rfl, ha⟩)] at hq
    injection hq with hq
    rw [← hq, busRead_core, busRead_core, hcore]
  · rw [applyEvent_engine, engineStep_of_core hcore hcfg ht] at hq
    injection hq with hq
    rw [← hq]
  · rw [applyEvent_engine, engineStep_of_core hcore hcfg ht] at hq
    injection hq with hq
    rw [← hq]
  · rw [applyEvent_hardReset] at hq
    injection hq with hq
    rw [← hq, resetCore_core, resetCore_core, hcfg]

/-- Settles O54: the machine itself gives the step on its core, and no other machine round that core another. -/
theorem coreStateAloneDecidesTheCore : Obligations.CoreStateAloneDecidesTheCore := by
  refine ⟨fun e s t h => ⟨⟨s, t, rfl, rfl, h, rfl⟩, ?_⟩, fun off size s t h => ?_⟩
  · rintro y ⟨u, q, hcfg, hcore, hq, rfl⟩
    exact applyEvent_core_congr hcore hcfg h hq
  · rw [applyEvent_read] at h
    split at h
    · injection h with h
      rw [← h, busRead_core]
    · cases h

/-! ### A pending command and the host -/

/-- The cores agree but for IE, DONE, ERR and ECODE; what stands beside them but the configuration may differ. -/
structure State.SameButFlags (s u : State) : Prop where
  cfg : u.cfg = s.cfg
  core : u.core = { s.core with ie := u.ie, done := u.done, err := u.err, ecode := u.ecode }

theorem State.SameButFlags.refl (s : State) : s.SameButFlags s := ⟨rfl, rfl⟩

theorem State.SameButFlags.trans {s t u : State} (hst : s.SameButFlags t) (htu : t.SameButFlags u) :
    s.SameButFlags u :=
  ⟨htu.cfg.trans hst.cfg, by rw [htu.core, hst.core]⟩

theorem State.SameButFlags.pend {s u : State} (h : s.SameButFlags u) : u.pend = s.pend := congrArg (·.pend) h.core

theorem State.SameButFlags.cmd {s u : State} (h : s.SameButFlags u) : u.cmd = s.cmd := congrArg (·.cmd) h.core

theorem State.SameButFlags.sameResults {s u : State} (h : s.SameButFlags u) : s.sameResults u :=
  ⟨congrArg (·.dout) h.core, congrArg (·.sk) h.core, congrArg (·.h) h.core, congrArg (·.dglen) h.core,
    congrArg (·.res) h.core⟩

theorem State.SameButFlags.sameOperands {s u : State} (h : s.SameButFlags u) : s.sameOperands u :=
  ⟨congrArg (·.key) h.core, congrArg (·.din) h.core, congrArg (·.msg) h.core, congrArg (·.opa) h.core,
    congrArg (·.opb) h.core, congrArg (·.mod) h.core⟩

theorem State.SameButFlags.mod {s u : State} (h : s.SameButFlags u) : u.mod = s.mod := congrArg (·.mod) h.core

theorem State.SameButFlags.operandM {s u : State} (h : s.SameButFlags u) : u.operandM = s.operandM :=
  congrArg natOfWords h.mod

theorem State.SameButFlags.modZero {s u : State} (h : s.SameButFlags u) (i : Instr) : modZero i u = modZero i s := by
  cases i with
  | modexp sb | modmul sb => simp only [Machine.modZero, h.operandM]
  | _ => rfl

/-- A command reads no flag (10_state R33, R34), so its results and the operands come out alike. -/
theorem exec_of_sameButFlags {i : Instr} {s u t : State} (h : s.SameButFlags u) (ht : exec i s = .next t) :
    ∃ q, exec i u = .next q ∧ t.SameButFlags q := by
  have hmu := h.modZero i
  have hmod := h.operandM
  obtain ⟨c, g, _, _, _⟩ := s
  obtain ⟨c', g', _, _, _⟩ := u
  obtain rfl : g' = g := h.cfg
  obtain ⟨ie, done, err, ecode, rfl⟩ : ∃ ie done err ecode,
      c' = { c with ie := ie, done := done, err := err, ecode := ecode } := ⟨_, _, _, _, h.core⟩
  cases hm : modZero i _ with
  | true =>
    rw [(exec_of_modZero i _ hm).2.2] at ht
    injection ht with ht
    exact ⟨_, (exec_of_modZero i _ (hmu.trans hm)).2.2, by rw [← ht], by rw [← ht]⟩
  | false =>
    cases i with
    | modexp sb =>
      have h0 := beq_eq_false_iff_ne.1 hm
      rw [exec_modexp sb h0] at ht
      injection ht with ht
      exact ⟨_, exec_modexp sb (hmod.trans_ne h0), by rw [← ht], by rw [← ht]; rfl⟩
    | modmul sb =>
      have h0 := beq_eq_false_iff_ne.1 hm
      rw [exec_modmul sb h0] at ht
      injection ht with ht
      exact ⟨_, exec_modmul sb (hmod.trans_ne h0), by rw [← ht], by rw [← ht]; rfl⟩
    | _ =>
      injection ht with ht
      exact ⟨_, rfl, by rw [← ht]; rfl, by rw [← ht]; rfl⟩

/-- While a command is pending a host access that answers changes no more than flags (60_exceptions R405). -/
theorem sameButFlags_of_hostNoReset {e : Event} {s t : State} (hp : s.pend ≠ none)
    (he : e.hostNoReset s.cfg = true) (h : applyEvent e s = .next t) : s.SameButFlags t := by
  obtain ⟨off, v, rfl, -, rfl⟩ | ⟨off, -, -, rfl⟩ | ⟨rfl, -, -⟩ | ⟨w, i, rfl, -, -, -⟩ | ⟨rfl, -⟩ :=
    applyEvent_cases e s t h
  · obtain e1 | ⟨-, e2⟩ | e3 | e4 | ⟨hidle, -⟩ | e6 := busWrite_cases_of_hostNoReset he
    · rw [e1]; exact ⟨rfl, rfl⟩
    · rw [e2]; exact ⟨rfl, rfl⟩
    · rw [e3, issue_of_pending v hp]; exact ⟨rfl, rfl⟩
    · rw [e4]; exact ⟨rfl, rfl⟩
    · exact absurd (busy_eq_false_iff.1 hidle) hp
    · rw [e6]; exact ⟨rfl, rfl⟩
  · exact ⟨rfl, rfl⟩
  all_goals cases he

/-- An admitted host access answers from every state. -/
theorem applyEvent_answers_of_hostNoReset {c : Config} {e : Event} (s : State) (ha : e.admitted = true)
    (he : e.hostNoReset c = true) : ∃ t, applyEvent e s = .next t := by
  cases e with
  | write off size v => exact ⟨_, if_pos ha⟩
  | read off size => exact ⟨_, if_pos ha⟩
  | engine => cases he
  | hardReset => cases he

theorem runEvents_cons {e : Event} {s t : State} (es : List Event) (h : applyEvent e s = .next t) :
    runEvents (e :: es) s = runEvents es t := by
  simp only [runEvents, h]

/-- Any finite sequence of such accesses, by induction on it. -/
theorem runEvents_sameButFlags {es : List Event} {s : State} (hp : s.pend ≠ none)
    (hes : ∀ e ∈ es, e.admitted = true ∧ e.hostNoReset s.cfg = true) :
    ∃ u, runEvents es s = .next u ∧ s.SameButFlags u := by
  induction es generalizing s with
  | nil => exact ⟨s, rfl, .refl s⟩
  | cons e es ih =>
    obtain ⟨ha, he⟩ := hes e List.mem_cons_self
    obtain ⟨t, ht⟩ := applyEvent_answers_of_hostNoReset s ha he
    have hst := sameButFlags_of_hostNoReset hp he ht
    obtain ⟨u, hu, htu⟩ := ih (hst.pend.trans_ne hp) fun f hf => hst.cfg ▸ hes f (List.mem_cons_of_mem e hf)
    exact ⟨u, (runEvents_cons es ht).trans hu, hst.trans htu⟩

/-- Settles O43: the accesses change no more than flags, and the command reads none. -/
theorem pendingCommandCannotBeDisturbed : Obligations.PendingCommandCannotBeDisturbed := by
  intro s w i es hp hw hes
  obtain ⟨u, hu, hsu⟩ := runEvents_sameButFlags (hp.trans_ne nofun) hes
  obtain ⟨t1, ht1, hframe, -⟩ := exec_frame i s
  obtain ⟨t2, ht2, htt⟩ := exec_of_sameButFlags hsu ht1
  have hpu : u.pend = some w := hsu.pend.trans hp
  have hpt : t1.pend = none := congrArg (·.pend) hframe
  exact ⟨u, t1, t2, hu, (engineStep_of_decode s w i hp hw).trans ht1, (engineStep_of_decode u w i hpu hw).trans ht2,
    htt.sameResults, htt.sameOperands, htt.cmd, htt.pend.trans hpt, hpu⟩

end Sys2Proof.Machine
end

section
/-! The register window by its registers (spec/20_memory.md R81 to R90, 60_exceptions.md R405): what a read returns, and
where an operand write lands. -/
namespace Sys2Proof.Machine
open Sys2Proof.Claim

/-! ### Reads -/

theorem busReadValue_of_idle {s : State} (off : Offset) (hp : s.pend = none) :
    busReadValue off s = s.regWord (regAt s.cfg off) := by
  rw [busReadValue, busy_eq_false_iff.2 hp, Bool.and_false]
  rfl

theorem busReadValue_of_not_isResult {s : State} {off : Offset} (h : (regAt s.cfg off).isResult = false) :
    busReadValue off s = s.regWord (regAt s.cfg off) := by
  rw [busReadValue, h, Bool.false_and]
  rfl

theorem busReadValue_of_busy {s : State} {off : Offset} (h : (regAt s.cfg off).isResult = true) (hp : s.pend ≠ none) :
    busReadValue off s = Config.draw s.draws := by
  rw [busReadValue, h, busy_iff.2 hp]
  rfl

/-- A read of a register that is no result word, busy or idle. -/
theorem busReadValue_offsetOf {s : State} {r : Reg} (hr : r.present s.cfg = true) (hres : r.isResult = false) :
    busReadValue (offsetOf r) s = s.regWord r := by
  have hreg := regAt_offsetOf s.cfg r hr
  rw [busReadValue_of_not_isResult (by rw [hreg]; exact hres), hreg]

/-- A read of a result word: a draw while a command is pending (R88). -/
theorem busReadValue_offsetOf_result {s : State} {r : Reg} (hr : r.present s.cfg = true) (hres : r.isResult = true) :
    busReadValue (offsetOf r) s = if s.pend = none then s.regWord r else Config.draw s.draws := by
  have hreg := regAt_offsetOf s.cfg r hr
  split
  next hp => rw [busReadValue_of_idle _ hp, hreg]
  next hp => rw [busReadValue_of_busy (by rw [hreg]; exact hres) hp]

/-- MXW is at most 4096, so PARAM's field holds it whole (10_state R37). -/
theorem paramWord_toNat (c : Config) : (Config.paramWord c).toNat =
    c.raw.mxw + if c.raw.ksExtract = .high56 then 2 ^ 13 else 0 := by
  obtain ⟨-, hle, hmxw⟩ := words_bounds c
  have hlt : c.raw.mxw < 2 ^ 13 := by omega
  have hfield : (BitVec.ofNat 13 c.raw.mxw).toNat = c.raw.mxw := Nat.mod_eq_of_lt hlt
  rw [Config.paramWord, BitVec.toNat_append, BitVec.toNat_append, hfield, ← Nat.shiftLeft_add_eq_or_of_lt hlt]
  cases c.raw.ksExtract <;> simp [ksx, Nat.add_comm]

/-- STATUS by its fields (10_state R39). -/
theorem statusWord_toNat (s : State) : s.statusWord.toNat =
    (if s.pend = none then 0 else 1) + 2 * s.done.toNat + 4 * s.err.toNat + 16 * s.ecode.toNat := by
  have hbusy : (if s.pend = none then 0 else 1) = s.busy.toNat := by
    cases hp : s.pend <;> simp [State.busy, hp]
  rw [hbusy, State.statusWord]
  generalize s.busy = b
  generalize s.done = d
  generalize s.err = e
  generalize s.ecode = c
  revert b d e c
  decide

/-- Settles O33: each offset is a register's, and a read of it is that register's word, or a draw. -/
theorem windowReadsEachRegister : Obligations.WindowReadsEachRegister := by
  intro s
  obtain ⟨-, hwords, -⟩ := words_bounds s.cfg
  have hctrl : (s.regWord .ctrl).toNat = s.ie.toNat := busReadValue_ctrl_toNat s
  refine ⟨busReadValue_id s, paramWord_toNat s.cfg, hctrl, statusWord_toNat s, rfl, rfl, rfl, rfl, rfl,
    busReadValue_offsetOf_result (r := .doutHi) rfl rfl, busReadValue_offsetOf_result (r := .doutLo) rfl rfl,
    fun i => ⟨busReadValue_offsetOf_result (r := .skHi i) rfl rfl, busReadValue_offsetOf_result (r := .skLo i) rfl rfl⟩,
    fun j => busReadValue_offsetOf_result (r := .h j) rfl rfl,
    busReadValue_offsetOf_result (r := .dglenHi) rfl rfl, busReadValue_offsetOf_result (r := .dglenLo) rfl rfl,
    fun j => busReadValue_offsetOf (r := .msg j) rfl rfl, fun j hj => ?_, fun a ha _ => ?_⟩
  · have hpresent : decide (j < s.cfg.words) = true := decide_eq_true hj
    exact ⟨busReadValue_offsetOf (r := .opa ⟨j, by omega⟩) hpresent rfl,
      busReadValue_offsetOf (r := .opb ⟨j, by omega⟩) hpresent rfl,
      busReadValue_offsetOf (r := .mod ⟨j, by omega⟩) hpresent rfl,
      busReadValue_offsetOf_result (r := .res ⟨j, by omega⟩) hpresent rfl⟩
  · have hlt : a < 2 ^ 12 := by unfold reservedOffset at ha; omega
    refine busReadValue_of_reservedOffset ?_
    rwa [BitVec.toNat_ofNat, Nat.mod_eq_of_lt hlt]

/-- Settles O34: a draw is used up exactly where the word read is a result's and a command is pending. -/
theorem readsChangeNoRegister : Obligations.ReadsChangeNoRegister := by
  intro s off ha
  refine ⟨(busRead off s).draws, ?_, ?_, fun hp hro hid hparam => ?_⟩
  · rw [applyEvent_read, if_pos (accessOk_iff.2 ⟨rfl, ha⟩)]
    rfl
  · rw [busRead_draws]
    split
    next h =>
      obtain ⟨hres, hbusy⟩ := Bool.and_eq_true_iff.1 h
      exact .inr ⟨busy_iff.1 hbusy, rfl, busReadValue_of_busy hres (busy_iff.1 hbusy)⟩
    next => exact .inl rfl
  · have hres : (regAt s.cfg off).isResult = true := by
      obtain h | h | h := regAt_of_readOnlyOffset hro
      · exact absurd (congrArg BitVec.toNat (regAt_inj s.cfg off 0x000 ha rfl (by rw [h]; nofun) h)) hid
      · exact absurd (congrArg BitVec.toNat (regAt_inj s.cfg off 0x004 ha rfl (by rw [h]; nofun) h)) hparam
      · exact h
    rw [busRead_draws, hres, busy_iff.2 hp]
    rfl

/-! ### Operand writes -/

/-- R81's operand offsets name operand words, those of a wide register below MXW/32. -/
theorem regAt_of_operandOffset {c : Config} {off : Offset} (h : operandOffset c off.toNat) :
    (regAt c off).isOperand = true ∧ (regAt c off).present c = true := by
  have hwords := words_bounds c
  obtain h | h | h | h | ⟨hlo, hhi⟩ | ⟨hlo, hhi⟩ | ⟨hlo, hhi⟩ | ⟨hlo, hhi⟩ := h
  iterate 4 exact ⟨by simp only [regAt, regLow, h]; rfl, by simp only [regAt, regLow, h]; rfl⟩
  · have hreg : regAt c off = .msg (Fin.ofNat 16 ((off.toNat - 0x100) / 4)) := by
      simp (disch := omega) only [regAt, regLow, if_pos, if_neg]
    rw [hreg]
    exact ⟨rfl, rfl⟩
  · have hreg : regAt c off = .opa (Fin.ofNat 128 ((off.toNat - 0x200) / 4)) := by
      simp (disch := omega) only [regAt, if_pos, if_neg, wideSlot_ofNat_of_lt]
    rw [hreg]
    exact ⟨rfl, decide_eq_true ((Nat.mod_le _ _).trans_lt (by omega))⟩
  · have hreg : regAt c off = .opb (Fin.ofNat 128 ((off.toNat - 0x400) / 4)) := by
      simp (disch := omega) only [regAt, if_pos, if_neg, wideSlot_ofNat_of_lt]
    rw [hreg]
    exact ⟨rfl, decide_eq_true ((Nat.mod_le _ _).trans_lt (by omega))⟩
  · have hreg : regAt c off = .mod (Fin.ofNat 128 ((off.toNat - 0x600) / 4)) := by
      simp (disch := omega) only [regAt, if_pos, if_neg, wideSlot_ofNat_of_lt]
    rw [hreg]
    exact ⟨rfl, decide_eq_true ((Nat.mod_le _ _).trans_lt (by omega))⟩

theorem busWrite_of_operand_idle {off : Offset} {s : State} (v : Word) (hop : (regAt s.cfg off).isOperand = true)
    (hp : s.pend = none) : busWrite off v s = s.setOperandWord v (regAt s.cfg off) := by
  have hbusy := busy_eq_false_iff.2 hp
  obtain ⟨hr, -⟩ | ⟨hr, -⟩ | ⟨hr, -⟩ | ⟨-, hb, -⟩ | ⟨-, -, he⟩ | ⟨hr, -⟩ := busWrite_cases off v s
  · rw [hr] at hop; cases hop
  · rw [hr] at hop; cases hop
  · rw [hr] at hop; cases hop
  · rw [hbusy] at hb; cases hb
  · exact he
  · rw [hr] at hop; cases hop

theorem busWrite_of_operand_busy {off : Offset} {s : State} (v : Word) (hop : (regAt s.cfg off).isOperand = true)
    (hp : s.pend ≠ none) : busWrite off v s = raise .overrun s := by
  have hbusy := busy_iff.2 hp
  obtain ⟨hr, -⟩ | ⟨hr, -⟩ | ⟨hr, -⟩ | ⟨-, -, he⟩ | ⟨-, hb, -⟩ | ⟨hr, -⟩ := busWrite_cases off v s
  · rw [hr] at hop; cases hop
  · rw [hr] at hop; cases hop
  · rw [hr] at hop; cases hop
  · exact he
  · rw [hbusy] at hb; cases hb
  · rw [hr] at hop; cases hop

/-- Settles O35: the word written is its register's, and an offset that names the same register is the same offset. -/
theorem operandWriteLandsInItsWordOnly : Obligations.OperandWriteLandsInItsWordOnly := by
  intro s off v hinv hp ha hoff
  obtain ⟨hop, hpresent⟩ := regAt_of_operandOffset hoff
  have hframe := (setOperandWord_frame s v (regAt s.cfg off)).1
  generalize ht : s.setOperandWord v (regAt s.cfg off) = t at hframe
  have hcfg : t.cfg = s.cfg := congrArg (·.cfg) hframe
  have hpt : t.pend = none := (congrArg (·.pend) hframe).trans hp
  have hread (a : Offset) : busReadValue a t =
      if regAt s.cfg a = regAt s.cfg off then v else busReadValue a s := by
    rw [busReadValue_of_idle a hpt, busReadValue_of_idle a hp, hcfg, ← ht]
    exact regWord_setOperandWord s v _ _ hop hpresent ⟨hinv.opaLen, hinv.opbLen, hinv.modLen⟩
  refine ⟨t, ?_, ?_, fun a haa hne => ?_, hframe⟩
  · rw [applyEvent_write_of_aligned v s ha, busWrite_of_operand_idle v hop hp, ht]
  · rw [hread, if_pos rfl]
  · rw [hread, if_neg]
    intro heq
    have hreserved : regAt s.cfg a ≠ .reserved := by rw [heq]; intro h; rw [h] at hop; cases hop
    exact hne (regAt_inj s.cfg a off haa ha hreserved heq)

/-- A write to CTRL or STATUS sets no error. -/
theorem writeCtrl_no_error (v : Word) (s : State) :
    (writeCtrl v s).err = true → s.err = true ∧ (writeCtrl v s).ecode = s.ecode := by
  obtain ⟨-, he⟩ | ⟨-, he⟩ := writeCtrl_cases v s <;> rw [he]
  · nofun
  · exact fun h => ⟨h, rfl⟩

theorem clearStatus_no_error (v : Word) (s : State) :
    (clearStatus v s).err = true → s.err = true ∧ (clearStatus v s).ecode = s.ecode := by
  intro h
  obtain ⟨herr, hv⟩ := clearedByOne_iff.1 h
  exact ⟨herr, by rw [clearStatus_ecode, hv]; rfl⟩

/-- Settles O36: the register the offset names decides, and with a command pending an operand word and CMD both raise. -/
theorem busyOperandWriteRaisesOverrun : Obligations.BusyOperandWriteRaisesOverrun := by
  intro s off v hp ha
  refine ⟨?_, (readOnlyAndReservedIgnoreWrites s off v ha).1, ?_⟩
  · rintro (hoff | rfl)
    · rw [applyEvent_write_of_aligned v s ha, busWrite_of_operand_busy v (regAt_of_operandOffset hoff).1 hp]
      rfl
    · rw [applyEvent_write_cmd, issue_of_pending v hp]
  · rintro (rfl | rfl)
    · exact ⟨_, applyEvent_write_ctrl s v, writeCtrl_no_error v s⟩
    · exact ⟨_, applyEvent_write_status s v, clearStatus_no_error v s⟩

end Sys2Proof.Machine
end

section
/-! The cipher's derived facts (spec/40_permutation.md R211, 41_key_schedule.md R231, 42_feistel.md R261, R265, R272): the
two permutations and the two directions undo each other, and the bits no table or reading names reach no result. -/
namespace Sys2Proof.Machine
open Sys2Proof.Claim

/-! ### PIP and PFP -/

/-- R207 item 5: PFP undoes PIP. -/
theorem permute_fp_ip (c : Config) (x : Block) : permute 64 (permute 64 x c.raw.tableIP) c.raw.tableFP = x := by
  obtain ⟨hip, hfp, -⟩ := table_lengths c
  obtain ⟨-, -, -, -, -, -, -, hinv, -⟩ := (wf_iff_meetsR207 c.raw).1 c.ok
  exact hinv x _ _ (isPermuted_permute x hip) (isPermuted_permute _ hfp)

/-- PIP undoes PFP: an injective map of the 64-bit values is onto. -/
theorem permute_ip_fp (c : Config) (x : Block) : permute 64 (permute 64 x c.raw.tableFP) c.raw.tableIP = x := by
  have hleft : Function.LeftInverse (fun y : Block => permute 64 y c.raw.tableFP)
      (fun x : Block => permute 64 x c.raw.tableIP) := permute_fp_ip c
  exact hleft.rightInverse_of_surjective (Finite.injective_iff_surjective.1 hleft.injective) x

/-- Settles O4: the two maps are each other's inverse in every well-formed configuration. -/
theorem pipAndPfpUndoEachOther : Obligations.PipAndPfpUndoEachOther := by
  intro s t u v w ht hu hv hw
  rw [exec_pip] at ht hw
  rw [exec_pfp] at hu hv
  injection ht with ht
  subst ht
  injection hu with hu
  injection hv with hv
  subst hv
  injection hw with hw
  exact ⟨by rw [← hu]; exact permute_fp_ip s.cfg s.din, by rw [← hw]; exact permute_ip_fp s.cfg s.din⟩

/-! ### SBOX and the edge bits -/

/-- `S` reads the middle bits of the groups alone. -/
theorem sboxAll_congr {row : Vector (BitVec 4) 16} {x y : Subkey}
    (h : ∀ g < 8, x.extractLsb' (43 - 6 * g) 4 = y.extractLsb' (43 - 6 * g) 4) : sboxAll row x = sboxAll row y := by
  have hentry (g : Nat) (hg : g < 8) : sboxEntry row (sboxGroup x g) = sboxEntry row (sboxGroup y g) := by
    simp only [sboxEntry, sboxColOf_sboxGroup _ g hg, h g hg]
  unfold sboxAll
  rw [hentry 0 (by decide), hentry 1 (by decide), hentry 2 (by decide), hentry 3 (by decide), hentry 4 (by decide),
    hentry 5 (by decide), hentry 6 (by decide), hentry 7 (by decide)]

/-- The mask holds the middle bits of the groups. -/
theorem middle_eq_of_masked_eq {x y : Block} (h : x &&& 0x79E79E79E79E = y &&& 0x79E79E79E79E) (g : Nat) (hg : g < 8) :
    (x.extractLsb' 0 48).extractLsb' (43 - 6 * g) 4 = (y.extractLsb' 0 48).extractLsb' (43 - 6 * g) 4 := by
  have hmask : ∀ g < 8, ∀ i < 4, (0x79E79E79E79E : Block).getLsbD (43 - 6 * g + i) = true := by decide
  refine BitVec.eq_of_getLsbD_eq fun i hi => ?_
  have hbit := congrArg (·.getLsbD (43 - 6 * g + i)) h
  simp only [BitVec.getLsbD_and, hmask g hg i hi, Bool.and_true] at hbit
  simp only [BitVec.getLsbD_extractLsb', Nat.zero_add, hbit]

/-- Settles O6: states that agree under the mask agree on every column. -/
theorem sboxIgnoresGroupEdgeBits : Obligations.SboxIgnoresGroupEdgeBits := by
  intro s t s' t' hcfg hdin hs ht
  rw [exec_sbox] at hs ht
  injection hs with hs
  injection ht with ht
  rw [← hs, ← ht, hcfg]
  exact congrArg (BitVec.setWidth 64) (sboxAll_congr (middle_eq_of_masked_eq hdin))

/-! ### The key byte a reading leaves out -/

/-- A field of a field. -/
theorem extractLsb'_eq_of_field {x y : Block} {lo len i n : Nat} (h : x.extractLsb' lo len = y.extractLsb' lo len)
    (hi : lo ≤ i) (hn : i + n ≤ lo + len) : x.extractLsb' i n = y.extractLsb' i n := by
  refine BitVec.eq_of_getLsbD_eq fun k hk => ?_
  have hbit := congrArg (·.getLsbD (i + k - lo)) h
  have hpos : lo + (i + k - lo) = i + k := by omega
  have hin : i + k - lo < len := by omega
  simpa only [BitVec.getLsbD_extractLsb', hpos, hin, hk, decide_true, Bool.true_and] using hbit

/-- The bits of a key that a reading uses (R231). -/
def SameKeyBits (k : KsExtract) (key key' : Block) : Prop :=
  match k with
  | .low56 => key.extractLsb' 0 56 = key'.extractLsb' 0 56
  | .high56 => key.extractLsb' 8 56 = key'.extractLsb' 8 56

theorem keyHalves_congr {k : KsExtract} {key key' : Block} (h : SameKeyBits k key key') :
    keyHalves k key = keyHalves k key' := by
  cases k with
  | low56 =>
    have hc : key.extractLsb' 28 28 = key'.extractLsb' 28 28 := extractLsb'_eq_of_field h (by decide) (by decide)
    have hd : key.extractLsb' 0 28 = key'.extractLsb' 0 28 := extractLsb'_eq_of_field h (by decide) (by decide)
    exact Prod.ext hc hd
  | high56 =>
    have hc : key.extractLsb' 36 28 = key'.extractLsb' 36 28 := extractLsb'_eq_of_field h (by decide) (by decide)
    have hd : key.extractLsb' 8 28 = key'.extractLsb' 8 28 := extractLsb'_eq_of_field h (by decide) (by decide)
    exact Prod.ext hc hd

theorem subkeys_congr {cfg : Config} {key key' : Block} (h : SameKeyBits cfg.raw.ksExtract key key') :
    subkeys cfg key = subkeys cfg key' := by
  refine Vector.ext fun i hi => ?_
  have hget (key : Block) : (subkeys cfg key)[i] = _ := subkeys_getElem cfg key ⟨i, hi⟩
  rw [hget, hget, keyHalves_congr h]

/-- Settles O9: the three commands read KEY through its subkeys. -/
theorem unusedKeyByteReachesNothing : Obligations.UnusedKeyByteReachesNothing := by
  intro s key i hkey hi
  have hsub : subkeys s.cfg key = subkeys s.cfg s.key := by
    refine subkeys_congr ?_
    unfold SameKeyBits
    exact hkey
  obtain rfl | rfl | rfl := hi
  · exact ⟨_, exec_ksgen s, by rw [exec_ksgen, hsub]⟩
  · exact ⟨_, exec_enc s, by rw [exec_enc, hsub]⟩
  · exact ⟨_, exec_dec s, by rw [exec_dec, hsub]⟩

/-! ### ENC and DEC -/

/-- The rounds with the subkeys reversed, after the swap, give the swap of the halves they started from (R265). -/
theorem foldl_feistelRound_reverse (c : Config) (ks : List Subkey) (lr : Word × Word) :
    ks.reverse.foldl (feistelRound c) (ks.foldl (feistelRound c) lr).swap = lr.swap := by
  induction ks generalizing lr with
  | nil => rfl
  | cons k ks ih =>
    rw [List.reverse_cons, List.foldl_concat, List.foldl_cons, ih]
    exact feistelRound_swap c lr k

/-- The direction that takes the subkeys in the other order. -/
def Direction.flip : Direction → Direction
  | .encrypt => .decrypt
  | .decrypt => .encrypt

theorem roundKeys_flip (k : Vector Subkey 16) (dir : Direction) : roundKeys k dir.flip = (roundKeys k dir).reverse := by
  cases dir with
  | encrypt => rfl
  | decrypt => exact List.reverse_reverse _ ▸ rfl

/-- A block processed in one direction and then in the other is the block (R265). -/
theorem processBlock_flip (c : Config) (b : Block) (k : Vector Subkey 16) (dir : Direction) :
    processBlock c (processBlock c b k dir) k dir.flip = b := by
  have hround := foldl_feistelRound_reverse c (roundKeys k dir)
    (hi32 (permute 64 b c.raw.tableIP), lo32 (permute 64 b c.raw.tableIP))
  rw [← roundKeys_flip] at hround
  simp only [processBlock, permute_ip_fp, hi32_join64, lo32_join64]
  rw [← Prod.swap, hround]
  simp only [Prod.swap, join64_hi32_lo32, permute_fp_ip]

/-- Settles O12: KEY and the configuration are the same for both commands, so the subkeys are. -/
theorem decryptionUndoesEncryption : Obligations.DecryptionUndoesEncryption := fun s =>
  ⟨_, _, _, _, exec_enc s, exec_dec _, processBlock_flip s.cfg s.din (subkeys s.cfg s.key) .encrypt,
    exec_dec s, exec_enc _, processBlock_flip s.cfg s.din (subkeys s.cfg s.key) .decrypt⟩

end Sys2Proof.Machine
end

section
/-! Bytes of blocks and of texts (spec/20_memory.md R86, 42_feistel.md R270 to R272), and the checks Verify makes before it
uses the core (44_modexp.md R345). -/
namespace Sys2Proof.Machine

/-! ### The bytes of a block -/

theorem bytesOfBlock_eq (b : Block) : bytesOfBlock b = [byteOfBlock b 0, byteOfBlock b 1, byteOfBlock b 2,
    byteOfBlock b 3, byteOfBlock b 4, byteOfBlock b 5, byteOfBlock b 6, byteOfBlock b 7] := rfl

/-- Eight bytes appended, byte 0 most significant, are the bytes of the block (20_memory R86). -/
theorem bytesOfBlock_append (b0 b1 b2 b3 b4 b5 b6 b7 : Byte) :
    bytesOfBlock (b0 ++ b1 ++ b2 ++ b3 ++ b4 ++ b5 ++ b6 ++ b7 : BitVec 64) = [b0, b1, b2, b3, b4, b5, b6, b7] := by
  simp (disch := omega) only [bytesOfBlock_eq, byteOfBlock, BitVec.extractLsb'_append_eq_of_le,
    BitVec.extractLsb'_append_eq_of_add_le, Nat.reduceMul, Nat.reduceSub, BitVec.extractLsb'_eq_self]

/-- A block is its bytes appended. -/
theorem append_byteOfBlock (b : Block) : (byteOfBlock b 0 ++ byteOfBlock b 1 ++ byteOfBlock b 2 ++ byteOfBlock b 3 ++
    byteOfBlock b 4 ++ byteOfBlock b 5 ++ byteOfBlock b 6 ++ byteOfBlock b 7 : BitVec 64) = b := by
  simp only [byteOfBlock, Nat.reduceMul, Nat.reduceSub, BitVec.extractLsb'_append_extractLsb'_eq_extractLsb']
  exact BitVec.extractLsb'_eq_self

/-- The blocks of the bytes of blocks are the blocks. -/
theorem blocksOf_flatMap_bytesOfBlock (bs : List Block) : blocksOf (bs.flatMap bytesOfBlock) = bs := by
  induction bs with
  | nil => rfl
  | cons b bs ih =>
    rw [List.flatMap_cons, bytesOfBlock_eq]
    simp only [List.cons_append, List.nil_append, blocksOf, ih, append_byteOfBlock]

/-- The bytes of the blocks of whole blocks are the bytes. -/
theorem flatMap_bytesOfBlock_blocksOf (l : List Byte) (h : l.length % 8 = 0) :
    (blocksOf l).flatMap bytesOfBlock = l := by
  induction l using blocksOf.induct with
  | case1 b0 b1 b2 b3 b4 b5 b6 b7 rest ih =>
    have hrest : rest.length % 8 = 0 := by simp only [List.length_cons] at h; omega
    simp only [blocksOf, List.flatMap_cons, bytesOfBlock_append, ih hrest, List.cons_append, List.nil_append]
  | case2 l hshort =>
    have hnil : l = [] := by
      match l, h, hshort with
      | [], _, _ => rfl
      | b0 :: b1 :: b2 :: b3 :: b4 :: b5 :: b6 :: b7 :: rest, _, hshort =>
        exact absurd rfl (hshort b0 b1 b2 b3 b4 b5 b6 b7 rest)
    subst hnil
    rfl

theorem length_flatMap_bytesOfBlock (bs : List Block) : (bs.flatMap bytesOfBlock).length = 8 * bs.length := by
  induction bs with
  | nil => rfl
  | cons b bs ih => rw [List.flatMap_cons, List.length_append, ih, List.length_cons, bytesOfBlock_eq]; simp; omega

/-! ### The pad of the codec -/

theorem length_padPayload (p : List Byte) : (padPayload p).length = p.length + (8 - p.length % 8) := by
  rw [padPayload, List.length_append, List.length_replicate]

theorem length_padPayload_mod (p : List Byte) : (padPayload p).length % 8 = 0 := by
  rw [length_padPayload]; omega

/-- The last byte of a padded payload is the number of bytes the pad has, from 1 to 8 (R270, R271). -/
theorem stripPad_padPayload (p : List Byte) : stripPad (padPayload p) = p := by
  have hn : 1 ≤ 8 - p.length % 8 ∧ 8 - p.length % 8 ≤ 8 := by omega
  rw [stripPad, length_padPayload, padPayload]
  generalize 8 - p.length % 8 = n at hn
  obtain ⟨hlo, hhi⟩ := hn
  have hbyte : (BitVec.ofNat 8 n).toNat = n := by rw [BitVec.toNat_ofNat]; omega
  have hlast : (p ++ List.replicate n (BitVec.ofNat 8 n)).getLast? = some (BitVec.ofNat 8 n) := by
    rw [List.getLast?_append, List.getLast?_replicate, if_neg (by omega)]; rfl
  simp only [hlast, hbyte]
  rw [if_pos ⟨hlo, hhi⟩, Nat.add_sub_cancel, List.take_left]

/-! ### Key texts -/

/-- The byte of a character (R272). -/
def byteOfChar (ch : Char) : Except HostError Byte :=
  if ch.toNat < 128 then .ok (BitVec.ofNat 8 ch.toNat) else .error .notAscii

theorem bytesOfText_eq (text : String) : bytesOfText text = text.toList.mapM byteOfChar := rfl

theorem mapM_byteOfChar_of_ascii {l : List Char} (h : ∀ ch ∈ l, ch.toNat < 128) :
    l.mapM byteOfChar = .ok (l.map fun ch => BitVec.ofNat 8 ch.toNat) := by
  induction l with
  | nil => rfl
  | cons ch l ih =>
    have hch : byteOfChar ch = .ok (BitVec.ofNat 8 ch.toNat) := if_pos (h ch List.mem_cons_self)
    rw [List.mapM_cons, hch, ih fun c hc => h c (List.mem_cons_of_mem ch hc)]
    rfl

theorem mapM_byteOfChar_of_not_ascii {l : List Char} (h : ∃ ch ∈ l, 128 ≤ ch.toNat) :
    l.mapM byteOfChar = .error .notAscii := by
  induction l with
  | nil => obtain ⟨ch, hch, -⟩ := h; cases hch
  | cons ch l ih =>
    rw [List.mapM_cons]
    by_cases hch : ch.toNat < 128
    · obtain ⟨c, hc, hlarge⟩ := h
      have hmem : c ∈ l := (List.mem_cons.1 hc).resolve_left (by rintro rfl; omega)
      rw [ih ⟨c, hmem, hlarge⟩, show byteOfChar ch = .ok (BitVec.ofNat 8 ch.toNat) from if_pos hch]
      rfl
    · rw [show byteOfChar ch = .error .notAscii from if_neg hch]
      rfl

/-- Byte m of word j of a byte string (30_encoding R129). -/
theorem extract_wordOfBytes (bs : List Byte) (j : Nat) {m : Nat} (hm : m < 4) :
    (wordOfBytes bs j).extractLsb' (24 - 8 * m) 8 = bs.getD (4 * j + m) 0 := by
  unfold wordOfBytes
  interval_cases m <;>
    simp (disch := omega) only [BitVec.extractLsb'_append_eq_of_le, BitVec.extractLsb'_append_eq_of_add_le,
      Nat.reduceMul, Nat.reduceSub, Nat.add_zero, BitVec.extractLsb'_eq_self]

/-- Byte i of the value of the first eight bytes of a string, 0 past its end. -/
theorem byteOfBlock_wordOfBytes (bs : List Byte) {i : Nat} (hi : i < 8) :
    byteOfBlock (join64 (wordOfBytes bs 0) (wordOfBytes bs 1)) i = bs.getD i 0 := by
  rw [byteOfBlock, join64]
  by_cases hhi : i < 4
  · have hstart : 56 - 8 * i - 32 = 24 - 8 * i := by omega
    rw [BitVec.extractLsb'_append_eq_of_le (by omega), hstart, extract_wordOfBytes bs 0 hhi, Nat.mul_zero, Nat.zero_add]
  · obtain ⟨m, rfl⟩ := Nat.exists_eq_add_of_le (Nat.le_of_not_lt hhi)
    have hstart : 56 - 8 * (4 + m) = 24 - 8 * m := by omega
    rw [BitVec.extractLsb'_append_eq_of_add_le (by omega), hstart, extract_wordOfBytes bs 1 (by omega), Nat.mul_one]

/-- The codes of ASCII characters fit a byte. -/
theorem toNat_getD_map_byte {l : List Char} (h : ∀ ch ∈ l, ch.toNat < 128) (i : Nat) :
    ((l.map fun ch => BitVec.ofNat 8 ch.toNat).getD i 0).toNat = (l.map Char.toNat).getD i 0 := by
  have hcodes : (l.map fun ch => BitVec.ofNat 8 ch.toNat).map BitVec.toNat = l.map Char.toNat := by
    rw [List.map_map]
    refine List.map_congr_left fun ch hch => ?_
    have hlt := h ch hch
    exact Nat.mod_eq_of_lt (by omega)
  rw [← hcodes]
  exact (List.getD_map _ 0 BitVec.toNat).symm

/-- Settles O53: each ASCII character is a byte, and the first eight bytes are KEY's, most significant first. -/
theorem keyTextIsNormalised : Obligations.KeyTextIsNormalised := by
  refine ⟨by decide, fun text => ⟨fun h => ?_, fun h hne => ?_⟩⟩
  · rw [keyOfText, bytesOfText_eq, mapM_byteOfChar_of_not_ascii h]
    rfl
  · have hbytes := mapM_byteOfChar_of_ascii h
    have hmap : text.toList.map (fun ch => BitVec.ofNat 8 ch.toNat) ≠ [] := by rwa [Ne, List.map_eq_nil_iff]
    rw [keyOfText, bytesOfText_eq, hbytes]
    refine ⟨_, if_neg hmap, fun i hi => ?_⟩
    rw [← toNat_getD_map_byte h i]
    generalize text.toList.map (fun ch => BitVec.ofNat 8 ch.toNat) = bs
    have htake : (bs.take 8).getD i 0 = bs.getD i 0 := by
      rw [List.getD_eq_getElem?_getD, List.getD_eq_getElem?_getD, List.getElem?_take_of_lt hi]
    exact congrArg BitVec.toNat ((byteOfBlock_wordOfBytes (bs.take 8) hi).trans htake)

/-! ### The checks of Verify -/

/-- Settles O51: the range check is Verify's first. -/
theorem verifyRejectsOutOfRange : Obligations.VerifyRejectsOutOfRange := fun _ _ _ _ _ _ _ h => if_pos h

/-- Settles O52: in range and out of the key's domain the two checks of Verify decide. -/
theorem verifyRefusesAKeyOutOfDomain : Obligations.VerifyRefusesAKeyOutOfDomain := by
  intro msg r sg p g y run hrange hkey
  have hin : ¬ (r ≤ 0 ∨ r ≥ p ∨ sg < 0 ∨ sg ≥ p - 1) := by omega
  have hout : ¬ (2 < p ∧ 1 < g ∧ g < p) := by omega
  rw [verify, if_neg hin, if_pos hout]

end Sys2Proof.Machine
end

section
/-! A host program's run as an interleaving (spec/30_encoding.md R128, R129, 70_reset_and_hazards.md R461): what an
operation of a run that succeeds adds to the trace is its accesses in order, with engine steps between them. -/
namespace Sys2Proof.Machine

theorem except_bind_eq_ok {α β : Type} {x : Except HostError α} {f : α → Except HostError β} {b : β} :
    x >>= f = .ok b ↔ ∃ a, x = .ok a ∧ f a = .ok b := by
  cases x with
  | error e => exact ⟨nofun, fun ⟨_, h, _⟩ => nomatch h⟩
  | ok a => exact ⟨fun h => ⟨a, rfl, h⟩, fun ⟨_, h, hf⟩ => by cases h; exact hf⟩

/-! ### Sequences of steps -/

theorem runEvents_append {es fs : List Event} {s t : State} (h : runEvents es s = .next t) :
    runEvents (es ++ fs) s = runEvents fs t := by
  induction es generalizing s with
  | nil => injection h with h; rw [h, List.nil_append]
  | cons e es ih =>
    rw [runEvents] at h
    split at h
    next u hu => rw [List.cons_append, runEvents_cons _ hu, ih h]
    next => cases h
    next => cases h

/-- A property of the state that every step of the sequence keeps holds at its end. -/
theorem runEvents_induction {P : State → Prop} {es : List Event} {s t : State} (h : runEvents es s = .next t)
    (hstep : ∀ e ∈ es, ∀ u v : State, P u → applyEvent e u = .next v → P v) (hs : P s) : P t := by
  induction es generalizing s with
  | nil => injection h with h; exact h ▸ hs
  | cons e es ih =>
    rw [runEvents] at h
    split at h
    next u hu => exact ih h (fun f hf => hstep f (List.mem_cons_of_mem e hf)) (hstep e List.mem_cons_self s u hs hu)
    next => cases h
    next => cases h

theorem runEvents_cfg {es : List Event} {s t : State} (h : runEvents es s = .next t) : t.cfg = s.cfg :=
  runEvents_induction (P := fun u => u.cfg = s.cfg) h (fun _ _ _ _ hu hv => (applyEvent_cfg hv).trans hu) rfl

theorem runEvents_inv {es : List Event} {s t : State} (h : runEvents es s = .next t) (hs : s.Inv) : t.Inv :=
  runEvents_induction h (fun _ _ _ _ hu hv => applyEvent_inv hu hv) hs

/-! ### Leading from one run to the next -/

/-- From `r` to `q` the host makes the accesses `as` in order and reads the words `ws`, the engine stepping anywhere
between them. -/
def HostRun.Leads (as : List Event) (ws : List Word) (r q : HostRun) : Prop :=
  ∃ es, q.trace = r.trace ++ es ∧ runEvents es r.state = .next q.state ∧ es.filter (fun e => e != .engine) = as ∧
    q.state.reads.map Prod.snd = r.state.reads.map Prod.snd ++ ws

theorem HostRun.Leads.refl (r : HostRun) : HostRun.Leads [] [] r r :=
  ⟨[], (List.append_nil _).symm, rfl, rfl, (List.append_nil _).symm⟩

theorem HostRun.Leads.trans {as bs : List Event} {vs ws : List Word} {r q t : HostRun} (hrq : HostRun.Leads as vs r q)
    (hqt : HostRun.Leads bs ws q t) : HostRun.Leads (as ++ bs) (vs ++ ws) r t := by
  obtain ⟨es, htrace, hrun, hhost, hreads⟩ := hrq
  obtain ⟨fs, htrace', hrun', hhost', hreads'⟩ := hqt
  exact ⟨es ++ fs, by rw [htrace', htrace, List.append_assoc], (runEvents_append hrun).trans hrun',
    by rw [List.filter_append, hhost, hhost'], by rw [hreads', hreads, List.append_assoc]⟩

theorem HostRun.Leads.cfg {as : List Event} {ws : List Word} {r q : HostRun} (h : HostRun.Leads as ws r q) :
    q.state.cfg = r.state.cfg := by
  obtain ⟨es, -, hrun, -, -⟩ := h
  exact runEvents_cfg hrun

theorem HostRun.Leads.inv {as : List Event} {ws : List Word} {r q : HostRun} (h : HostRun.Leads as ws r q)
    (hr : r.state.Inv) : q.state.Inv := by
  obtain ⟨es, -, hrun, -, -⟩ := h
  exact runEvents_inv hrun hr

theorem runEvents_singleton {e : Event} {s t : State} (h : applyEvent e s = .next t) : runEvents [e] s = .next t :=
  runEvents_cons [] h

theorem engineStep_frame {s t : State} (h : engineStep s = .next t) : t = { s with core := t.core } := by
  have h' := engineStep_of_core rfl rfl h
  rw [h] at h'
  injection h'

/-- A turn is an engine step or nothing. -/
theorem HostRun.leads_of_turn {r q : HostRun} (h : r.turn = .ok q) : HostRun.Leads [] [] r q := by
  obtain ⟨-, ⟨hstep, htrace⟩ | ⟨-, hstate, htrace⟩⟩ := HostRun.turn_eq_ok r q h
  · refine ⟨[.engine], htrace, runEvents_singleton hstep, rfl, ?_⟩
    rw [engineStep_frame hstep, List.append_nil]
  · exact ⟨[], by rw [htrace, List.append_nil], by rw [hstate]; rfl, rfl, by rw [hstate, List.append_nil]⟩

theorem HostRun.leads_of_write {off : Offset} {v : Word} {r q : HostRun} (h : r.write off v = .ok q) :
    HostRun.Leads [busW off v] [] r q := by
  obtain ⟨u, hturn, happly, -, htrace⟩ := HostRun.write_eq_ok off v r q h
  have haccess : HostRun.Leads [busW off v] [] u q := by
    refine ⟨[busW off v], htrace, runEvents_singleton happly, rfl, ?_⟩
    rw [busW, applyEvent_write] at happly
    split at happly
    · injection happly with happly
      rw [← happly, busWrite_frame, List.append_nil]
    · cases happly
  exact (HostRun.leads_of_turn hturn).trans haccess

theorem HostRun.leads_of_read {off : Offset} {w : Word} {r q : HostRun} (h : r.read off = .ok (q, w)) :
    HostRun.Leads [busR off] [w] r q := by
  obtain ⟨u, hturn, happly, hw, -, htrace⟩ := HostRun.read_eq_ok off r q w h
  have haccess : HostRun.Leads [busR off] [w] u q := by
    refine ⟨[busR off], htrace, runEvents_singleton happly, rfl, ?_⟩
    rw [busR, applyEvent_read] at happly
    split at happly
    · injection happly with happly
      rw [← happly, busRead_reads, List.map_append, hw]
      rfl
    · cases happly
  exact (HostRun.leads_of_turn hturn).trans haccess

theorem HostRun.leads_of_writeAll {ws : List (Offset × Word)} {r q : HostRun} (h : r.writeAll ws = .ok q) :
    HostRun.Leads (ws.map fun w => busW w.1 w.2) [] r q := by
  induction ws generalizing r with
  | nil => cases h; exact .refl _
  | cons w ws ih =>
    obtain ⟨u, hu, hq⟩ := except_bind_eq_ok.1 h
    exact (HostRun.leads_of_write hu).trans (ih hq)

theorem HostRun.leads_of_readAll {offs : List Offset} {ws : List Word} {r q : HostRun}
    (h : r.readAll offs = .ok (q, ws)) : HostRun.Leads (offs.map busR) ws r q := by
  induction offs generalizing r ws with
  | nil => cases h; exact .refl _
  | cons off offs ih =>
    obtain ⟨⟨u, w⟩, hu, hrest⟩ := except_bind_eq_ok.1 h
    obtain ⟨⟨t, vs⟩, ht, hq⟩ := except_bind_eq_ok.1 hrest
    cases hq
    exact (HostRun.leads_of_read hu).trans (ih ht)

/-- Every time round the loop of `WAIT` is one read of STATUS. -/
theorem HostRun.leads_of_waitLoop {n : Nat} {v : Word} {r q : HostRun} (h : r.waitLoop n = .ok (q, v)) :
    ∃ as ws, HostRun.Leads as ws r q := by
  induction n generalizing r with
  | zero => cases h
  | succ n ih =>
    obtain ⟨⟨u, w⟩, hu, hrest⟩ := except_bind_eq_ok.1 h
    have hread := HostRun.leads_of_read hu
    by_cases hbusy : w.getLsbD 0 = true
    · obtain ⟨as, ws, hloop⟩ := ih ((if_pos hbusy).symm.trans hrest)
      exact ⟨_, _, hread.trans hloop⟩
    · cases (if_neg hbusy).symm.trans hrest
      exact ⟨_, _, hread⟩

/-- A statement other than `WAIT` is its accesses, and returns the words it reads. -/
theorem Stmt.leads_of_run {st : Stmt} {ws : List Word} {r q : HostRun} (hst : st ≠ .wait)
    (h : st.run r = .ok (q, ws)) : HostRun.Leads (st.accesses r.state.cfg) ws r q := by
  rw [Stmt.run, if_neg hst] at h
  obtain ⟨u, hu, hq⟩ := except_bind_eq_ok.1 h
  exact (HostRun.leads_of_writeAll hu).trans (HostRun.leads_of_readAll hq)

theorem Stmt.exists_leads_of_run {st : Stmt} {ws : List Word} {r q : HostRun} (h : st.run r = .ok (q, ws)) :
    ∃ as vs, HostRun.Leads as vs r q := by
  by_cases hst : st = .wait
  · rw [Stmt.run, if_pos hst] at h
    obtain ⟨⟨u, v⟩, hu, hq⟩ := except_bind_eq_ok.1 h
    cases hq
    exact HostRun.leads_of_waitLoop hu
  · exact ⟨_, _, Stmt.leads_of_run hst h⟩

/-- Statements in order, by induction on the program. -/
theorem leads_of_runStmts {p : List Stmt} {vs : List (List Word)} {r q : HostRun} (h : runStmts p r = .ok (q, vs)) :
    ∃ as ws, HostRun.Leads as ws r q ∧
      (Stmt.wait ∉ p → as = p.flatMap (Stmt.accesses r.state.cfg) ∧ ws = vs.flatten) := by
  induction p generalizing r vs with
  | nil => cases h; exact ⟨_, _, .refl _, fun _ => ⟨rfl, rfl⟩⟩
  | cons st p ih =>
    obtain ⟨⟨u, w⟩, hu, hrest⟩ := except_bind_eq_ok.1 h
    obtain ⟨⟨t, ws⟩, ht, hq⟩ := except_bind_eq_ok.1 hrest
    cases hq
    obtain ⟨as, us, hrun, hp⟩ := ih ht
    by_cases hst : st = .wait
    · obtain ⟨bs, xs, hfirst⟩ := Stmt.exists_leads_of_run hu
      exact ⟨_, _, hfirst.trans hrun, fun hmem => absurd (hst ▸ List.mem_cons_self) hmem⟩
    · have hfirst := Stmt.leads_of_run hst hu
      refine ⟨_, _, hfirst.trans hrun, fun hmem => ?_⟩
      obtain ⟨has, hus⟩ := hp fun h => hmem (List.mem_cons_of_mem st h)
      exact ⟨by rw [has, hfirst.cfg, List.flatMap_cons], by rw [hus, List.flatten_cons]⟩

theorem runStmts_of_runProgram {p : List Stmt} {r : HostRun} {x : HostRun × List (List Word)}
    (h : runProgram p r = .ok x) : runStmts p r = .ok x := by
  unfold runProgram at h
  split at h
  · exact h
  · cases h

/-- Settles O56: the steps added to the trace lead from the first state to the last, and those of the host are the
statements' accesses. -/
theorem hostProgramIsAnInterleaving : Obligations.HostProgramIsAnInterleaving := by
  intro p r q vs h
  obtain ⟨as, ws, ⟨es, htrace, hrun, hhost, hreads⟩, hp⟩ := leads_of_runStmts (runStmts_of_runProgram h)
  refine ⟨es, htrace, hrun, fun hwait => ?_⟩
  obtain ⟨rfl, rfl⟩ := hp hwait
  exact ⟨hhost, hreads⟩

/-! ### The wait -/

theorem engineStep_pend {s t : State} (h : engineStep s = .next t) : t.pend = none := by
  obtain ⟨hp, he⟩ | ⟨w, i, -, -, he⟩ | ⟨w, -, -, he⟩ := engineStep_cases s <;> rw [he] at h
  · injection h with h; exact h ▸ hp
  · obtain ⟨t', ht', hframe, -⟩ := exec_frame i s
    obtain rfl : t = t' := by injection h.symm.trans ht'
    exact congrArg (·.pend) hframe
  · cases h

/-- A read before the engine's step does not change what the step leaves of the core. -/
theorem engineStep_busRead {s t : State} (off : Offset) (h : engineStep s = .next t) :
    ∃ t', engineStep (busRead off s) = .next t' ∧ t'.core = t.core ∧ t'.cfg = t.cfg :=
  ⟨_, engineStep_of_core (busRead_core s off) (busRead_cfg s off) h, rfl, by rw [engineStep_frame h]; rfl⟩

/-- STATUS is a function of the core. -/
theorem statusWord_of_core {s t : State} (h : t.core = s.core) : t.statusWord = s.statusWord := by
  simp only [State.statusWord, State.busy, h]

/-- Where the engine's step answers, a turn is that step or, where the list says so, nothing. -/
theorem HostRun.turn_cases {r : HostRun} {t : State} (h : engineStep r.state = .next t) :
    (∃ tr, r.turn = .ok ⟨t, r.turns.tail, tr⟩) ∨
    (∃ bs, r.turns = false :: bs ∧ r.turn = .ok ⟨r.state, bs, r.trace⟩) := by
  obtain ⟨s, turns, tr⟩ := r
  match turns with
  | [] => exact .inl ⟨_, HostRun.apply_of_next .engine ⟨s, [], tr⟩ t h⟩
  | true :: bs => exact .inl ⟨_, HostRun.apply_of_next .engine ⟨s, bs, tr⟩ t h⟩
  | false :: bs => exact .inr ⟨bs, rfl, rfl⟩

/-- A read after its turn. -/
theorem HostRun.read_of_turn {off : Offset} {r u : HostRun} (ha : off.toNat % 4 = 0) (h : r.turn = .ok u) :
    r.read off = .ok (⟨busRead off u.state, u.turns, u.trace ++ [busR off]⟩, busReadValue off u.state) := by
  have hread : applyEvent (busR off) u.state = .next (busRead off u.state) := if_pos (accessOk_iff.2 ⟨rfl, ha⟩)
  rw [HostRun.read, h]
  change (u.apply (busR off) >>= _) = _
  rw [HostRun.apply_of_next _ _ _ hread]
  rfl

theorem offsetOf_status_aligned : (offsetOf .status).toNat % 4 = 0 := rfl

theorem HostRun.waitLoop_succ {n : Nat} {r q : HostRun} {v : Word} (h : r.read (offsetOf .status) = .ok (q, v)) :
    r.waitLoop (n + 1) = if v.getLsbD 0 then q.waitLoop n else .ok (q, v) := by
  rw [HostRun.waitLoop, h]
  rfl

/-- The read of STATUS that finds the core idle ends the loop. -/
theorem HostRun.waitLoop_of_idle {n : Nat} {r u : HostRun} (hturn : r.turn = .ok u) (hp : u.state.pend = none) :
    ∃ q, r.waitLoop (n + 1) = .ok (q, u.state.statusWord) ∧ q.state = busRead (offsetOf .status) u.state := by
  have hread := HostRun.read_of_turn offsetOf_status_aligned hturn
  have hidle : ¬ u.state.statusWord.getLsbD 0 = true := by
    rw [(statusWord_fields u.state).1, busy_eq_false_iff.2 hp]; nofun
  exact ⟨_, (HostRun.waitLoop_succ hread).trans (if_neg hidle), rfl⟩

/-- The read of STATUS that finds a command pending goes round the loop again. -/
theorem HostRun.waitLoop_of_busy {n : Nat} {r u : HostRun} (hturn : r.turn = .ok u) (hp : u.state.pend ≠ none) :
    r.waitLoop (n + 1) =
      HostRun.waitLoop n ⟨busRead (offsetOf .status) u.state, u.turns, u.trace ++ [busR (offsetOf .status)]⟩ := by
  have hread := HostRun.read_of_turn offsetOf_status_aligned hturn
  have hbusy : u.state.statusWord.getLsbD 0 = true := by
    rw [(statusWord_fields u.state).1, busy_iff.2 hp]
  exact (HostRun.waitLoop_succ hread).trans (if_pos hbusy)

/-- `WAIT` from `r` ends with the core of `t`: the words of STATUS before the last have bit 0 set, and the last is `t`'s
(30_encoding R129). -/
def HostRun.WaitEndsAt (t : State) (r : HostRun) : Prop :=
  ∃ (q : HostRun) (ws : List Word), r.wait = .ok (q, t.statusWord) ∧
    q.state.reads = r.state.reads ++ ws.map (fun w => ((0x00C : Offset), w)) ++ [(0x00C, t.statusWord)] ∧
    (∀ w ∈ ws, w.getLsbD 0 = true) ∧ q.state.core = t.core ∧ q.state.cfg = t.cfg

/-- A turn that leaves the core idle ends it at once. -/
theorem HostRun.waitEndsAt_of_turn {r u : HostRun} {t : State} (h : engineStep r.state = .next t)
    (hturn : r.turn = .ok u) (hu : u.state = t) : HostRun.WaitEndsAt t r := by
  subst hu
  have hreads : u.state.reads = r.state.reads := by rw [engineStep_frame h]
  obtain ⟨q, hq, hstate⟩ := HostRun.waitLoop_of_idle (n := r.turns.length) hturn (engineStep_pend h)
  refine ⟨q, [], hq, ?_, nofun, by rw [hstate, busRead_core], by rw [hstate, busRead_cfg]⟩
  rw [hstate, busRead_reads, hreads, List.map_nil, List.append_nil]
  rfl

/-- By induction on the turns: past the end of the list the engine has its turn before the next read. -/
theorem HostRun.waitEndsAt_of_engineStep {r : HostRun} {t : State} (h : engineStep r.state = .next t) :
    HostRun.WaitEndsAt t r := by
  obtain ⟨s, turns, tr⟩ := r
  replace h : engineStep s = .next t := h
  induction turns generalizing s t tr with
  | nil =>
    obtain ⟨tr', hturn⟩ | ⟨bs, hbs, -⟩ := HostRun.turn_cases (r := ⟨s, [], tr⟩) h
    · exact HostRun.waitEndsAt_of_turn h hturn rfl
    · cases hbs
  | cons b bs ih =>
    obtain ⟨tr', hturn⟩ | ⟨bs', hbs, hturn⟩ := HostRun.turn_cases (r := ⟨s, b :: bs, tr⟩) h
    · exact HostRun.waitEndsAt_of_turn h hturn rfl
    · cases hbs
      by_cases hp : s.pend = none
      · obtain rfl : s = t := by injection (engineStep_of_none s hp).symm.trans h
        exact HostRun.waitEndsAt_of_turn h hturn rfl
      · obtain ⟨t', ht', hcoret, hcfgt⟩ := engineStep_busRead (offsetOf .status) h
        obtain ⟨q, ws, hq, hreads, hws, hcore, hcfg⟩ :=
          ih (busRead (offsetOf .status) s) (tr ++ [busR (offsetOf .status)]) ht'
        rw [statusWord_of_core hcoret] at hq hreads
        refine ⟨q, s.statusWord :: ws, (HostRun.waitLoop_of_busy hturn hp).trans hq, ?_, ?_, hcore.trans hcoret,
          hcfg.trans hcfgt⟩
        · have hread : (busRead (offsetOf .status) s).reads = s.reads ++ [(0x00C, s.statusWord)] := rfl
          simp only [hreads, hread, List.map_cons, List.append_assoc, List.cons_append, List.nil_append]
        · rintro w (_ | ⟨_, hw⟩)
          · rw [(statusWord_fields s).1, busy_iff.2 hp]
          · exact hws w hw

/-- Settles O55: in a state of the invariant the engine's step answers. -/
theorem waitReadsUntilIdle : Obligations.WaitReadsUntilIdle := by
  intro r hr
  obtain ⟨t, ht, hp⟩ := engineStep_answers hr
  obtain ⟨q, ws, hq, hreads, hws, hcore, -⟩ := HostRun.waitEndsAt_of_engineStep ht
  refine ⟨q, t.statusWord, ws, t, hq, hreads, hws, ?_, (congrArg (·.pend) hcore).trans hp, ht, hcore⟩
  rw [(statusWord_fields t).1, busy_eq_false_iff.2 hp]

end Sys2Proof.Machine
end

section
/-! A host call (spec/45_control.md R387) as one list of word writes, a wait and a check: from an idle core every turn
passes, so the call is the command's rule; from a busy one a command still pending at the call's second write shows as
OVERRUN, which nothing in the call clears (70_reset_and_hazards.md R456). -/
namespace Sys2Proof.Machine

/-! ### The writes of operand words -/

theorem offsetOf_aligned (r : Reg) : (offsetOf r).toNat % 4 = 0 := by
  cases r <;> simp [offsetOf] <;> omega

/-- A write of an operand word, by its register. -/
def OperandWrite (c : Config) (w : Offset × Word) : Prop :=
  ∃ r : Reg, w.1 = offsetOf r ∧ r.present c = true ∧ r.isOperand = true

/-- The statements that write operands expand to writes of operand words and read nothing (30_encoding R129). -/
theorem Stmt.operandWrite_of_mem_writes {c : Config} {st : Stmt} (hwf : st.wf c = true)
    (hst : st.writesOperands = true) : ∀ w ∈ st.writes c, OperandWrite c w := by
  obtain ⟨-, hwords, -⟩ := words_bounds c
  cases st with
  | wr64 r imm =>
    rintro w (_ | ⟨_, _ | ⟨_, h⟩⟩)
    · cases r with
      | key => exact ⟨.keyHi, rfl, rfl, rfl⟩
      | din => exact ⟨.dinHi, rfl, rfl, rfl⟩
      | _ => cases hwf
    · cases r with
      | key => exact ⟨.keyLo, rfl, rfl, rfl⟩
      | din => exact ⟨.dinLo, rfl, rfl, rfl⟩
      | _ => cases hwf
    · cases h
  | wrbig r imm =>
    intro w hw
    obtain ⟨j, hj, rfl⟩ := List.mem_map.1 hw
    have hlt : j < c.words := List.mem_range.1 hj
    have hpresent : decide (j < c.words) = true := decide_eq_true hlt
    cases r with
    | opa => exact ⟨.opa ⟨j, by omega⟩, rfl, hpresent, rfl⟩
    | opb => exact ⟨.opb ⟨j, by omega⟩, rfl, hpresent, rfl⟩
    | mod => exact ⟨.mod ⟨j, by omega⟩, rfl, hpresent, rfl⟩
    | res => cases hwf
  | wrmsg bytes =>
    intro w hw
    obtain ⟨j, -, rfl⟩ := List.mem_map.1 hw
    exact ⟨.msg (Fin.ofNat 16 j), rfl, rfl, rfl⟩
  | _ => cases hst

theorem Stmt.reads_of_writesOperands {st : Stmt} (c : Config) (h : st.writesOperands = true) : st.reads c = [] := by
  cases st with
  | wr64 r imm | wrbig r imm | wrmsg bytes => rfl
  | _ => cases h

/-- All the words a list of such statements writes. -/
theorem operandWrite_of_mem_flatMap {c : Config} {operands : List Stmt} (hwf : operands.all (Stmt.wf c) = true)
    (hop : operands.all Stmt.writesOperands = true) : ∀ w ∈ operands.flatMap (Stmt.writes c), OperandWrite c w := by
  intro w hw
  obtain ⟨st, hst, hmem⟩ := List.mem_flatMap.1 hw
  exact Stmt.operandWrite_of_mem_writes (List.all_eq_true.1 hwf st hst) (List.all_eq_true.1 hop st hst) w hmem

/-- `BusWrite` of each word. -/
def writeEvents (ws : List (Offset × Word)) : List Event := ws.map fun w => busW w.1 w.2

theorem accesses_flatMap_eq {operands : List Stmt} (c : Config) (h : operands.all Stmt.writesOperands = true) :
    operands.flatMap (Stmt.accesses c) = writeEvents (operands.flatMap (Stmt.writes c)) := by
  rw [writeEvents, List.map_flatMap]
  refine List.flatMap_congr fun st hst => ?_
  rw [Stmt.accesses, Stmt.reads_of_writesOperands c (List.all_eq_true.1 h st hst), List.map_nil, List.append_nil]

/-- The operand registers may differ and nothing else. -/
def State.OperandFrame (s t : State) : Prop :=
  t = { s with key := t.key, din := t.din, msg := t.msg, opa := t.opa, opb := t.opb, mod := t.mod }

theorem State.OperandFrame.trans {s t u : State} (hst : s.OperandFrame t) (htu : t.OperandFrame u) :
    s.OperandFrame u := by
  unfold State.OperandFrame at *
  rw [htu, hst]

theorem State.OperandFrame.pend {s t : State} (h : s.OperandFrame t) : t.pend = s.pend := congrArg (·.pend) h

theorem State.OperandFrame.err {s t : State} (h : s.OperandFrame t) : t.err = s.err := congrArg (·.err) h

theorem State.OperandFrame.cfg {s t : State} (h : s.OperandFrame t) : t.cfg = s.cfg := congrArg (·.cfg) h

theorem OperandWrite.isOperand_regAt {c : Config} {w : Offset × Word} (h : OperandWrite c w) :
    (regAt c w.1).isOperand = true := by
  obtain ⟨r, hw, hr, hop⟩ := h
  rw [hw, regAt_offsetOf c r hr, hop]

theorem OperandWrite.aligned {c : Config} {w : Offset × Word} (h : OperandWrite c w) : w.1.toNat % 4 = 0 := by
  obtain ⟨r, hw, -⟩ := h
  rw [hw, offsetOf_aligned]

/-- An operand word written while idle. -/
theorem applyEvent_of_operandWrite {s : State} {w : Offset × Word} (hp : s.pend = none) (hw : OperandWrite s.cfg w) :
    applyEvent (busW w.1 w.2) s = .next (s.setOperandWord w.2 (regAt s.cfg w.1)) := by
  rw [busW, applyEvent_write_of_aligned w.2 s hw.aligned, busWrite_of_operand_idle w.2 hw.isOperand_regAt hp]

/-- From an idle core the writes of a run are the writes of the core: every turn passes. -/
theorem HostRun.writeAll_of_idle {ws : List (Offset × Word)} {r : HostRun} (hp : r.state.pend = none)
    (hws : ∀ w ∈ ws, OperandWrite r.state.cfg w) : ∃ s turns tr, r.writeAll ws = .ok ⟨s, turns, tr⟩ ∧
      runEvents (writeEvents ws) r.state = .next s ∧ r.state.OperandFrame s := by
  induction ws generalizing r with
  | nil => exact ⟨_, _, _, rfl, rfl, rfl⟩
  | cons w ws ih =>
    obtain ⟨t, happly, hframe⟩ : ∃ t, applyEvent (busW w.1 w.2) r.state = .next t ∧ r.state.OperandFrame t :=
      ⟨_, applyEvent_of_operandWrite hp (hws w List.mem_cons_self), (setOperandWord_frame ..).1⟩
    obtain ⟨tr, hwrite⟩ := HostRun.write_of_idle w.1 w.2 r _ hp happly
    obtain ⟨s, turns, tr', hall, hrun, hrest⟩ :=
      ih (r := ⟨t, r.turns.tail, tr⟩) (hframe.pend.trans hp)
        fun v hv => hframe.cfg ▸ hws v (List.mem_cons_of_mem w hv)
    exact ⟨s, turns, tr', except_bind_eq_ok.2 ⟨_, hwrite, hall⟩, (runEvents_cons _ happly).trans hrun,
      hframe.trans hrest⟩

/-! ### A call as writes, a wait and a check -/

/-- The words written in order, then `WAIT` and the check of STATUS.ERR (R387). -/
def HostRun.writeAndCheck (ws : List (Offset × Word)) (r : HostRun) : Except HostError HostRun := do
  let q ← r.writeAll ws
  let (t, v) ← q.wait
  if v.getLsbD 2 then .error (.core (v.extractLsb' 4 4)) else return t

theorem HostRun.writeAll_append (as bs : List (Offset × Word)) (r : HostRun) :
    r.writeAll (as ++ bs) = r.writeAll as >>= fun q => q.writeAll bs := by
  induction as generalizing r with
  | nil => rfl
  | cons w as ih =>
    rw [List.cons_append, HostRun.writeAll, HostRun.writeAll]
    cases r.write w.1 w.2 with
    | error e => rfl
    | ok q => exact ih q

theorem HostRun.writeAndCheck_append {as : List (Offset × Word)} {r q : HostRun} (bs : List (Offset × Word))
    (h : r.writeAll as = .ok q) : r.writeAndCheck (as ++ bs) = q.writeAndCheck bs := by
  rw [HostRun.writeAndCheck, HostRun.writeAll_append, h]
  rfl

/-- Statements that only write, as the words they write. -/
theorem runStmts_of_writes {p : List Stmt} {r : HostRun} (hp : ∀ st ∈ p, st ≠ .wait ∧ ∀ c, st.reads c = []) :
    runStmts p r = r.writeAll (p.flatMap (Stmt.writes r.state.cfg)) >>= fun q => .ok (q, p.map fun _ => []) := by
  induction p generalizing r with
  | nil => rfl
  | cons st p ih =>
    obtain ⟨hwait, hreads⟩ := hp st List.mem_cons_self
    rw [List.flatMap_cons, HostRun.writeAll_append, runStmts, Stmt.run, if_neg hwait, hreads]
    cases hq : r.writeAll (st.writes r.state.cfg) with
    | error e => rfl
    | ok q =>
      change (runStmts p q >>= _) = (q.writeAll _ >>= _)
      rw [ih fun s hs => hp s (List.mem_cons_of_mem st hs), (HostRun.leads_of_writeAll hq).cfg]
      cases q.writeAll (p.flatMap (Stmt.writes r.state.cfg)) with
      | error e => rfl
      | ok t => rfl

/-- The words a call writes: STATUS cleared, the operands, the command. -/
def callWrites (c : Config) (operands : List Stmt) (i : Instr) : List (Offset × Word) :=
  (0x00C, 0x00000006) :: (operands.flatMap (Stmt.writes c) ++ [(0x010, encode i)])

theorem hostCall_eq_writeAndCheck {operands : List Stmt} {i : Instr} {r : HostRun}
    (hwf : operands.all (Stmt.wf r.state.cfg) = true) (hop : operands.all Stmt.writesOperands = true) :
    hostCall operands i r = r.writeAndCheck (callWrites r.state.cfg operands i) := by
  have hall : (Stmt.clr :: operands ++ [Stmt.cmd i]).all (Stmt.wf r.state.cfg) = true := by
    rw [List.cons_append, List.all_cons, List.all_append, hwf]; rfl
  have hwrites : ∀ st ∈ Stmt.clr :: operands ++ [Stmt.cmd i], st ≠ .wait ∧ ∀ c, st.reads c = [] := by
    intro st hst
    obtain rfl | hst | rfl : st = .clr ∨ st ∈ operands ∨ st = .cmd i := by simpa using hst
    · exact ⟨nofun, fun _ => rfl⟩
    · have hst' := List.all_eq_true.1 hop st hst
      exact ⟨(by rintro rfl; cases hst'), fun c => Stmt.reads_of_writesOperands c hst'⟩
    · exact ⟨nofun, fun _ => rfl⟩
  have hflat : (Stmt.clr :: operands ++ [Stmt.cmd i]).flatMap (Stmt.writes r.state.cfg) =
      callWrites r.state.cfg operands i := by
    rw [List.cons_append, List.flatMap_cons, List.flatMap_append]; rfl
  rw [hostCall, runProgram, if_pos hall, runStmts_of_writes hwrites, hflat, HostRun.writeAndCheck]
  cases r.writeAll (callWrites r.state.cfg operands i) with
  | error e => rfl
  | ok q => rfl

/-- A call with a statement out of its bounds does not answer. -/
theorem wf_of_hostCall_eq_ok {operands : List Stmt} {i : Instr} {r q : HostRun} (h : hostCall operands i r = .ok q) :
    operands.all (Stmt.wf r.state.cfg) = true := by
  obtain ⟨x, hx, -⟩ := except_bind_eq_ok.1 h
  unfold runProgram at hx
  split at hx
  next hall =>
    rw [List.cons_append, List.all_cons, List.all_append, Bool.and_eq_true, Bool.and_eq_true] at hall
    obtain ⟨-, hwf, -⟩ := hall
    exact hwf
  next => cases hx

/-- What a call answers where the command leaves `t`: the run with `t`'s core, or the error of `t`. -/
def CallAnswers (t : State) (x : Except HostError HostRun) : Prop :=
  (t.err = false → ∃ q, x = .ok q ∧ q.state.core = t.core ∧ q.state.cfg = t.cfg) ∧
  (t.err = true → x = .error (.core t.ecode))

theorem CallAnswers.of_ok {t : State} {x : Except HostError HostRun} {q : HostRun} (h : CallAnswers t x)
    (hq : x = .ok q) : t.err = false ∧ q.state.core = t.core := by
  obtain ⟨hok, herror⟩ := h
  cases he : t.err with
  | false =>
    obtain ⟨q', hq', hcore, -⟩ := hok he
    cases hq.symm.trans hq'
    exact ⟨rfl, hcore⟩
  | true => cases hq.symm.trans (herror he)

/-- The wait and the check, with a command pending or not (R387). -/
theorem HostRun.callAnswers_of_engineStep {r : HostRun} {t : State} (h : engineStep r.state = .next t) :
    CallAnswers t (r.writeAndCheck []) := by
  obtain ⟨q, ws, hq, -, -, hcore, hcfg⟩ := HostRun.waitEndsAt_of_engineStep h
  obtain ⟨-, herr, hcode⟩ := statusWord_fields t
  have hcheck : r.writeAndCheck [] = if t.err then .error (.core t.ecode) else .ok q := by
    rw [← herr, ← hcode]
    change (r.wait >>= _) = _
    rw [hq]
    rfl
  rw [hcheck]
  exact ⟨fun he => ⟨q, by rw [he]; rfl, hcore, hcfg⟩, fun he => by rw [he]; rfl⟩

/-- The operands, the command and the check from an idle core, STATUS cleared or not. -/
theorem HostRun.callAnswers_of_idle {ws : List (Offset × Word)} {r : HostRun} (i : Instr) (hp : r.state.pend = none)
    (hws : ∀ w ∈ ws, OperandWrite r.state.cfg w) : ∃ s t, runEvents (writeEvents ws) r.state = .next s ∧
      r.state.OperandFrame s ∧ exec i (s.issued (encode i)) = .next t ∧
      CallAnswers t (r.writeAndCheck (ws ++ [(0x010, encode i)])) := by
  obtain ⟨s, turns, tr, hall, hrun, hframe⟩ := HostRun.writeAll_of_idle hp hws
  obtain ⟨t, ht, -⟩ := exec_frame i (s.issued (encode i))
  have hidle : s.pend = none := hframe.pend.trans hp
  obtain ⟨tr', hissue⟩ := HostRun.write_of_idle 0x010 (encode i) ⟨s, turns, tr⟩ _ hidle
    (applyEvent_write_cmd_of_idle hidle (decode_encode i))
  have hcheck : r.writeAndCheck (ws ++ [(0x010, encode i)]) =
      HostRun.writeAndCheck [] ⟨s.issued (encode i), turns.tail, tr'⟩ :=
    (HostRun.writeAndCheck_append _ hall).trans
      (HostRun.writeAndCheck_append (as := [(0x010, encode i)]) [] (except_bind_eq_ok.2 ⟨_, hissue, rfl⟩))
  refine ⟨s, t, hrun, hframe, ht, ?_⟩
  rw [hcheck]
  exact HostRun.callAnswers_of_engineStep ((engineStep_issued s (decode_encode i)).trans ht)

/-- The whole call from an idle core. -/
theorem HostRun.callAnswers_of_clear_idle {ws : List (Offset × Word)} {r : HostRun} (i : Instr)
    (hp : r.state.pend = none) (hws : ∀ w ∈ ws, OperandWrite r.state.cfg w) :
    ∃ s t, runEvents (writeEvents ws) (clearStatus 0x00000006 r.state) = .next s ∧
      (clearStatus 0x00000006 r.state).OperandFrame s ∧ exec i (s.issued (encode i)) = .next t ∧
      CallAnswers t (r.writeAndCheck ((0x00C, 0x00000006) :: (ws ++ [(0x010, encode i)]))) := by
  obtain ⟨tr, hclear⟩ := HostRun.write_of_idle 0x00C 0x00000006 r _ hp (applyEvent_write_status r.state _)
  obtain ⟨s, t, hrun, hframe, ht, hcall⟩ :=
    HostRun.callAnswers_of_idle (r := ⟨clearStatus 0x00000006 r.state, r.turns.tail, tr⟩) i hp hws
  have hfirst : r.writeAndCheck ((0x00C, 0x00000006) :: (ws ++ [(0x010, encode i)])) =
      HostRun.writeAndCheck (ws ++ [(0x010, encode i)]) ⟨clearStatus 0x00000006 r.state, r.turns.tail, tr⟩ :=
    HostRun.writeAndCheck_append (as := [(0x00C, 0x00000006)]) _ (except_bind_eq_ok.2 ⟨_, hclear, rfl⟩)
  exact ⟨s, t, hrun, hframe, ht, hfirst ▸ hcall⟩

/-- The accesses of a call before its command. -/
theorem runEvents_clear_accesses {operands : List Stmt} {c : Config} {s : State}
    (hop : operands.all Stmt.writesOperands = true) :
    runEvents ((Stmt.clr :: operands).flatMap (Stmt.accesses c)) s =
      runEvents (writeEvents (operands.flatMap (Stmt.writes c))) (clearStatus 0x00000006 s) := by
  rw [List.flatMap_cons, accesses_flatMap_eq c hop]
  exact runEvents_cons _ (applyEvent_write_status s _)

/-- Settles O57: the call is the writes, the wait and the check, and from an idle core every turn passes. -/
theorem hostCallIsTheCommand : Obligations.HostCallIsTheCommand := by
  intro operands i r _ hp hwf hop
  obtain ⟨s, t, hrun, -, ht, hok, herror⟩ :=
    HostRun.callAnswers_of_clear_idle i hp (operandWrite_of_mem_flatMap hwf hop)
  refine ⟨s, t, (runEvents_clear_accesses hop).trans hrun, ht, fun he => ?_, fun he => ?_⟩
  · obtain ⟨q, hq, hcore, -⟩ := hok he
    exact ⟨q, (hostCall_eq_writeAndCheck hwf hop).trans hq, hcore⟩
  · exact (hostCall_eq_writeAndCheck hwf hop).trans (herror he)

end Sys2Proof.Machine
end

section
/-! A call from a busy core (spec/45_control.md R387, 70_reset_and_hazards.md R452, R456): an error raised after STATUS was
cleared is still there at the check, so a call that answers met no error; the command that was pending then completed
before the first operand, as if it had before the call. -/
namespace Sys2Proof.Machine

/-! ### Errors stay to the check -/

/-- A word a call writes after STATUS: an operand's or CMD's. -/
def CallWrite (c : Config) (w : Offset × Word) : Prop := OperandWrite c w ∨ w.1 = 0x010

theorem callWrite_of_mem {c : Config} {ws : List (Offset × Word)} {v : Word} (hws : ∀ w ∈ ws, OperandWrite c w) :
    ∀ w ∈ ws ++ [(0x010, v)], CallWrite c w := by
  intro w hw
  obtain h | h := List.mem_append.1 hw
  · exact .inl (hws w h)
  · exact .inr (by rw [List.mem_singleton.1 h])

/-- Such a word is neither STATUS's nor CTRL's. -/
theorem CallWrite.offset_ne {c : Config} {w : Offset × Word} (h : CallWrite c w) : w.1 ≠ 0x00C ∧ w.1 ≠ 0x008 := by
  obtain h | h := h
  · have hop := h.isOperand_regAt
    constructor
    · intro he; rw [he] at hop; cases hop
    · intro he; rw [he] at hop; cases hop
  · rw [h]; decide

theorem err_of_applyEvent {e : Event} {s t : State} (h : applyEvent e s = .next t) (hhard : e ≠ .hardReset)
    (hwrite : ∀ off size v, e = .write off size v → off ≠ 0x00C ∧ off ≠ 0x008) (herr : s.err = true) : t.err = true :=
  (stickyFlagsStaySet s t e h hhard fun off size v he =>
    ⟨(hwrite off size v he).1, fun h8 => absurd h8 (hwrite off size v he).2⟩).2 herr

theorem err_of_engineStep {s t : State} (h : engineStep s = .next t) (herr : s.err = true) : t.err = true :=
  err_of_applyEvent (e := .engine) h nofun nofun herr

/-- ERR, once set, is set after the words of a call, wherever the engine has its turns. -/
theorem HostRun.err_of_writeAll {ws : List (Offset × Word)} {r q : HostRun} (h : r.writeAll ws = .ok q)
    (hws : ∀ w ∈ ws, CallWrite r.state.cfg w) (herr : r.state.err = true) : q.state.err = true := by
  obtain ⟨es, -, hrun, hhost, -⟩ := HostRun.leads_of_writeAll h
  refine runEvents_induction (P := fun s => s.err = true) hrun (fun e he s t hs ht => ?_) herr
  by_cases hengine : e = .engine
  · subst hengine
    exact err_of_engineStep ht hs
  · have hmem : e ∈ es.filter fun e => e != .engine := List.mem_filter.2 ⟨he, bne_iff_ne.2 hengine⟩
    rw [hhost] at hmem
    obtain ⟨w, hw, rfl⟩ := List.mem_map.1 hmem
    refine err_of_applyEvent ht nofun (fun off size v he => ?_) hs
    obtain ⟨rfl, -, -⟩ := Event.write.inj he
    exact (hws w hw).offset_ne

/-- So with ERR set the check fails. -/
theorem HostRun.writeAndCheck_ne_ok_of_err {ws : List (Offset × Word)} {r q : HostRun} (hinv : r.state.Inv)
    (hws : ∀ w ∈ ws, CallWrite r.state.cfg w) (herr : r.state.err = true) : r.writeAndCheck ws ≠ .ok q := by
  intro h
  obtain ⟨u, hu, hcheck⟩ := except_bind_eq_ok.1 h
  obtain ⟨t, ht, -⟩ := engineStep_answers ((HostRun.leads_of_writeAll hu).inv hinv)
  obtain ⟨he, -⟩ := (HostRun.callAnswers_of_engineStep ht).of_ok hcheck
  exact absurd (he.symm.trans (err_of_engineStep ht (HostRun.err_of_writeAll hu hws herr))) nofun

/-- While a command is pending such a word raises OVERRUN (60_exceptions R405). -/
theorem applyEvent_of_callWrite_busy {s : State} {w : Offset × Word} (hp : s.pend ≠ none) (hw : CallWrite s.cfg w) :
    applyEvent (busW w.1 w.2) s = .next (raise .overrun s) := by
  obtain hw | hw := hw
  · rw [busW, applyEvent_write_of_aligned w.2 s hw.aligned, busWrite_of_operand_busy w.2 hw.isOperand_regAt hp]
  · rw [busW, hw, applyEvent_write_cmd, issue_of_pending w.2 hp]
    rfl

/-! ### The first write of a list and its turn -/

theorem HostRun.writeAndCheck_cons {w : Offset × Word} {r u : HostRun} {t : State} (ws : List (Offset × Word))
    (hturn : r.turn = .ok u) (happly : applyEvent (busW w.1 w.2) u.state = .next t) :
    r.writeAndCheck (w :: ws) = HostRun.writeAndCheck ws ⟨t, u.turns, u.trace ++ [busW w.1 w.2]⟩ := by
  have hwrite : r.write w.1 w.2 = .ok ⟨t, u.turns, u.trace ++ [busW w.1 w.2]⟩ := by
    rw [HostRun.write, hturn]
    exact HostRun.apply_of_next _ u t happly
  exact HostRun.writeAndCheck_append (as := [w]) ws (except_bind_eq_ok.2 ⟨_, hwrite, rfl⟩)

/-- A turn that was the engine's step is a turn that passes on what the step left. -/
theorem HostRun.writeAndCheck_cons_of_turn {w : Offset × Word} {r u : HostRun} (ws : List (Offset × Word))
    (hturn : r.turn = .ok u) : r.writeAndCheck (w :: ws) =
      HostRun.writeAndCheck (w :: ws) ⟨u.state, false :: u.turns, u.trace⟩ := by
  simp only [HostRun.writeAndCheck, HostRun.writeAll, HostRun.write, hturn]
  rfl

/-! ### A command that completes after STATUS was cleared -/

/-- The cores agree but for DONE. -/
structure State.SameButDone (s u : State) : Prop where
  cfg : u.cfg = s.cfg
  core : u.core = { s.core with done := u.done }

theorem State.SameButDone.pend {s u : State} (h : s.SameButDone u) : u.pend = s.pend := congrArg (·.pend) h.core

theorem State.SameButDone.core_eq {s u : State} (h : s.SameButDone u) (hdone : u.done = s.done) : u.core = s.core := by
  rw [h.core, hdone]

theorem State.SameButDone.symm {s u : State} (h : s.SameButDone u) : u.SameButDone s :=
  ⟨h.cfg.symm, by rw [h.core]⟩

theorem State.SameButDone.issued {s u : State} (h : s.SameButDone u) (w : Word) :
    (s.issued w).SameButDone (u.issued w) :=
  ⟨h.cfg, congrArg (fun c : CoreState => { c with cmd := w, pend := some w }) h.core⟩

theorem sameButDone_iff_sameButFlags {s u : State} : s.SameButDone u ↔
    s.SameButFlags u ∧ u.ie = s.ie ∧ u.err = s.err ∧ u.ecode = s.ecode := by
  constructor
  · intro h
    have hie : u.ie = s.ie := congrArg (·.ie) h.core
    have herr : u.err = s.err := congrArg (·.err) h.core
    have hcode : u.ecode = s.ecode := congrArg (·.ecode) h.core
    exact ⟨⟨h.cfg, by rw [hie, herr, hcode]; exact h.core⟩, hie, herr, hcode⟩
  · rintro ⟨h, hie, herr, hcode⟩
    exact ⟨h.cfg, by rw [h.core, hie, herr, hcode]⟩

theorem State.SameButFlags.symm {s u : State} (h : s.SameButFlags u) : u.SameButFlags s :=
  ⟨h.cfg.symm, by rw [h.core]⟩

/-- A completion by its flags (45_control R385). -/
theorem exec_flags {i : Instr} {s t : State} (h : exec i s = .next t) : t.ie = s.ie ∧
    t.done = (s.done || !modZero i s) ∧ t.err = (s.err || modZero i s) ∧
    t.ecode = (if modZero i s then 2 else s.ecode) := by
  obtain ⟨t', ht', hframe, -⟩ := exec_frame i s
  obtain rfl : t = t' := by injection h.symm.trans ht'
  exact ⟨congrArg (·.ie) hframe, congrArg (·.done) hframe, congrArg (·.err) hframe, congrArg (·.ecode) hframe⟩

theorem exec_of_sameButDone {i : Instr} {s u t : State} (h : s.SameButDone u) (ht : exec i s = .next t) :
    ∃ q, exec i u = .next q ∧ t.SameButDone q := by
  obtain ⟨hflags, hie, herr, hcode⟩ := sameButDone_iff_sameButFlags.1 h
  obtain ⟨q, hq, htq⟩ := exec_of_sameButFlags hflags ht
  obtain ⟨tie, -, terr, tcode⟩ := exec_flags ht
  obtain ⟨qie, -, qerr, qcode⟩ := exec_flags hq
  have hm := hflags.modZero i
  exact ⟨q, hq, sameButDone_iff_sameButFlags.2 ⟨htq, by rw [qie, tie, hie], by rw [qerr, terr, herr, hm],
    by rw [qcode, tcode, hcode, hm]⟩⟩

theorem setOperandWord_of_sameButDone {s u : State} (v : Word) (r : Reg) (h : s.SameButDone u) :
    (s.setOperandWord v r).SameButDone (u.setOperandWord v r) := by
  obtain ⟨c, g, _, _, _⟩ := s
  obtain ⟨c', g', _, _, _⟩ := u
  obtain rfl : g' = g := h.cfg
  obtain ⟨done, rfl⟩ : ∃ done, c' = { c with done := done } := ⟨_, h.core⟩
  cases r <;> exact ⟨rfl, rfl⟩

theorem runEvents_of_sameButDone {ws : List (Offset × Word)} {s u s' : State} (hp : s.pend = none)
    (hws : ∀ w ∈ ws, OperandWrite s.cfg w) (h : s.SameButDone u) (hs : runEvents (writeEvents ws) s = .next s') :
    ∃ u', runEvents (writeEvents ws) u = .next u' ∧ s'.SameButDone u' := by
  induction ws generalizing s u with
  | nil =>
    injection hs with hs
    exact ⟨u, rfl, hs ▸ h⟩
  | cons w ws ih =>
    have hw := hws w List.mem_cons_self
    have happly := applyEvent_of_operandWrite hp hw
    have happly' := applyEvent_of_operandWrite (h.pend.trans hp) (h.cfg ▸ hw)
    have hframe : s.OperandFrame (s.setOperandWord w.2 (regAt s.cfg w.1)) := (setOperandWord_frame ..).1
    have hnext := setOperandWord_of_sameButDone w.2 (regAt s.cfg w.1) h
    have hrest : runEvents (writeEvents ws) _ = .next s' := (runEvents_cons _ happly).symm.trans hs
    rw [h.cfg] at happly'
    generalize s.setOperandWord w.2 (regAt s.cfg w.1) = t at hframe hnext hrest
    obtain ⟨u', hu', hsu⟩ := ih (hframe.pend.trans hp)
      (fun v hv => hframe.cfg ▸ hws v (List.mem_cons_of_mem w hv)) hnext hrest
    exact ⟨u', (runEvents_cons _ happly').trans hu', hsu⟩

theorem clearStatus_sameButFlags (s : State) (v : Word) : s.SameButFlags (clearStatus v s) := ⟨rfl, rfl⟩

theorem engineStep_of_sameButFlags {s u t : State} (h : s.SameButFlags u) (ht : engineStep s = .next t)
    (hp : s.pend ≠ none) : ∃ q i, exec i u = .next q ∧ exec i s = .next t ∧ engineStep u = .next q ∧ t.SameButFlags q := by
  obtain ⟨hn, -⟩ | ⟨w, i, hw, hd, he⟩ | ⟨w, -, -, he⟩ := engineStep_cases s
  · exact absurd hn hp
  · rw [he] at ht
    obtain ⟨q, hq, htq⟩ := exec_of_sameButFlags h ht
    exact ⟨q, i, hq, ht, (engineStep_of_decode u w i (h.pend.trans hw) hd).trans hq, htq⟩
  · cases he.symm.trans ht

/-- A command that completes without an error just after STATUS was cleared leaves what it would have left before, but
for DONE. -/
theorem engineStep_clearStatus {s u : State} (hp : s.pend ≠ none) (hu : engineStep s = .next u) :
    ∃ x, engineStep (clearStatus 0x00000006 s) = .next x ∧
      (x.err = false → (clearStatus 0x00000006 u).SameButDone x) := by
  obtain ⟨x, i, hx, hexec, hstep, hux⟩ := engineStep_of_sameButFlags (clearStatus_sameButFlags s 0x00000006) hu hp
  obtain ⟨xie, -, xerr, xcode⟩ := exec_flags hx
  obtain ⟨uie, -, -, -⟩ := exec_flags hexec
  refine ⟨x, hstep, fun he => sameButDone_iff_sameButFlags.2
    ⟨(clearStatus_sameButFlags u _).symm.trans hux, xie.trans uie.symm, he, ?_⟩⟩
  have hm : modZero i (clearStatus 0x00000006 s) = false := (Bool.or_eq_false_iff.1 (xerr.symm.trans he)).2
  rw [xcode, hm]
  rfl

/-! ### The call -/

/-- What a call that answers leaves: the command's rule completed without an error. -/
theorem exec_issued_of_no_error {i : Instr} {s t : State} (ht : exec i (s.issued (encode i)) = .next t)
    (herr : t.err = false) : t.done = true ∧ t.pend = none ∧ t.cmd = encode i := by
  obtain ⟨-, hdone, herr', -⟩ := exec_flags ht
  obtain ⟨t', ht', hframe, -⟩ := exec_frame i (s.issued (encode i))
  obtain rfl : t = t' := by injection ht.symm.trans ht'
  have hm : modZero i (s.issued (encode i)) = false := (Bool.or_eq_false_iff.1 (herr'.symm.trans herr)).2
  rw [hm, Bool.not_false, Bool.or_true] at hdone
  exact ⟨hdone, congrArg (·.pend) hframe, congrArg (·.cmd) hframe⟩

/-- A call that answers from a busy core whose engine does not move before STATUS is cleared: it moves before the next
word, or that word is lost to OVERRUN. -/
theorem HostRun.call_of_busy {ws : List (Offset × Word)} {i : Instr} {r q : HostRun} {u : State} {bs : List Bool}
    (hinv : r.state.Inv) (hp : r.state.pend ≠ none) (hu : engineStep r.state = .next u)
    (hturn : r.turn = .ok ⟨r.state, bs, r.trace⟩) (hws : ∀ w ∈ ws, OperandWrite r.state.cfg w)
    (hq : r.writeAndCheck ((0x00C, 0x00000006) :: (ws ++ [(0x010, encode i)])) = .ok q) :
    ∃ s t, runEvents (writeEvents ws) (clearStatus 0x00000006 u) = .next s ∧
      exec i (s.issued (encode i)) = .next t ∧ t.err = false ∧ q.state.core = t.core := by
  have hcalls : ∀ w ∈ ws ++ [(0x010, encode i)], CallWrite r.state.cfg w := callWrite_of_mem hws
  obtain ⟨w, rest, hlist⟩ := List.exists_cons_of_ne_nil (l := ws ++ [(0x010, encode i)]) (by simp)
  obtain ⟨x, hx, hdone⟩ := engineStep_clearStatus hp hu
  have hupend := engineStep_pend hu
  have hucfg : u.cfg = r.state.cfg := by rw [engineStep_frame hu]
  have hxcfg : x.cfg = r.state.cfg := by rw [engineStep_frame hx]; rfl
  rw [HostRun.writeAndCheck_cons (w := (0x00C, 0x00000006)) _ hturn (applyEvent_write_status r.state _)] at hq
  generalize htr : r.trace ++ _ = tr at hq
  obtain ⟨tr', hstep⟩ | ⟨bs', -, hpass⟩ := HostRun.turn_cases (r := ⟨clearStatus 0x00000006 r.state, bs, tr⟩) hx
  · -- the engine moves before the next word
    rw [hlist, HostRun.writeAndCheck_cons_of_turn rest hstep, ← hlist] at hq
    obtain ⟨s2, t2, hrun2, hframe2, ht2, hcall⟩ := HostRun.callAnswers_of_idle
      (r := ⟨x, false :: bs.tail, tr'⟩) i (engineStep_pend hx) (hxcfg ▸ hws)
    obtain ⟨herr2, hcore⟩ := hcall.of_ok hq
    have herrs : s2.err = false := by
      by_contra hs
      exact absurd (herr2.symm.trans ((exec_keepsFlags ht2).2 (Bool.eq_true_of_not_eq_false hs))) nofun
    have hx' : x.SameButDone (clearStatus 0x00000006 u) := (hdone (hframe2.err.symm.trans herrs)).symm
    obtain ⟨s, hrun, hs⟩ := runEvents_of_sameButDone (engineStep_pend hx) (hxcfg ▸ hws) hx' hrun2
    obtain ⟨t, ht, htt⟩ := exec_of_sameButDone (hs.issued (encode i)) ht2
    have herr : t.err = false := (sameButDone_iff_sameButFlags.1 htt).2.2.1.trans herr2
    obtain ⟨hdone2, -, -⟩ := exec_issued_of_no_error ht2 herr2
    obtain ⟨hdone1, -, -⟩ := exec_issued_of_no_error ht herr
    exact ⟨s, t, hrun, ht, herr, hcore.trans (htt.core_eq (hdone1.trans hdone2.symm)).symm⟩
  · -- the next word is lost
    have hbusy := applyEvent_of_callWrite_busy (s := clearStatus 0x00000006 r.state) hp
      (hcalls w (hlist ▸ List.mem_cons_self))
    rw [hlist, HostRun.writeAndCheck_cons rest hpass hbusy] at hq
    exact absurd hq (HostRun.writeAndCheck_ne_ok_of_err (raise_inv _ (clearStatus_inv _ hinv))
      (fun v hv => hcalls v (hlist ▸ List.mem_cons_of_mem w hv)) rfl)

/-- Settles O58: from an idle core it is O57's call; from a busy one the engine moves before the call, or the call is
`call_of_busy`'s. -/
theorem hostCallNeverHidesAnError : Obligations.HostCallNeverHidesAnError := by
  intro operands i r q hinv hop hq
  have hwf := wf_of_hostCall_eq_ok hq
  have hws := operandWrite_of_mem_flatMap hwf hop
  rw [hostCall_eq_writeAndCheck hwf hop, callWrites] at hq
  obtain ⟨u, hu, hpu⟩ := engineStep_answers hinv
  have hucfg : u.cfg = r.state.cfg := by rw [engineStep_frame hu]
  obtain ⟨s, t, hrun, ht, herr, hcore⟩ :
      ∃ s t, runEvents (writeEvents (operands.flatMap (Stmt.writes r.state.cfg))) (clearStatus 0x00000006 u) = .next s ∧
        exec i (s.issued (encode i)) = .next t ∧ t.err = false ∧ q.state.core = t.core := by
    obtain ⟨tr, hturn⟩ | ⟨bs, -, hturn⟩ := HostRun.turn_cases hu
    · have hwsu : ∀ w ∈ operands.flatMap (Stmt.writes r.state.cfg), OperandWrite u.cfg w := by rwa [hucfg]
      rw [HostRun.writeAndCheck_cons_of_turn _ hturn] at hq
      obtain ⟨s, t, hrun, -, ht, hcall⟩ :=
        HostRun.callAnswers_of_clear_idle (r := ⟨u, false :: r.turns.tail, tr⟩) i hpu hwsu
      obtain ⟨herr, hcore⟩ := hcall.of_ok hq
      exact ⟨s, t, hrun, ht, herr, hcore⟩
    · by_cases hp : r.state.pend = none
      · obtain rfl : r.state = u := by injection (engineStep_of_none _ hp).symm.trans hu
        obtain ⟨s, t, hrun, -, ht, hcall⟩ := HostRun.callAnswers_of_clear_idle i hp hws
        obtain ⟨herr, hcore⟩ := hcall.of_ok hq
        exact ⟨s, t, hrun, ht, herr, hcore⟩
      · exact HostRun.call_of_busy hinv hp hu hturn hws hq
  obtain ⟨hdone, hpend, hcmd⟩ := exec_issued_of_no_error ht herr
  exact ⟨(congrArg (·.err) hcore).trans herr, (congrArg (·.done) hcore).trans hdone,
    (congrArg (·.pend) hcore).trans hpend, (congrArg (·.cmd) hcore).trans hcmd, u, s, t, hu,
    (runEvents_clear_accesses hop).trans hrun, ht, hcore⟩

end Sys2Proof.Machine
end

section
/-! The block codec (spec/42_feistel.md R270, R271): a block's call on an idle core is `processBlock`, blocks are
independent, and the two directions and the pad undo each other. -/
namespace Sys2Proof.Machine

/-! ### Calls that answer, and reads, on an idle core -/

/-- A call on an idle core whose command does not find the modulus 0 answers, for STATUS was cleared. -/
theorem hostCall_of_idle {operands : List Stmt} {i : Instr} {r : HostRun} (hp : r.state.pend = none)
    (hwf : operands.all (Stmt.wf r.state.cfg) = true) (hop : operands.all Stmt.writesOperands = true) :
    ∃ s t, runEvents (writeEvents (operands.flatMap (Stmt.writes r.state.cfg))) (clearStatus 0x00000006 r.state) =
        .next s ∧ exec i (s.issued (encode i)) = .next t ∧
      (modZero i (s.issued (encode i)) = false →
        ∃ q, hostCall operands i r = .ok q ∧ q.state.core = t.core ∧ q.state.cfg = r.state.cfg) := by
  obtain ⟨s, t, hrun, hframe, ht, hok, -⟩ :=
    HostRun.callAnswers_of_clear_idle i hp (operandWrite_of_mem_flatMap hwf hop)
  refine ⟨s, t, hrun, ht, fun hm => ?_⟩
  have herr : t.err = false := by
    rw [(exec_flags ht).2.2.1, hm, Bool.or_false]
    exact hframe.err
  obtain ⟨q, hq, hcore, hcfg⟩ := hok herr
  have htcfg : t.cfg = r.state.cfg := by rw [exec_frame_core ht]; exact hframe.cfg
  exact ⟨q, (hostCall_eq_writeAndCheck hwf hop).trans hq, hcore, hcfg.trans htcfg⟩

/-- An idle core after a call that left `t`. -/
theorem pend_of_core_eq_exec {i : Instr} {s t u : State} (ht : exec i s = .next t) (hu : u.core = t.core) :
    u.pend = none := by
  obtain ⟨t', ht', hframe, -⟩ := exec_frame i s
  obtain rfl : t = t' := by injection ht.symm.trans ht'
  exact (congrArg (·.pend) hu).trans (congrArg (·.pend) hframe)

/-- The words of the registers are a function of the core and the configuration. -/
theorem regWord_of_core {s u : State} (hcore : u.core = s.core) (hcfg : u.cfg = s.cfg) : u.regWord = s.regWord := by
  obtain ⟨c, g, _, _, _⟩ := s
  obtain ⟨c', g', _, _, _⟩ := u
  obtain rfl : c' = c := hcore
  obtain rfl : g' = g := hcfg
  funext r
  cases r <;> rfl

/-- Reads of an idle core return the registers' words and change nothing of it. -/
theorem HostRun.readAll_of_idle {regs : List Reg} {r : HostRun} (hp : r.state.pend = none)
    (hr : regs.all (Reg.present r.state.cfg) = true) : ∃ q,
      r.readAll (regs.map offsetOf) = .ok (q, regs.map r.state.regWord) ∧
      q.state.core = r.state.core ∧ q.state.cfg = r.state.cfg := by
  induction regs generalizing r with
  | nil => exact ⟨r, rfl, rfl, rfl⟩
  | cons g regs ih =>
    rw [List.all_cons, Bool.and_eq_true] at hr
    obtain ⟨hg, hregs⟩ := hr
    obtain ⟨tr, hread⟩ := HostRun.read_of_idle (offsetOf g) r hp (offsetOf_aligned g)
    obtain ⟨q, hq, hcore, hcfg⟩ := ih (r := ⟨busRead (offsetOf g) r.state, r.turns.tail, tr⟩) hp hregs
    rw [regWord_of_core (busRead_core r.state _) (busRead_cfg r.state _)] at hq
    rw [busReadValue_of_idle _ hp, regAt_offsetOf _ _ hg] at hread
    exact ⟨q, except_bind_eq_ok.2 ⟨_, hread, except_bind_eq_ok.2 ⟨_, hq, rfl⟩⟩, hcore, hcfg⟩

theorem Stmt.run_rd64 (r : Reg64) (q : HostRun) : (Stmt.rd64 r).run q = q.readAll [offsetOf r.hi, offsetOf r.lo] := rfl

/-! ### Blocks -/

/-- An operand word written by its register while idle. -/
theorem runEvents_write_operand {s : State} (r : Reg) (v : Word) (es : List Event) (hop : r.isOperand = true)
    (hr : r.present s.cfg = true) (hp : s.pend = none) :
    runEvents (busW (offsetOf r) v :: es) s = runEvents es (s.setOperandWord v r) := by
  have hwrite := applyEvent_of_operandWrite (w := (offsetOf r, v)) hp ⟨r, rfl, hr, hop⟩
  rw [regAt_offsetOf s.cfg r hr] at hwrite
  exact runEvents_cons es hwrite

/-- `WR64 KEY; WR64 DIN` on an idle core. -/
theorem runEvents_wr64_key_din {s : State} (c : Config) (key b : Block) (hp : s.pend = none) :
    runEvents (writeEvents ([Stmt.wr64 .key key, .wr64 .din b].flatMap (Stmt.writes c))) s =
      .next { s with key := key, din := b } := by
  change runEvents [busW (offsetOf .keyHi) (hi32 key), busW (offsetOf .keyLo) (lo32 key),
    busW (offsetOf .dinHi) (hi32 b), busW (offsetOf .dinLo) (lo32 b)] s = _
  rw [runEvents_write_operand .keyHi _ _ rfl rfl, runEvents_write_operand .keyLo _ _ rfl rfl,
    runEvents_write_operand .dinHi _ _ rfl rfl, runEvents_write_operand .dinLo _ _ rfl rfl]
  · simp only [State.setOperandWord, hi32_join64, join64_hi32_lo32, runEvents]
  all_goals exact hp

/-- The command of a direction (R268, R269). -/
def Direction.command : Direction → Instr
  | .encrypt => .enc
  | .decrypt => .dec

theorem exec_command (dir : Direction) (s : State) : exec dir.command s =
    .next { s with sk := subkeys s.cfg s.key, dout := processBlock s.cfg s.din (subkeys s.cfg s.key) dir,
                   done := true, pend := none } := by
  cases dir <;> rfl

/-- A block's call on an idle core, whatever came before (R270). -/
theorem cipherBlock_of_idle (dir : Direction) (key b : Block) {r : HostRun} (hp : r.state.pend = none) : ∃ q,
    cipherBlock dir.command key b r = .ok (q, processBlock r.state.cfg b (subkeys r.state.cfg key) dir) ∧
      q.state.pend = none ∧ q.state.cfg = r.state.cfg := by
  obtain ⟨s, t, hrun, ht, hok⟩ := hostCall_of_idle (operands := [.wr64 .key key, .wr64 .din b]) (i := dir.command) hp
    rfl rfl
  rw [runEvents_wr64_key_din (s := clearStatus 0x00000006 r.state) _ _ _ hp] at hrun
  injection hrun with hrun
  obtain ⟨q, hq, hcore, hcfg⟩ := hok (by cases dir <;> rfl)
  have hidle := pend_of_core_eq_exec ht hcore
  obtain ⟨p, hread, hpcore, hpcfg⟩ := HostRun.readAll_of_idle (regs := [.doutHi, .doutLo]) hidle rfl
  have hdout : q.state.dout = processBlock r.state.cfg b (subkeys r.state.cfg key) dir := by
    rw [exec_command] at ht
    injection ht with ht
    rw [show q.state.dout = t.dout from congrArg (·.dout) hcore, ← ht, ← hrun]
    rfl
  refine ⟨p, except_bind_eq_ok.2 ⟨q, hq, ?_⟩, (congrArg (·.pend) hpcore).trans hidle, hpcfg.trans hcfg⟩
  rw [Stmt.run_rd64]
  refine except_bind_eq_ok.2 ⟨_, hread, ?_⟩
  change Except.ok (p, join64 (hi32 q.state.dout) (lo32 q.state.dout)) = _
  rw [join64_hi32_lo32, hdout]

/-- Blocks in order, each through `processBlock`. -/
theorem cipherBlocks_of_idle (dir : Direction) (key : Block) (bs : List Block) {r : HostRun}
    (hp : r.state.pend = none) : ∃ q, cipherBlocks dir.command key bs r =
      .ok (q, (bs.map fun b => processBlock r.state.cfg b (subkeys r.state.cfg key) dir).flatMap bytesOfBlock) ∧
      q.state.pend = none ∧ q.state.cfg = r.state.cfg := by
  induction bs generalizing r with
  | nil => exact ⟨r, rfl, hp, rfl⟩
  | cons b bs ih =>
    obtain ⟨q, hq, hidle, hcfg⟩ := cipherBlock_of_idle dir key b hp
    obtain ⟨t, ht, htidle, htcfg⟩ := ih hidle
    rw [hcfg] at ht htcfg
    exact ⟨t, except_bind_eq_ok.2 ⟨_, hq, except_bind_eq_ok.2 ⟨_, ht, rfl⟩⟩, htidle, htcfg⟩

/-- Settles O50: the blocks of the ciphertext are the payload's, padded, each through ENC, which DEC undoes. -/
theorem blockCodecRoundTrip : Obligations.BlockCodecRoundTrip := by
  intro key p r hp
  obtain ⟨q, hq, hidle, hcfg⟩ := cipherBlocks_of_idle .encrypt key (blocksOf (padPayload p)) hp
  obtain ⟨t, ht, -, -⟩ := cipherBlocks_of_idle .decrypt key
    ((blocksOf (padPayload p)).map fun b => processBlock r.state.cfg b (subkeys r.state.cfg key) .encrypt) hidle
  have hblocks : (blocksOf (padPayload p)).flatMap bytesOfBlock = padPayload p :=
    flatMap_bytesOfBlock_blocksOf _ (length_padPayload_mod p)
  have hundo (b : Block) : processBlock r.state.cfg (processBlock r.state.cfg b (subkeys r.state.cfg key) .encrypt)
      (subkeys r.state.cfg key) .decrypt = b := processBlock_flip _ b _ .encrypt
  have hlen : (((blocksOf (padPayload p)).map fun b =>
      processBlock r.state.cfg b (subkeys r.state.cfg key) .encrypt).flatMap bytesOfBlock).length =
        (padPayload p).length := by
    rw [length_flatMap_bytesOfBlock, List.length_map, ← length_flatMap_bytesOfBlock, hblocks]
  refine ⟨q, t, _, hq, hlen.trans (length_padPayload p), ?_⟩
  rw [decodePayload, if_neg (by rw [hlen, length_padPayload_mod]; nofun), blocksOf_flatMap_bytesOfBlock]
  refine except_bind_eq_ok.2 ⟨_, ht, ?_⟩
  simp only [hcfg, List.map_map, Function.comp_def, hundo, List.map_id', hblocks, stripPad_padPayload]
  rfl

end Sys2Proof.Machine
end

section
/-! What Verify needs of an idle core (spec/44_modexp.md R345): WRBIG leaves the words of its value, RDBIG reads them,
and a call or the digest procedure leaves the core ready for the next. -/
namespace Sys2Proof.Machine
open Sys2Proof.Claim

/-! ### WRBIG and RDBIG -/

/-- The register of word j. -/
def BigReg.word (r : BigReg) (j : Nat) : Reg :=
  match r with
  | .opa => .opa (Fin.ofNat 128 j)
  | .opb => .opb (Fin.ofNat 128 j)
  | .mod => .mod (Fin.ofNat 128 j)
  | .res => .res (Fin.ofNat 128 j)

theorem BigReg.wordOffset_eq (r : BigReg) {j : Nat} (hj : j < 128) : r.wordOffset j = offsetOf (r.word j) := by
  cases r <;> simp only [BigReg.wordOffset, BigReg.word, offsetOf, Fin.val_ofNat, Nat.mod_eq_of_lt hj]

theorem BigReg.present_word {c : Config} (r : BigReg) {j : Nat} (hj : j < c.words) :
    (r.word j).present c = true := by
  have hlt : (Fin.ofNat 128 j).val < c.words := (Nat.mod_le j 128).trans_lt hj
  cases r <;> exact decide_eq_true hlt

def State.big (s : State) : BigReg → List Word
  | .opa => s.opa
  | .opb => s.opb
  | .mod => s.mod
  | .res => s.res

/-- An operand register of MXW bits written whole. -/
def State.setBig (s : State) (l : List Word) : BigReg → State
  | .opa => { s with opa := l }
  | .opb => { s with opb := l }
  | .mod => { s with mod := l }
  | .res => s

theorem setBig_pend (s : State) (l : List Word) (r : BigReg) : (s.setBig l r).pend = s.pend := by cases r <;> rfl

theorem setBig_cfg (s : State) (l : List Word) (r : BigReg) : (s.setBig l r).cfg = s.cfg := by cases r <;> rfl

theorem setOperandWord_setBig (s : State) (l : List Word) (v : Word) {r : BigReg} {j : Nat} (hj : j < 128) :
    (s.setBig l r).setOperandWord v (r.word j) = s.setBig (l.set j v) r := by
  cases r <;> simp only [BigReg.word, State.setBig, State.setOperandWord, Fin.val_ofNat, Nat.mod_eq_of_lt hj]

/-- The words of a value, as WRBIG lists them (30_encoding R129). -/
theorem map_range_eq_wordsOfNat (n v : Nat) :
    (List.range n).map (fun j => BitVec.ofNat 32 (v / 2 ^ (32 * j))) = wordsOfNat n v := by
  induction n generalizing v with
  | zero => rfl
  | succ n ih =>
    rw [List.range_succ_eq_map, List.map_cons, List.map_map, wordsOfNat, ← ih]
    have hshift (j : Nat) : v / 2 ^ (32 * (j + 1)) = v / 2 ^ 32 / 2 ^ (32 * j) := by
      rw [Nat.div_div_eq_div_mul, ← pow_add, Nat.mul_succ, Nat.add_comm]
    simp only [Function.comp_def, Nat.succ_eq_add_one, hshift, Nat.mul_zero, pow_zero, Nat.div_one]

/-- Word k written after the words before it. -/
theorem set_prefix_append_drop (f : Nat → Word) {old : List Word} {k : Nat} (hk : k < old.length) :
    ((List.range k).map f ++ old.drop k).set k (f k) = (List.range (k + 1)).map f ++ old.drop (k + 1) := by
  have hlen : ((List.range k).map f).length = k := by rw [List.length_map, List.length_range]
  rw [List.set_append_right _ _ hlen.le, hlen, Nat.sub_self, List.drop_eq_getElem_cons hk, List.set_cons_zero,
    List.range_succ, List.map_append, List.append_assoc]
  rfl

theorem writeEvents_append (as bs : List (Offset × Word)) :
    writeEvents (as ++ bs) = writeEvents as ++ writeEvents bs :=
  List.map_append

/-- The first k words of a wide operand register, written in order on an idle core. -/
theorem runEvents_write_prefix {s : State} {r : BigReg} (f : Nat → Word) (hp : s.pend = none) (hr : r ≠ .res)
    (hlen : (s.big r).length = s.cfg.words) {k : Nat} (hk : k ≤ s.cfg.words) :
    runEvents (writeEvents ((List.range k).map fun j => (r.wordOffset j, f j))) s =
      .next (s.setBig ((List.range k).map f ++ (s.big r).drop k) r) := by
  obtain ⟨-, hwords, -⟩ := words_bounds s.cfg
  induction k with
  | zero => cases r <;> rfl
  | succ k ih =>
    have hop : (r.word k).isOperand = true := by cases r with
      | res => exact absurd rfl hr
      | opa | opb | mod => rfl
    have hlast := runEvents_write_operand (s := s.setBig ((List.range k).map f ++ (s.big r).drop k) r) (r.word k) (f k) []
      hop (by rw [setBig_cfg]; exact r.present_word hk) ((setBig_pend ..).trans hp)
    rw [setOperandWord_setBig _ _ _ (by omega), set_prefix_append_drop f (by omega),
      ← r.wordOffset_eq (by omega)] at hlast
    have hsplit : (List.range (k + 1)).map (fun j => (r.wordOffset j, f j)) =
        (List.range k).map (fun j => (r.wordOffset j, f j)) ++ [(r.wordOffset k, f k)] := by
      rw [List.range_succ, List.map_append]
      rfl
    rw [hsplit, writeEvents_append, runEvents_append (ih (by omega))]
    exact hlast

/-- WRBIG on an idle core. -/
theorem runEvents_wrbig {s : State} {r : BigReg} (v : Nat) (hp : s.pend = none) (hr : r ≠ .res)
    (hlen : (s.big r).length = s.cfg.words) :
    runEvents (writeEvents ((Stmt.wrbig r v).writes s.cfg)) s = .next (s.setBig (wordsOfNat s.cfg.words v) r) := by
  change runEvents (writeEvents ((List.range s.cfg.words).map fun j =>
    (r.wordOffset j, BitVec.ofNat 32 (v / 2 ^ (32 * j))))) s = _
  rw [runEvents_write_prefix (fun j => BitVec.ofNat 32 (v / 2 ^ (32 * j))) hp hr hlen le_rfl,
    map_range_eq_wordsOfNat, List.drop_of_length_le hlen.le, List.append_nil]

/-- RDBIG of RES on an idle core. -/
theorem rdbig_res_of_idle {r : HostRun} (hp : r.state.pend = none) (hlen : r.state.res.length = r.state.cfg.words) :
    ∃ q, (Stmt.rdbig .res).run r = .ok (q, r.state.res) ∧ q.state.core = r.state.core ∧
      q.state.cfg = r.state.cfg := by
  obtain ⟨-, hwords, -⟩ := words_bounds r.state.cfg
  have hoffs : (Stmt.rdbig .res).reads r.state.cfg =
      ((List.range r.state.cfg.words).map BigReg.res.word).map offsetOf := by
    rw [Stmt.reads, List.map_map]
    refine List.map_congr_left fun j hj => BigReg.wordOffset_eq _ ?_
    have := List.mem_range.1 hj
    omega
  have hpresent : ((List.range r.state.cfg.words).map BigReg.res.word).all (Reg.present r.state.cfg) = true := by
    rw [List.all_map, List.all_eq_true]
    exact fun j hj => BigReg.present_word .res (List.mem_range.1 hj)
  have hvalue : ((List.range r.state.cfg.words).map BigReg.res.word).map r.state.regWord = r.state.res := by
    refine List.ext_getElem (by simp [hlen]) fun j hj hj' => ?_
    have hmod : j % 128 = j := Nat.mod_eq_of_lt (by omega)
    simp only [List.getElem_map, List.getElem_range, BigReg.word, State.regWord, Fin.val_ofNat, hmod]
    exact List.getD_eq_getElem _ 0 hj'
  obtain ⟨q, hq, hcore, hcfg⟩ := HostRun.readAll_of_idle hp hpresent
  rw [hvalue, ← hoffs] at hq
  exact ⟨q, hq, hcore, hcfg⟩

/-! ### Runs ready for the next call -/

/-- Idle, in a state of the invariant, in the configuration `c`. -/
structure HostRun.Ready (c : Config) (r : HostRun) : Prop where
  inv : r.state.Inv
  pend : r.state.pend = none
  cfg : r.state.cfg = c

theorem State.Inv.issued {s : State} (h : s.Inv) (i : Instr) : (s.issued (encode i)).Inv :=
  ⟨h.opaLen, h.opbLen, h.modLen, h.resLen, legal_encode i, fun _ hw => (Option.some.inj hw).symm, h.codeOk⟩

theorem HostRun.Ready.of_core {c : Config} {r q : HostRun} (h : r.Ready c) (hcore : q.state.core = r.state.core)
    (hcfg : q.state.cfg = r.state.cfg) : q.Ready c :=
  ⟨h.inv.of_core hcore hcfg, (congrArg (·.pend) hcore).trans h.pend, hcfg.trans h.cfg⟩

/-- A call from a ready run whose command does not find the modulus 0 leaves a ready run. -/
theorem HostRun.Ready.call {c : Config} {operands : List Stmt} {i : Instr} {r : HostRun} (h : r.Ready c)
    (hwf : operands.all (Stmt.wf c) = true) (hop : operands.all Stmt.writesOperands = true) :
    ∃ s t, runEvents (writeEvents (operands.flatMap (Stmt.writes c))) (clearStatus 0x00000006 r.state) = .next s ∧
      exec i (s.issued (encode i)) = .next t ∧ s.Inv ∧
      (modZero i (s.issued (encode i)) = false →
        ∃ q, hostCall operands i r = .ok q ∧ q.state.core = t.core ∧ q.Ready c) := by
  obtain ⟨hinv, hp, rfl⟩ := h
  obtain ⟨s, t, hrun, ht, hok⟩ := hostCall_of_idle (i := i) hp hwf hop
  have hs : s.Inv := runEvents_inv hrun (clearStatus_inv _ hinv)
  refine ⟨s, t, hrun, ht, hs, fun hm => ?_⟩
  obtain ⟨q, hq, hcore, hcfg⟩ := hok hm
  have htcfg : t.cfg = r.state.cfg := by
    have hscfg : s.cfg = (clearStatus 0x00000006 r.state).cfg := runEvents_cfg hrun
    rw [exec_frame_core ht]
    exact hscfg
  exact ⟨q, hq, hcore, (exec_inv (hs.issued i) ht).of_core hcore (hcfg.trans htcfg.symm), pend_of_core_eq_exec ht hcore,
    hcfg⟩

/-! ### The digest -/

/-- A call of a digest command. -/
theorem HostRun.Ready.digestCall {c : Config} {operands : List Stmt} {i : Instr} {r : HostRun} (h : r.Ready c)
    (hwf : operands.all (Stmt.wf c) = true) (hop : operands.all Stmt.writesOperands = true)
    (hi : ∀ s, modZero i s = false) : ∃ q, hostCall operands i r = .ok q ∧ q.Ready c := by
  obtain ⟨s, t, -, -, -, hok⟩ := h.call (i := i) hwf hop
  obtain ⟨q, hq, -, hready⟩ := hok (hi _)
  exact ⟨q, hq, hready⟩

theorem wf_wrmsg {c : Config} {bytes : List Byte} (h : bytes.length ≤ 64) : [Stmt.wrmsg bytes].all (Stmt.wf c) = true := by
  rw [List.all_cons, List.all_nil, Bool.and_true]
  exact decide_eq_true h

theorem HostRun.Ready.absorb {c : Config} (n : Nat) (m : List Byte) {r : HostRun} (h : r.Ready c) :
    ∃ q, absorbBlocks n m r = .ok q ∧ q.Ready c := by
  induction n generalizing m r with
  | zero => exact ⟨r, rfl, h⟩
  | succ n ih =>
    obtain ⟨q, hq, hready⟩ := h.digestCall (i := .dgblock) (wf_wrmsg (List.length_take_le 64 m)) rfl fun _ => rfl
    obtain ⟨t, ht, htready⟩ := ih (m.drop 64) hready
    exact ⟨t, except_bind_eq_ok.2 ⟨q, hq, ht⟩, htready⟩

/-- The value of words, most significant first, has 32 bits a word. -/
theorem foldl_words_lt (ws : List Word) (acc : Nat) :
    ws.foldl (fun acc w => 2 ^ 32 * acc + w.toNat) acc < 2 ^ (32 * ws.length) * (acc + 1) := by
  induction ws generalizing acc with
  | nil => simp
  | cons w ws ih =>
    have hw := w.isLt
    have hpow : 2 ^ (32 * (ws.length + 1)) = 2 ^ (32 * ws.length) * 2 ^ 32 := by rw [Nat.mul_succ, pow_add]
    rw [List.foldl_cons, List.length_cons, hpow, Nat.mul_assoc]
    exact (ih _).trans_le (Nat.mul_le_mul_left _ (by omega))

/-- The digest procedure answers a value of 160 bits from a ready run (43_digest R309, R310). -/
theorem HostRun.Ready.digest {c : Config} (m : List Byte) {r : HostRun} (h : r.Ready c) :
    ∃ q dg, hostDigest m r = .ok (q, dg) ∧ dg < 2 ^ 160 ∧ q.Ready c := by
  obtain ⟨q1, h1, hready1⟩ := h.digestCall (operands := []) (i := .dginit) rfl rfl fun _ => rfl
  obtain ⟨q2, h2, hready2⟩ := hready1.absorb (m.length / 64) m
  have htail : (m.drop (64 * (m.length / 64))).length ≤ 64 := by rw [List.length_drop]; omega
  obtain ⟨q3, h3, hready3⟩ := hready2.digestCall (i := .dgfinal (BitVec.ofNat 6 (m.length % 64))) (wf_wrmsg htail) rfl
    fun _ => rfl
  obtain ⟨q4, h4, hcore, hcfg⟩ := HostRun.readAll_of_idle (regs := (List.finRange 5).map Reg.h) hready3.pend rfl
  refine ⟨q4, _, except_bind_eq_ok.2 ⟨q1, h1, except_bind_eq_ok.2 ⟨q2, h2, except_bind_eq_ok.2 ⟨q3, h3,
    except_bind_eq_ok.2 ⟨_, h4, rfl⟩⟩⟩⟩, ?_, hready3.of_core hcore hcfg⟩
  have hlt := foldl_words_lt (((List.finRange 5).map Reg.h).map q3.state.regWord) 0
  rw [List.length_map, List.length_map, List.length_finRange] at hlt
  exact hlt.trans_eq (by norm_num)

end Sys2Proof.Machine
end

section
/-! Verify's commands and verdict (spec/44_modexp.md R345): each command of the modular unit gives the exact power or
product of what was written, MOD stays from one to the next, and the verdict compares the two sides modulo p. -/
namespace Sys2Proof.Machine
open Sys2Proof.Claim

/-! ### Commands of the modular unit -/

/-- What a command of the modular unit has written before it (R345). -/
def modularOperands (a b : Nat) (m : Option Nat) : List Stmt :=
  .wrbig .opa a :: .wrbig .opb b :: m.toList.map (Stmt.wrbig .mod)

theorem modularOp_eq (i : Instr) (a b : Nat) (m : Option Nat) (r : HostRun) : modularOp i a b m r =
    hostCall (modularOperands a b m) i r >>= fun q =>
      (Stmt.rdbig .res).run q >>= fun x => .ok (x.1, natOfWords x.2) := by
  cases m <;> rfl

theorem modularOperands_wf {c : Config} {a b : Nat} {m : Option Nat} (ha : a < 2 ^ c.raw.mxw) (hb : b < 2 ^ c.raw.mxw)
    (hm : ∀ v ∈ m, v < 2 ^ c.raw.mxw) : (modularOperands a b m).all (Stmt.wf c) = true := by
  have hwf (r : BigReg) (hr : (r != .res) = true) {v : Nat} (hv : v < 2 ^ c.raw.mxw) : (Stmt.wrbig r v).wf c = true := by
    rw [Stmt.wf, hr, decide_eq_true hv]
    rfl
  cases m with
  | none => simp only [modularOperands, Option.toList, List.map, List.all, hwf .opa rfl ha, hwf .opb rfl hb, Bool.and_true]
  | some v =>
    simp only [modularOperands, Option.toList, List.map, List.all, hwf .opa rfl ha, hwf .opb rfl hb,
      hwf .mod rfl (hm v rfl), Bool.and_true]

theorem modularOperands_writesOperands (a b : Nat) (m : Option Nat) :
    (modularOperands a b m).all Stmt.writesOperands = true := by
  cases m <;> rfl

theorem natOfWords_wordsOfNat_of_lt_mxw {c : Config} {v : Nat} (hv : v < 2 ^ c.raw.mxw) :
    natOfWords (wordsOfNat c.words v) = v := by
  obtain ⟨-, -, hmxw⟩ := words_bounds c
  exact natOfWords_wordsOfNat_of_lt _ _ (hmxw ▸ hv)

/-- The three registers after these writes; MOD as it was where it is not written. -/
theorem runEvents_modularOperands {s : State} {a b : Nat} {m : Option Nat} (hinv : s.Inv) (hp : s.pend = none)
    (ha : a < 2 ^ s.cfg.raw.mxw) (hb : b < 2 ^ s.cfg.raw.mxw) (hm : ∀ v ∈ m, v < 2 ^ s.cfg.raw.mxw) :
    ∃ t, runEvents (writeEvents ((modularOperands a b m).flatMap (Stmt.writes s.cfg))) s = .next t ∧
      natOfWords t.opa = a ∧ natOfWords t.opb = b ∧ natOfWords t.mod = m.getD (natOfWords s.mod) := by
  have hopa := runEvents_wrbig (r := .opa) a hp nofun hinv.opaLen
  have hopb := runEvents_wrbig (s := s.setBig (wordsOfNat s.cfg.words a) .opa) (r := .opb) b hp nofun hinv.opbLen
  rw [setBig_cfg] at hopb
  have hna := natOfWords_wordsOfNat_of_lt_mxw ha
  have hnb := natOfWords_wordsOfNat_of_lt_mxw hb
  rw [modularOperands, List.flatMap_cons, List.flatMap_cons, writeEvents_append, runEvents_append hopa,
    writeEvents_append, runEvents_append hopb]
  cases m with
  | none => exact ⟨_, rfl, hna, hnb, rfl⟩
  | some v =>
    have hmod := runEvents_wrbig
      (s := (s.setBig (wordsOfNat s.cfg.words a) .opa).setBig (wordsOfNat s.cfg.words b) .opb) (r := .mod) v hp nofun
      hinv.modLen
    rw [setBig_cfg, setBig_cfg] at hmod
    have hone : ((some v).toList.map (Stmt.wrbig .mod)).flatMap (Stmt.writes s.cfg) =
        (Stmt.wrbig .mod v).writes s.cfg := List.append_nil _
    rw [hone]
    exact ⟨_, hmod, hna, hnb, natOfWords_wordsOfNat_of_lt_mxw (hm v rfl)⟩

theorem modZero_eq_false {s : State} (i : Instr) (h : natOfWords s.mod ≠ 0) : modZero i s = false := by
  cases i with
  | modexp sb | modmul sb => exact beq_eq_false_iff_ne.2 h
  | _ => rfl

/-- The value `v` is what the command leaves in RES on operands `a` and `b` and modulus `M`. -/
def ModularValue (i : Instr) (a b M : Nat) (v : Int) : Prop :=
  ∀ s : State, s.Inv → natOfWords s.opa = a → natOfWords s.opb = b → natOfWords s.mod = M →
    ∃ w : List Word, exec i s = .next { s with res := w, done := true, pend := none } ∧ (natOfWords w : Int) = v

theorem modularValue_modexp (a b : Nat) {M : Nat} (hM : M ≠ 0) :
    ModularValue (.modexp false) a b M ((a : Int) ^ b % M) := by
  rintro s hinv rfl rfl rfl
  obtain ⟨w, hexec, -, hw⟩ := (modexpIsTheExactPower.2.2 false s hinv).2 hM
  have hbase : baseValue s false = (natOfWords s.opa : Int) := if_neg (by simp)
  rw [hbase] at hw
  exact ⟨w, hexec, hw.trans ((Int.mod_modEq _ _).pow _)⟩

theorem modularValue_modmul (a b : Nat) {M : Nat} (hM : M ≠ 0) :
    ModularValue (.modmul false) a b M ((a : Int) * b % M) := by
  rintro s hinv rfl rfl rfl
  obtain ⟨w, hexec, -, hw⟩ := (modmulIsTheExactProduct.2.2 false s hinv).2 hM
  have hbase : baseValue s false = (natOfWords s.opa : Int) := if_neg (by simp)
  rw [hbase] at hw
  exact ⟨w, hexec, hw.trans ((Int.mod_modEq _ _).mul (Int.mod_modEq _ _))⟩

/-- A command of the modular unit from a ready run, with the modulus written or as the call before left it. -/
theorem HostRun.Ready.modular {c : Config} {i : Instr} {a b M : Nat} {m : Option Nat} {v : Int} {r : HostRun}
    (h : r.Ready c) (ha : a < 2 ^ c.raw.mxw) (hb : b < 2 ^ c.raw.mxw) (hm : ∀ x ∈ m, x < 2 ^ c.raw.mxw)
    (hM : m.getD (natOfWords r.state.mod) = M) (hM0 : M ≠ 0) (hv : ModularValue i a b M v) :
    ∃ q n, modularOp i a b m r = .ok (q, n) ∧ (n : Int) = v ∧ natOfWords q.state.mod = M ∧ q.Ready c := by
  obtain ⟨s, t, hrun, ht, hs, hok⟩ := h.call (i := i) (modularOperands_wf ha hb hm) (modularOperands_writesOperands a b m)
  obtain ⟨hinv, hp, rfl⟩ := h
  obtain ⟨s', hrun', hopa, hopb, hmod⟩ := runEvents_modularOperands (s := clearStatus 0x00000006 r.state)
    (clearStatus_inv _ hinv) hp ha hb hm
  obtain rfl : s = s' := by injection hrun.symm.trans hrun'
  have hmodM : natOfWords s.mod = M := hmod.trans hM
  obtain ⟨w, hexec, hw⟩ := hv (s.issued (encode i)) (hs.issued i) hopa hopb hmodM
  obtain ⟨q, hq, hcore, hready⟩ := hok (modZero_eq_false i (hmodM.trans_ne hM0))
  obtain ⟨p, hread, hpcore, hpcfg⟩ := rdbig_res_of_idle hready.pend (hready.inv.resLen)
  rw [hexec] at ht
  injection ht with ht
  have hres : q.state.res = w := (congrArg (·.res) hcore).trans (by rw [← ht])
  have hqmod : natOfWords q.state.mod = M := by
    rw [show q.state.mod = t.mod from congrArg (·.mod) hcore, ← ht]
    exact hmodM
  refine ⟨p, _, ?_, (congrArg (fun l => (natOfWords l : Int)) hres).trans hw, ?_, hready.of_core hpcore hpcfg⟩
  · rw [modularOp_eq]
    exact except_bind_eq_ok.2 ⟨q, hq, except_bind_eq_ok.2 ⟨_, hread, rfl⟩⟩
  · rw [show p.state.mod = q.state.mod from congrArg (·.mod) hpcore, hqmod]

/-! ### The verdict -/

/-- What Verify writes for y fits OPA and has y's powers modulo p (log 19). -/
theorem verifyBase_spec {c : Config} {p y : Int} (hp : 0 < p) (hfit : p < ((2 ^ c.raw.mxw : Nat) : Int)) :
    verifyBase c p y < 2 ^ c.raw.mxw ∧ (verifyBase c p y : Int) ≡ y [ZMOD p] := by
  unfold verifyBase
  split
  next h =>
    obtain ⟨hy, hlt⟩ := h
    exact ⟨hlt, by rw [Int.toNat_of_nonneg hy]⟩
  next =>
    have hnonneg := Int.emod_nonneg y hp.ne'
    have hlt := Int.emod_lt_of_pos y hp
    exact ⟨by omega, by rw [Int.toNat_of_nonneg hnonneg]; exact Int.mod_modEq y p⟩

/-- A natural number that is a remainder modulo p fits MXW bits as p does. -/
theorem lt_two_pow_of_eq_emod {n k : Nat} {x p : Int} (hn : (n : Int) = x % p) (hp : 0 < p)
    (hfit : p < ((2 ^ k : Nat) : Int)) : n < 2 ^ k := by
  have := Int.emod_lt_of_pos x hp
  omega

/-- The product of the two powers of the right side, each taken modulo p, is the right side modulo p. -/
theorem mul_emod_eq_of_eq_emod {b y p x₁ x₂ z : Int} {k : Nat} (hb : b ≡ y [ZMOD p]) (h₁ : x₁ = b ^ k % p)
    (h₂ : x₂ = z % p) : x₁ * x₂ % p = y ^ k * z % p := by
  subst h₁ h₂
  exact ((Int.mod_modEq _ _).trans (hb.pow k)).mul (Int.mod_modEq _ _)

/-- The exponent of the left side: 1 where the digest modulo p - 1 is 0 (44_modexp R345). -/
def verifyExponent (h0 : Nat) : Nat := if h0 = 0 then 1 else h0

theorem natCast_verifyExponent (h0 : Nat) :
    (verifyExponent h0 : Int) = if (h0 : Int) = 0 then 1 else (h0 : Int) := by
  unfold verifyExponent
  split
  next h => rw [if_pos (by exact_mod_cast h)]; rfl
  next h => rw [if_neg (by exact_mod_cast h)]

theorem verifyExponent_lt {h0 n : Nat} (h : h0 < n) (hn : 1 < n) : verifyExponent h0 < n := by
  unfold verifyExponent
  split
  · exact hn
  · exact h

/-- The two sides of the criterion as the core gives them, from a ready run: MOD holds p for all four commands. -/
theorem HostRun.Ready.sides {c : Config} {r sg p g y : Int} {h : Nat} {run : HostRun} (hrun : run.Ready c)
    (hrange : 0 < r ∧ r < p ∧ 0 ≤ sg ∧ sg < p - 1) (hg : 0 < g ∧ g < p) (hfit : p < ((2 ^ c.raw.mxw : Nat) : Int))
    (hh : h < 2 ^ c.raw.mxw) :
    ∃ (q₃ q₄ q₅ q₆ : HostRun) (lhs t₁ t₂ rhs : Nat),
      modularOp (.modexp false) g.toNat h (some p.toNat) run = .ok (q₃, lhs) ∧
      modularOp (.modexp false) (verifyBase c p y) r.toNat none q₃ = .ok (q₄, t₁) ∧
      modularOp (.modexp false) r.toNat sg.toNat none q₄ = .ok (q₅, t₂) ∧
      modularOp (.modmul false) t₁ t₂ none q₅ = .ok (q₆, rhs) ∧
      (lhs : Int) = g ^ h % p ∧ (rhs : Int) = y ^ r.toNat * r ^ sg.toNat % p := by
  obtain ⟨hr0, hrp, hs0, hsp⟩ := hrange
  obtain ⟨hg0, hgp⟩ := hg
  have hp : 0 < p := by omega
  have hpn : p.toNat ≠ 0 := by omega
  have hpcast : (p.toNat : Int) = p := Int.toNat_of_nonneg hp.le
  obtain ⟨hbase, hbaseMod⟩ := verifyBase_spec (y := y) hp hfit
  obtain ⟨q₃, lhs, hop₃, hlhs, hmod₃, hready₃⟩ := hrun.modular (m := some p.toNat) (M := p.toNat) (a := g.toNat) (by omega) hh
    (by rintro x ⟨⟩; omega) rfl hpn (modularValue_modexp _ _ hpn)
  obtain ⟨q₄, t₁, hop₄, ht₁, hmod₄, hready₄⟩ := hready₃.modular (m := none) (b := r.toNat) hbase (by omega) nofun hmod₃
    hpn (modularValue_modexp _ _ hpn)
  obtain ⟨q₅, t₂, hop₅, ht₂, hmod₅, hready₅⟩ := hready₄.modular (m := none) (a := r.toNat) (b := sg.toNat) (by omega)
    (by omega) nofun hmod₄ hpn (modularValue_modexp _ _ hpn)
  rw [hpcast] at hlhs ht₁ ht₂
  obtain ⟨q₆, rhs, hop₆, hrhs, -, -⟩ := hready₅.modular (m := none) (lt_two_pow_of_eq_emod ht₁ hp hfit)
    (lt_two_pow_of_eq_emod ht₂ hp hfit) nofun hmod₅ hpn (modularValue_modmul _ _ hpn)
  rw [hpcast] at hrhs
  rw [Int.toNat_of_nonneg hg0.le] at hlhs
  rw [Int.toNat_of_nonneg hr0.le] at ht₂
  exact ⟨q₃, q₄, q₅, q₆, lhs, t₁, t₂, rhs, hop₃, hop₄, hop₅, hop₆, hlhs,
    hrhs.trans (mul_emod_eq_of_eq_emod hbaseMod ht₁ ht₂)⟩

/-- Verify in range on a key in its domain, from what the digest and the five commands answer. -/
theorem verify_eq_of_ok {msg : List Byte} {r sg p g y : Int} {run q₁ q₂ q₃ q₄ q₅ q₆ : HostRun}
    {dg h0 lhs t₁ t₂ rhs : Nat} (hrange : 0 < r ∧ r < p ∧ 0 ≤ sg ∧ sg < p - 1) (hkey : 2 < p ∧ 1 < g ∧ g < p)
    (h₁ : hostDigest msg run = .ok (q₁, dg)) (h₂ : modularOp (.modexp false) dg 1 (some (p - 1).toNat) q₁ = .ok (q₂, h0))
    (h₃ : modularOp (.modexp false) g.toNat (verifyExponent h0) (some p.toNat) q₂ = .ok (q₃, lhs))
    (h₄ : modularOp (.modexp false) (verifyBase run.state.cfg p y) r.toNat none q₃ = .ok (q₄, t₁))
    (h₅ : modularOp (.modexp false) r.toNat sg.toNat none q₄ = .ok (q₅, t₂))
    (h₆ : modularOp (.modmul false) t₁ t₂ none q₅ = .ok (q₆, rhs)) :
    verify msg r sg p g y run = .ok (q₆, if lhs = rhs then .accept else .reject) := by
  have hin : ¬ (r ≤ 0 ∨ r ≥ p ∨ sg < 0 ∨ sg ≥ p - 1) := by omega
  rw [verify, if_neg hin, if_neg (not_not_intro hkey)]
  exact except_bind_eq_ok.2 ⟨_, h₁, except_bind_eq_ok.2 ⟨_, h₂, except_bind_eq_ok.2 ⟨_, h₃,
    except_bind_eq_ok.2 ⟨_, h₄, except_bind_eq_ok.2 ⟨_, h₅, except_bind_eq_ok.2 ⟨_, h₆, rfl⟩⟩⟩⟩⟩⟩

/-- Settles O59: the values read are the exact remainders, so Verify compares the two sides of the criterion. -/
theorem verifyDecidesTheCriterion : Obligations.VerifyDecidesTheCriterion := by
  intro msg r sg p g y run hinv hidle hrange hkey hfit
  obtain ⟨hp2, hg1, hgp⟩ := hkey
  obtain ⟨hwords, -, hmxw⟩ := words_bounds run.state.cfg
  have hready : run.Ready run.state.cfg := ⟨hinv, hidle, rfl⟩
  have hbig : 2 ^ 160 ≤ 2 ^ run.state.cfg.raw.mxw := Nat.pow_le_pow_right (by decide) (by omega)
  have hpm1 : (p - 1).toNat ≠ 0 := by omega
  have hpcast : ((p - 1).toNat : Int) = p - 1 := Int.toNat_of_nonneg (by omega)
  obtain ⟨q₁, dg, hdg, hdglt, hready₁⟩ := hready.digest msg
  obtain ⟨q₂, h0, hop₂, hh0, -, hready₂⟩ := hready₁.modular (m := some (p - 1).toNat) (M := (p - 1).toNat) (hdglt.trans_le hbig)
    (b := 1) (by omega) (by rintro x ⟨⟩; omega) rfl hpm1 (modularValue_modexp dg 1 hpm1)
  rw [hpcast, pow_one] at hh0
  have hh0lt : h0 < 2 ^ run.state.cfg.raw.mxw := lt_two_pow_of_eq_emod hh0 (by omega) (by omega)
  obtain ⟨q₃, q₄, q₅, q₆, lhs, t₁, t₂, rhs, hop₃, hop₄, hop₅, hop₆, hlhs, hrhs⟩ :=
    hready₂.sides (y := y) hrange ⟨by omega, hgp⟩ hfit (verifyExponent_lt hh0lt (by omega))
  have hiff : lhs = rhs ↔ g ^ verifyExponent h0 % p = y ^ r.toNat * r ^ sg.toNat % p := by
    rw [← hlhs, ← hrhs, Int.natCast_inj]
  refine ⟨q₁, q₆, dg, verifyExponent h0, hdg, ?_, ?_⟩
  · rw [natCast_verifyExponent, hh0]
  · rw [verify_eq_of_ok hrange ⟨hp2, hg1, hgp⟩ hdg hop₂ hop₃ hop₄ hop₅ hop₆]
    simp only [hiff]

end Sys2Proof.Machine
end
